-- ==== Sys2Proof/Word.lean ====
section
/-! DEFINITION. The word types of the block: one wire byte, one request word, one response word (rules R8, R100, R104). -/

namespace Sys2Proof

/-- Every byte on the wire is 8 bits (rules R8, R90). -/
abbrev Byte := BitVec 8

/-- A request is always one 24-bit word, `OP[23:16] A[15:8] B[7:0]` (rules R100, R107). -/
abbrev ReqWord := BitVec 24

/-- A response is one 16-bit word, `STATUS[15:8] DATA[7:0]` (rules R104, R107). -/
abbrev RespWord := BitVec 16

end Sys2Proof
end

