-- ==== Sys2Proof/Config.lean ====
section
/-! DEFINITION. What is fixed for one block instance (the parameters of rule R9) and the free values (rules R66, R262, R269, R346).

The parameters are PLAIN DATA that a state carries in its field `cfg`, which no step changes, so a statement
about every state is a statement about every value of every OPEN parameter (assumption 1). The free values are
`opaque`, with no body: nothing can be proved of them. -/

namespace Sys2Proof

/-- The implementation parameters of rule R9, and the strapped configuration inputs that `init` samples (R101). -/
structure Config where
  /-- `N_CALLERS`: how many caller ports the block has (D25, OPEN). -/
  nCallers : Nat
  /-- The configuration input `PIN_CLK`; pin identity is opaque, here a number (R21). -/
  pinClk : Nat
  /-- The configuration input `PIN_DIO`. -/
  pinDio : Nat
  /-- The configuration input `PIN_STB`. -/
  pinStb : Nat
  /-- `ADDR_BASE`: the wire byte of relative address 0 (D8, OPEN). -/
  addrBase : Byte
  /-- `SEG_TABLE`: the Digit Segment Table, 16 bytes (R31, D9, OPEN). -/
  segTable : List Byte
  /-- `T_HIGH`, in microseconds (D30, OPEN). -/
  tHigh : Nat
  /-- `T_LOW`, in microseconds (D30, OPEN). -/
  tLow : Nat
  /-- `T_SETTLE`, in microseconds (D16, OPEN). -/
  tSettle : Nat
  /-- `T_STB_SETUP`, in microseconds; 0 adds no delay event (D15, OPEN). -/
  tStbSetup : Nat
  /-- `T_TEST_HOLD`, in microseconds (D21, OPEN). -/
  tTestHold : Nat
  /-- `SELF_TEST_FRAMES`: the 16-byte frames `test` writes, one burst each (D21, OPEN). -/
  selfTestFrames : List (List Byte)
deriving DecidableEq, Repr

/-- The default Digit Segment Table of rule R31. PRESUMED by the spec itself (general knowledge, GK3). -/
def Config.defaultSegTable : List Byte :=
  [0x3F, 0x06, 0x5B, 0x4F, 0x66, 0x6D, 0x7D, 0x07] ++
  [0x7F, 0x6F, 0x77, 0x7C, 0x39, 0x5E, 0x79, 0x71]

/-- One iteration of the default self-test: an all-on frame and an all-off frame (R9, D21). -/
def Config.onOffFrames : List (List Byte) := [List.replicate 16 0xFF, List.replicate 16 0x00]

/-- The default frames: `SELF_TEST_ITER` = 5 iterations, 10 frames (R8, R9, D21). -/
def Config.defaultFrames : List (List Byte) :=
  onOffFrames ++ onOffFrames ++ onOffFrames ++ onOffFrames ++ onOffFrames

/-- The parameters the reset state carries: the defaults rule R9 names, and for the parameters it leaves OPEN
without a default the values assumption 1 names (DESIGN CHOICE). -/
def Config.default : Config where
  nCallers := 2
  pinClk := 0
  pinDio := 1
  pinStb := 2
  addrBase := 0xC0
  segTable := defaultSegTable
  tHigh := 1
  tLow := 1
  tSettle := 1
  tStbSetup := 0
  tTestHold := 1000000
  selfTestFrames := defaultFrames

/-- FREE VALUE. The scan oracle (R66, D37, U11): the level the chip puts on DIO at the n-th sample ever taken.
"A draw: any bit, under no law". Assumption 2. -/
opaque Config.scanLevel : Nat → Bool

/-- FREE VALUE. The level the GPIO driver gives a pin at the n-th time a pin is set to output (R346, D7, U13, U14):
"a draw". Assumption 16. -/
opaque Config.freshLevel : Nat → Bool

/-- FREE VALUE. The lock's arbitration (R262, D25, U15, U16): which waiting caller wins a contended acquisition, when the
turn does not say; the number counts the choices made so far. "No order among waiters is promised". Assumption 3. -/
opaque Config.arbiter : Nat → Nat

/-- FREE VALUE. Which caller or the block moves at a turn that does not say (R6, R269). Assumption 30. -/
opaque Config.agent : Nat → Nat

/-- FREE VALUE. The request a caller issues at a turn that does not say (R261): any word. Assumption 30. -/
opaque Config.request : Nat → ReqWord

end Sys2Proof
end

