-- ==== Sys2Proof/Syntax.lean ====
section
/-! DEFINITION. The instructions: one constructor for every row of spec/opcode_table.json, which are the 13 request
operations of rule R101 and the 7 wire-byte formats of rules R91 to R97. -/

namespace Sys2Proof

/-- Request operations carry exactly the operands rule R101 says they use, as the 8-bit fields of R100; an
unused field is ignored (R100, V-E4) and is no part of the instruction. Wire bytes carry the fields of R91. -/
inductive Instr where
  /-- OP 0x01, R193. The pins are configuration inputs, not operands. -/
  | init
  /-- OP 0x02, R194: A = digit_id, B = hex_value. -/
  | displayVal (digit hex : Byte)
  /-- OP 0x03, R195: A = digit_id, B = segment_pattern. -/
  | displayDig (digit pattern : Byte)
  /-- OP 0x04, R196. -/
  | displayClear
  /-- OP 0x05, R197: A = led_number, B = state. -/
  | writeLed (led state : Byte)
  /-- OP 0x06, R198: B = mask. -/
  | writeLeds (mask : Byte)
  /-- OP 0x07, R199. -/
  | displayTurnOn
  /-- OP 0x08, R200. -/
  | displayTurnOff
  /-- OP 0x09, R201: B = level. -/
  | displaySetBrightness (level : Byte)
  /-- OP 0x0A, R202. -/
  | reset
  /-- OP 0x0B, R203. -/
  | test
  /-- OP 0x0C, R241. -/
  | getButtons
  /-- OP 0x0D, R242: A = key_id. -/
  | getButton (key : Byte)
  /-- Wire byte 0x40, R92: data command with auto-address. -/
  | cmdAuto
  /-- Wire byte 0x42, R93: key-scan read command. -/
  | cmdRead
  /-- Wire byte 0x44, R94: data command with a fixed address. -/
  | cmdFixed
  /-- Wire byte `1000 obbb`, R95: display control. -/
  | dctl (on : Bool) (level : BitVec 3)
  /-- Wire byte `ADDR_BASE + p`, R96: the first byte of a data-write window. -/
  | addr (p : BitVec 4)
  /-- Wire byte `dddd dddd`, R91, R97: every byte after ADDR in a data-write window. -/
  | data (value : Byte)
  /-- Wire byte `ssss ssss`, R91: one of the 4 bytes of a read window, driven by the chip. -/
  | scanb (value : Byte)
deriving DecidableEq, Repr

/-- The position of a byte in its window, which alone fixes its format (R91). -/
inductive WirePos where
  /-- The first byte the controller sends in a window: a command or an address. -/
  | first
  /-- Every later byte of a data-write window. -/
  | later
  /-- Every byte of a read window. -/
  | scan
deriving DecidableEq, Repr

/-- The encoded form of an instruction: a request word on a caller port, or a byte at a position on the wire. -/
inductive Encoded where
  | request (word : ReqWord)
  | wire (pos : WirePos) (byte : Byte)
deriving DecidableEq, Repr

end Sys2Proof
end

