-- ==== Sys2Proof/WellFormed.lean ====
section
/-! DEFINITION. The checks: which parameters rule R9 admits, and which instructions have an encoding under them. -/

namespace Sys2Proof

/-- The bytes that stand in command position: 0x40, 0x42, 0x44 and 0x80..0x8F (R9, R99). -/
def isCommandByte (n : Nat) : Bool :=
  n == 0x40 || n == 0x42 || n == 0x44 || (0x80 ≤ n && n ≤ 0x8F)

/-- `ADDR_BASE + p` does not exceed 0xFF and is no command byte (R9). -/
def Config.addrOk (cfg : Config) (p : Nat) : Bool :=
  cfg.addrBase.toNat + p ≤ 0xFF && !isCommandByte (cfg.addrBase.toNat + p)

/-- `N_CALLERS` is at least 1 (R9). -/
def Config.callersOk (cfg : Config) : Bool := 1 ≤ cfg.nCallers

/-- The three pin identifiers are pairwise distinct (R9, R21). -/
def Config.pinsOk (cfg : Config) : Bool :=
  cfg.pinClk != cfg.pinDio && cfg.pinClk != cfg.pinStb && cfg.pinDio != cfg.pinStb

/-- Every relative address has an admitted address byte (R9). -/
def Config.baseOk (cfg : Config) : Bool := (List.range 16).all cfg.addrOk

/-- 16 entries, bit 7 clear in each (R9, R31). -/
def Config.segOk (cfg : Config) : Bool :=
  cfg.segTable.length == 16 && cfg.segTable.all fun v => !v.getLsbD 7

/-- The clock half-periods and the settle delay are at least 1 µs (R9, R337). -/
def Config.timesOk (cfg : Config) : Bool := 1 ≤ cfg.tHigh && 1 ≤ cfg.tLow && 1 ≤ cfg.tSettle

/-- Every self-test frame has 16 bytes (R9). -/
def Config.framesOk (cfg : Config) : Bool := cfg.selfTestFrames.all fun f => f.length == 16

/-- The parameters rule R9 admits. -/
def Config.admitted (cfg : Config) : Bool :=
  cfg.callersOk && cfg.pinsOk && cfg.baseOk && cfg.segOk && cfg.timesOk && cfg.framesOk

/-- An instruction is well formed under `cfg` when its encoding means it: an address byte must stay apart from
the command bytes and within 8 bits (R9, R96). Every operand of every other instruction is admitted (R100). -/
def Instr.wellFormed (cfg : Config) (i : Instr) : Bool :=
  match i with
  | .addr p => cfg.addrOk p.toNat
  | .init | .displayVal _ _ | .displayDig _ _ | .displayClear | .writeLed _ _ | .writeLeds _ | .displayTurnOn
  | .displayTurnOff | .displaySetBrightness _ | .reset | .test | .getButtons | .getButton _ | .cmdAuto | .cmdRead
  | .cmdFixed | .dctl _ _ | .data _ | .scanb _ => true

end Sys2Proof
end

