-- ==== Sys2Proof/Decode.lean ====
section
/-! DEFINITION. Decoding, total on every request word and on every wire byte at every position, and the encoder.
Encodings: rules R90 to R107 and spec/opcode_table.json. -/

namespace Sys2Proof

/-- Why an encoded form stands for no instruction. -/
inductive DecodeError where
  /-- `OP` = 0x00 or 0x0E..0xFF selects no operation (R103). -/
  | illegalOp (op : Byte)
  /-- A command-position byte with no meaning in the source (R99). -/
  | reservedWireByte (byte : Byte)
deriving DecidableEq, Repr

/-! ### Fields of the request word (R100) -/

/-- `OP`, bits 23:16. -/
def opField (w : ReqWord) : Byte := w.extractLsb' 16 8
/-- `A`, bits 15:8. -/
def aField (w : ReqWord) : Byte := w.extractLsb' 8 8
/-- `B`, bits 7:0. -/
def bField (w : ReqWord) : Byte := w.extractLsb' 0 8

/-- `OP << 16 | A << 8 | B` (R105). -/
def requestWord (op a b : Byte) : ReqWord := (op ++ a) ++ b

/-- The operation selector map of R101; every other `OP` is illegal (R103). -/
def decodeRequest (w : ReqWord) : Except DecodeError Instr :=
  match (opField w).toNat with
  | 0x01 => .ok .init
  | 0x02 => .ok (.displayVal (aField w) (bField w))
  | 0x03 => .ok (.displayDig (aField w) (bField w))
  | 0x04 => .ok .displayClear
  | 0x05 => .ok (.writeLed (aField w) (bField w))
  | 0x06 => .ok (.writeLeds (bField w))
  | 0x07 => .ok .displayTurnOn
  | 0x08 => .ok .displayTurnOff
  | 0x09 => .ok (.displaySetBrightness (bField w))
  | 0x0A => .ok .reset
  | 0x0B => .ok .test
  | 0x0C => .ok .getButtons
  | 0x0D => .ok (.getButton (aField w))
  | _ => .error (.illegalOp (opField w))

/-! ### Wire bytes (R91 to R99) -/

/-- `CMD_AUTO` (R92). -/
def cmdAutoByte : Byte := 0x40
/-- `CMD_READ` (R93). -/
def cmdReadByte : Byte := 0x42
/-- `CMD_FIXED` (R94). -/
def cmdFixedByte : Byte := 0x44

/-- `dc_byte(on, level) = 0x80 | (bool(on) << 3) | zext_8(level[2:0])` (R95). -/
def dcByte (on : Bool) (level : BitVec 3) : Byte :=
  0x80 ||| ((BitVec.ofBool on).zeroExtend 8 <<< 3) ||| level.zeroExtend 8

/-- `addr_byte(p) = ADDR_BASE + p` (R96). -/
def addrByte (cfg : Config) (p : Nat) : Byte := cfg.addrBase + BitVec.ofNat 8 p

/-- The byte is one of the 16 address bytes: `0 <= a - ADDR_BASE <= 15` (R62, R96). -/
def isAddrByte (cfg : Config) (b : Byte) : Bool :=
  cfg.addrBase.toNat ≤ b.toNat && b.toNat ≤ cfg.addrBase.toNat + 15

/-- `p = a - ADDR_BASE` (R62). -/
def relAddr (cfg : Config) (b : Byte) : Nat := b.toNat - cfg.addrBase.toNat

/-- The byte in command position: the three data commands, display control, an address, or reserved (R91, R99). -/
def decodeFirst (cfg : Config) (b : Byte) : Except DecodeError Instr :=
  if b = cmdAutoByte then .ok .cmdAuto
  else if b = cmdReadByte then .ok .cmdRead
  else if b = cmdFixedByte then .ok .cmdFixed
  else if b.extractLsb' 4 4 = 0x8#4 then .ok (.dctl (b.getLsbD 3) (b.extractLsb' 0 3))
  else if isAddrByte cfg b then .ok (.addr (BitVec.ofNat 4 (relAddr cfg b)))
  else .error (.reservedWireByte b)

/-- A wire byte's format is fixed by its position in a window (R91). -/
def decodeWire (cfg : Config) (pos : WirePos) (b : Byte) : Except DecodeError Instr :=
  match pos with
  | .first => decodeFirst cfg b
  | .later => .ok (.data b)
  | .scan => .ok (.scanb b)

/-- The decoder of both encodings. -/
def decode (cfg : Config) (e : Encoded) : Except DecodeError Instr :=
  match e with
  | .request w => decodeRequest w
  | .wire pos b => decodeWire cfg pos b

/-! ### The encoder -/

/-- Every instruction's encoding; an unused operand is encoded as 0 (R101, R105; R91 to R97 for wire bytes). -/
def encode (cfg : Config) (i : Instr) : Encoded :=
  match i with
  | .init => .request (requestWord 0x01 0 0)
  | .displayVal d h => .request (requestWord 0x02 d h)
  | .displayDig d v => .request (requestWord 0x03 d v)
  | .displayClear => .request (requestWord 0x04 0 0)
  | .writeLed n s => .request (requestWord 0x05 n s)
  | .writeLeds m => .request (requestWord 0x06 0 m)
  | .displayTurnOn => .request (requestWord 0x07 0 0)
  | .displayTurnOff => .request (requestWord 0x08 0 0)
  | .displaySetBrightness l => .request (requestWord 0x09 0 l)
  | .reset => .request (requestWord 0x0A 0 0)
  | .test => .request (requestWord 0x0B 0 0)
  | .getButtons => .request (requestWord 0x0C 0 0)
  | .getButton k => .request (requestWord 0x0D k 0)
  | .cmdAuto => .wire .first cmdAutoByte
  | .cmdRead => .wire .first cmdReadByte
  | .cmdFixed => .wire .first cmdFixedByte
  | .dctl on level => .wire .first (dcByte on level)
  | .addr p => .wire .first (addrByte cfg p.toNat)
  | .data v => .wire .later v
  | .scanb v => .wire .scan v

/-! ### The assembler (R105) -/

/-- The mnemonic of R101 and its alias, with the instruction and which of `A`, `B` it uses. -/
structure AsmRow where
  mnemonic : String
  aliasName : String
  op : Byte
  usesA : Bool
  usesB : Bool
deriving DecidableEq, Repr

/-- The names of R101, in `OP` order. -/
def asmRows : List AsmRow :=
  [⟨"init", "init", 0x01, false, false⟩, ⟨"display_val", "set_digit", 0x02, true, true⟩,
   ⟨"display_dig", "set_digit_raw", 0x03, true, true⟩, ⟨"display_clear", "clear_display", 0x04, false, false⟩,
   ⟨"write_led", "set_led", 0x05, true, true⟩, ⟨"write_leds", "set_all_leds", 0x06, false, true⟩] ++
  [⟨"display_turn_on", "turn_on", 0x07, false, false⟩, ⟨"display_turn_off", "turn_off", 0x08, false, false⟩,
   ⟨"display_set_brightness", "set_brightness", 0x09, false, true⟩, ⟨"reset", "reset", 0x0A, false, false⟩,
   ⟨"test", "self_test", 0x0B, false, false⟩, ⟨"get_buttons", "get_buttons", 0x0C, false, false⟩,
   ⟨"get_button", "get_button", 0x0D, true, false⟩]

/-- A request from its mnemonic or alias and its used operands in `A, B` order; an unused operand is 0 (R105). -/
def assemble (name : String) (operands : List Byte) : Option ReqWord :=
  match asmRows.find? (fun r => r.mnemonic == name || r.aliasName == name) with
  | none => none
  | some r =>
    match r.usesA, r.usesB, operands with
    | false, false, [] => some (requestWord r.op 0 0)
    | true, false, [a] => some (requestWord r.op a 0)
    | false, true, [b] => some (requestWord r.op 0 b)
    | true, true, [a, b] => some (requestWord r.op a b)
    | _, _, _ => none

/-- The value of a digit in base 10 or 16. -/
def digitValue (base : Nat) (c : Char) : Option Nat :=
  let n := c.toNat
  let v := if 48 ≤ n && n ≤ 57 then n - 48 else if 97 ≤ n && n ≤ 102 then n - 87
    else if 65 ≤ n && n ≤ 70 then n - 55 else base
  if v < base then some v else none

/-- Digits, most significant first, after a value already read; none is an error. -/
def digitsFrom (base acc : Nat) (cs : List Char) : Option Nat :=
  match cs with
  | [] => some acc
  | c :: rest => (digitValue base c).bind fun v => digitsFrom base (base * acc + v) rest

/-- A numeral, "decimal or `0x` hexadecimal" (R105), of an 8-bit operand (R100). -/
def readNumeral (cs : List Char) : Option Byte :=
  let n := match cs with
    | [] => none
    | ['0', 'x'] => none
    | '0' :: 'x' :: hex => digitsFrom 16 0 hex
    | _ => digitsFrom 10 0 cs
  n.bind fun v => if v ≤ 0xFF then some (BitVec.ofNat 8 v) else none

/-- The parts of a text between commas. -/
def commaParts (cs : List Char) : List (List Char) :=
  match cs with
  | [] => [[]]
  | c :: rest =>
    match c == ',', commaParts rest with
    | true, parts => [] :: parts
    | false, [] => [[c]]
    | false, part :: parts => (c :: part) :: parts

/-- A text without the spaces around it. -/
def trimSpaces (cs : List Char) : List Char :=
  ((cs.dropWhile (· == ' ')).reverse.dropWhile (· == ' ')).reverse

/-- One line of the assembler: the mnemonic, then its used operands separated by commas (R105). The spacing and the
letter case of a hexadecimal digit are the model's (assumption 19). -/
def assembleLine (line : String) : Option ReqWord :=
  let cs := trimSpaces line.toList
  let name := cs.takeWhile (· != ' ')
  let tail := trimSpaces (cs.dropWhile (· != ' '))
  let texts := if tail.isEmpty then [] else (commaParts tail).map trimSpaces
  (texts.mapM readNumeral).bind (assemble (String.ofList name))

/-! ### The table's words -/

/-- What the decoder reads from a word laid out as spec/opcode_table.json lays it out: 24 bits are a request, 8
bits a wire byte. An 8-bit word says nothing of its position (R91): it is read in command position where that
has a meaning, and as a data byte otherwise (assumption 4). The parameters are the table's own defaults. -/
def decodeTableWord (nbits w : Nat) : Option Instr :=
  if nbits = 24 then (decodeRequest (BitVec.ofNat 24 w)).toOption
  else if nbits = 8 then
    match decodeFirst Config.default (BitVec.ofNat 8 w) with
    | .ok i => some i
    | .error _ => some (.data (BitVec.ofNat 8 w))
  else none

end Sys2Proof
end

