-- ==== Sys2Proof/Machine/State.lean ====
section
/-! DEFINITION. The state of one block instance (R20 to R37), of the chip as the wire observer tracks it (R35), of the
wire itself (R7, R13), and of the model's own turns and free-value counters. Plain data throughout. -/

namespace Sys2Proof.Machine

/-! ### The wire (R7, R13, R15) -/

/-- The three lines of the block (R8). -/
inductive Line where
  | clk
  | dio
  | stb
deriving DecidableEq, Repr

/-- The argument of `SetDir` (R13): OUT or IN. -/
inductive PinDir where
  | out
  | inp
deriving DecidableEq, Repr

/-- One event of the wire trace: a wire primitive as it was performed, on the bound pin (R7, R13, R21). -/
inductive Event where
  | setLevel (line : Line) (pin : Nat) (level : Bool)
  | setDir (line : Line) (pin : Nat) (dir : PinDir)
  | getLevel (line : Line) (pin : Nat) (level : Bool)
  /-- A delay is an event with its lower bound in microseconds; the model keeps no clock (R135). -/
  | delayUs (micros : Nat)
deriving DecidableEq, Repr

/-- A bit seen on DIO inside an open strobe window. -/
inductive WireBit where
  /-- Driven by the block at the clock pulse (R130). -/
  | out (b : Bool)
  /-- Sampled by the block before the clock pulse (R131). -/
  | inp (b : Bool)
  /-- Clocked while the level of DIO was `⊥` (R26). -/
  | unknown
deriving DecidableEq, Repr

/-- An item of a strobe window (R15). -/
inductive Item where
  /-- `Out(b)`: a byte shifted out. -/
  | out (b : Byte)
  /-- `In(b)`: a byte shifted in. -/
  | inp (b : Byte)
  /-- Bits that make no byte of one kind; the block sends none (R134). -/
  | broken
deriving DecidableEq, Repr

/-- One closed strobe window, its items in wire order (R15). -/
abbrev Window := List Item

/-! ### The chip (R35) -/

/-- `CHIP_MODE`, less its `⊥` (R35). -/
inductive ChipMode where
  | auto
  | fixed
  | read
deriving DecidableEq, Repr

/-- The display registers `DSP` (R60): (relative address, byte) pairs, addresses strictly rising; an unlisted
address reads as `⊥`, "no value" (R35). -/
abbrev Memory := List Host.Cell

/-- The chip as the wire observer tracks it. -/
structure Chip where
  /-- `CHIP_RAM[0..15]` (R35). -/
  ram : Memory
  /-- `CHIP_MODE`; `none` is `⊥`. -/
  mode : Option ChipMode
  /-- `CHIP_DC`: `(on, level)`; `none` is `⊥`. -/
  dc : Option (Bool × BitVec 3)
  /-- The sticky fault mark `WIRE_UNDEFINED` (R65, R309). -/
  undefined : Bool
deriving DecidableEq, Repr

/-- The chip at power-up: all `⊥` (R35, R330). -/
def Chip.powerUp : Chip := ⟨[], none, none, false⟩

/-! ### The bus (R21, R25, R26) -/

/-- `DIO_DIR` (R25). -/
inductive DioDir where
  | driving
  | listening
deriving DecidableEq, Repr

/-- The pins as `init` bound them, the levels last driven, and what passed on the wire. -/
structure Bus where
  /-- `PIN_CLK`; `none` is the spec's "unbound" (R21, R330). -/
  pinClk : Option Nat
  /-- `PIN_DIO`. -/
  pinDio : Option Nat
  /-- `PIN_STB`. -/
  pinStb : Option Nat
  /-- `DIO_DIR` (R25). -/
  dioDir : DioDir
  /-- `LVL_CLK`; `none` is `⊥` (R26). -/
  lvlClk : Option Bool
  /-- `LVL_DIO`. -/
  lvlDio : Option Bool
  /-- `LVL_STB`. -/
  lvlStb : Option Bool
  /-- The level the GPIO driver gave CLK when it was last set to output; `none` before (R346, assumption 16). -/
  freshClk : Option Bool
  /-- The same for DIO (R346, U13). -/
  freshDio : Option Bool
  /-- The same for STB (R346). -/
  freshStb : Option Bool
  /-- The bits so far of the open strobe window, oldest first; `none` when no window is open (R15). -/
  win : Option (List WireBit)
  /-- The wire trace since power-up, NEWEST first (R7, R13). -/
  log : List Event
  /-- The transaction trace since power-up, NEWEST first (R7, R15). -/
  trace : List Window
  /-- The sticky fault mark `TRANSPORT_MISUSE` (R309). -/
  misuse : Bool
deriving DecidableEq, Repr

/-- The bus at power-up (R330). The spec leaves DIO_DIR open there; R25's invariant points to DRIVING
(assumption 5). -/
def Bus.powerUp : Bus := ⟨none, none, none, .driving, none, none, none, none, none, none, none, [], [], false⟩

/-! ### Requests, statuses, actions (R12, R13, R27, R29, R104, R291) -/

/-- Completion statuses (R291). -/
inductive Status where
  | ok
  | eRange
  | eIllegal
  | eNoinit
  | eReinit
deriving DecidableEq, Repr

/-- A response `(STATUS, DATA)` (R104). -/
structure Response where
  status : Status
  data : Byte
deriving DecidableEq, Repr

/-- `PORT[c]` (R29). -/
inductive Port where
  | idle
  | waiting (req : ReqWord)
  | active (req : ReqWord)
  | done (resp : Response)
deriving DecidableEq, Repr

/-- The scratch bytes `SCAN[0..3]` (R33). -/
structure Scan where
  b0 : Byte
  b1 : Byte
  b2 : Byte
  b3 : Byte
deriving DecidableEq, Repr

/-- The precondition a wire action carries; where it fails the model sets `TRANSPORT_MISUSE` (R309). -/
inductive Check where
  | none
  /-- A window opens: the lock is held and `LVL_STB = 1` (R160). -/
  | windowEntry
  /-- A bit is shifted out: the lock is held, DIO driving, STB low (R130). -/
  | shiftOut
  /-- A bit is shifted in: the lock is held, DIO listening, STB low (R131). -/
  | shiftIn
deriving DecidableEq, Repr

/-- The wire primitives (R13). -/
inductive Prim where
  | setLevel (line : Line) (level : Bool)
  | setDir (line : Line) (dir : PinDir)
  | delayUs (micros : Nat)
  /-- `GetLevel(PIN_DIO)`, stored to bit `bit` of `SCAN[byte]`, which the first sample of a byte clears
  (R131, assumption 28). `given` is a level some other driver of the wire supplies; with `none` the scan oracle answers (R66). -/
  | sample (given : Option Bool) (byte : Nat) (bit : Nat) (clears : Bool)
deriving DecidableEq, Repr

/-- Which byte `complete` returns (R12). -/
inductive Result where
  | zero
  | mask
  | maskBit (key : Nat)
deriving DecidableEq, Repr

/-- One action of an operation's action list: a wire primitive, a register write, or the completion (R27, R263). -/
inductive Action where
  | wire (chk : Check) (p : Prim)
  /-- `bind PIN_CLK, PIN_DIO, PIN_STB from the configuration inputs` (R193). -/
  | bindPins
  | writeDioDriving
  | writeBrightness (level : BitVec 3)
  | writeIsOn (on : Bool)
  | writeInitDone
  /-- `MASK <- fold(SCAN)` (R240). -/
  | foldMask
  | complete (result : Result)
  | raise (status : Status)
deriving DecidableEq, Repr

/-- `SEQ` (R27): `IDLE`, or `RUN(c, op, k)` with the actions of `op`'s list from action `k` on, which were built
when the request was accepted (R262). -/
inductive Seq where
  | idle
  | run (caller : Nat) (req : ReqWord) (k : Nat) (todo : List Action)
deriving DecidableEq, Repr

/-! ### Turns: which agent moves next (R6, R71, R261 to R265) -/

/-- A turn. The spec leaves open in which order the agents move, so the order is data (assumption 6). -/
inductive Turn where
  /-- Caller `c` issues a request (R261). -/
  | issue (c : Nat) (req : ReqWord)
  /-- The guard grants the lock to caller `c` (R262). -/
  | acquire (c : Nat)
  /-- The block makes one step of its own: acquire, execute or release (R262 to R264). -/
  | block
  /-- The guard grants the lock to caller `c` and its request runs from acquire to release: the request
  level of R7 in one step. -/
  | serve (c : Nat)
  /-- Caller `c` collects its response (R265). -/
  | collect (c : Nat)
  /-- A byte is put on the wire at a position of a window (R91), by this block's transport or by a variant
  (R309). -/
  | wire (pos : WirePos) (b : Byte)
  /-- STB rises: the open window closes and its settle delay passes (R160, R164). -/
  | strobe
  /-- Power is lost and comes back (R37, R308). -/
  | powerLoss
  /-- The block or one of the callers makes a step it can make: which one, and which request a caller issues, is a free
  value (R6, R269, assumption 30). -/
  | agent
deriving DecidableEq, Repr

/-! ### The state -/

/-- The state of the machine. -/
structure State where
  /-- The parameters of R9; no step changes them. -/
  cfg : Config
  /-- Bus configuration and bus state (R21, R25, R26), and the traces (R7). -/
  bus : Bus
  /-- `INIT_DONE` (R22). -/
  initDone : Bool
  /-- `BRIGHTNESS` (R23). -/
  brightness : BitVec 3
  /-- `IS_ON` (R24). -/
  isOn : Bool
  /-- `SEQ` (R27). -/
  seq : Seq
  /-- `LOCK_OWNER`; `none` is `FREE` (R28). -/
  lockOwner : Option Nat
  /-- `PORT[0..N_CALLERS-1]` (R29). -/
  ports : List Port
  /-- `SCAN[0..3]` (R33). -/
  scan : Scan
  /-- `MASK` (R33). -/
  mask : Byte
  /-- The response `complete` or `raise` recorded, for the release (R263). -/
  resp : Response
  /-- The chip (R35). -/
  chip : Chip
  /-- The model's own: the turns to come, next first. -/
  turns : List Turn
  /-- The model's own: the turns that come when those are used up, in this order again and again (assumption 30). -/
  later : List Turn
  /-- The model's own: how many samples the oracle has answered (assumption 2). -/
  draws : Nat
  /-- The model's own: how many times a pin was set to output (assumption 16). -/
  outs : Nat
  /-- The model's own: how many choices among agents the free values have settled (assumptions 3, 30). -/
  choices : Nat
deriving DecidableEq, Repr

/-- The power-up state (R330). Where R330 says "unspecified" the value is the one assumption 5 names. -/
def State.powerUp (cfg : Config) : State where
  cfg := cfg
  bus := Bus.powerUp
  initDone := false
  brightness := 0
  isOn := false
  seq := .idle
  lockOwner := none
  ports := List.replicate cfg.nCallers .idle
  scan := ⟨0, 0, 0, 0⟩
  mask := 0
  resp := ⟨.ok, 0⟩
  chip := Chip.powerUp
  turns := []
  later := []
  draws := 0
  outs := 0
  choices := 0

/-- The machine right after reset: power-up with the default parameters (R330, assumption 1). There is no
reset pin and no reset vector (R331). -/
def State.reset : State := State.powerUp Config.default

/-! ### How a step can stop -/

/-- Why a run has no next step. No instruction raises one of these: every meaning answers a next state. -/
inductive Fault where
  /-- The turn issues for caller `c`, which has a request outstanding or does not exist: no such step (R261), the
  stuck run of R266 and U19 (the block says of a nested request: stuck, not final). Raised by the turn `issue`.
  Safe: the model stops, and no claim about a later state can be made. -/
  | issueNotEnabled (c : Nat)
  /-- The turn grants the lock to caller `c` while the lock is not free, the sequencer not idle or the port not
  waiting: no such step (R262). Raised by the turns `acquire` and `serve`. Safe. -/
  | acquireNotEnabled (c : Nat)
  /-- The turn collects for caller `c`, which has no response: no such step (R265). Raised by the turn `collect`.
  Safe. -/
  | collectNotEnabled (c : Nat)
deriving DecidableEq, Repr

/-- Why the model gives an instruction no meaning. -/
inductive Refusal where
  /-- The instruction's arm has no meaning yet. No arm answers it. Safe: nothing is claimed. -/
  | notModelled (mnemonic : String)
deriving DecidableEq, Repr

end Sys2Proof.Machine
end

