-- ==== Sys2Proof/Machine/Operands.lean ====
section
/-! DEFINITION. Operand forms: addresses, the segment encoder, operand ranges, and the informational maps
(R102, R190 to R192, R292; R32, R34). All comparisons are unsigned, on the 8-bit operand (R100, R204). -/

namespace Sys2Proof.Machine

/-- `digit_addr(d) = 14 - 2·d`, for `d <= 7` (R190). -/
def digitAddr (d : Nat) : Nat := 14 - 2 * d

/-- `led_addr(n) = 2·n - 1`, for `1 <= n <= 8` (R191). -/
def ledAddr (n : Nat) : Nat := 2 * n - 1

/-- `seg_encode(h) = SEG_TABLE[h]`, for `h` in 0..15 (R192). Past the table's end there is no entry; the range
check keeps every caller within it, and R9 gives the table 16 entries. -/
def segEncode (cfg : Config) (h : Nat) : Byte := cfg.segTable.getD h 0

/-- `bool(b)` as a byte: 1 for true and 0 for false (R11). -/
def boolByte (b : Bool) : Byte := if b then 0x01 else 0x00

/-- `state = (B != 0)` (R102, D20). -/
def ledState (b : Byte) : Bool := b != 0

/-- `d <= 7` (R292). -/
def digitInRange (d : Byte) : Bool := d.toNat ≤ 7

/-- `h <= 15` (R292). -/
def hexInRange (h : Byte) : Bool := h.toNat ≤ 15

/-- `1 <= n <= 8` (R292). -/
def ledInRange (n : Byte) : Bool := 1 ≤ n.toNat && n.toNat ≤ 8

/-- The level is in `BRIGHTNESS_CODES` = {0..7} (R10, R292). -/
def levelInRange (l : Byte) : Bool := l.toNat ≤ 7

/-- `k <= 7` (R242, R292). -/
def keyInRange (k : Byte) : Bool := k.toNat ≤ 7

/-- The 3-bit value of a valid level, unchanged (R10). -/
def levelBits (l : Byte) : BitVec 3 := l.extractLsb' 0 3

/-- The duty cycle of a level in sixteenths. Informational, and PRESUMED by the spec itself (R34, GK5): no rule
of the model depends on it. -/
def dutySixteenths (level : BitVec 3) : Nat :=
  [1, 2, 4, 10, 11, 12, 13, 14].getD level.toNat 0

/-- The segments of a digit (R32). -/
inductive Segment where
  | a
  | b
  | c
  | d
  | e
  | f
  | g
  | dp
deriving DecidableEq, Repr

/-- The bit of a segment in a pattern byte (R32, PRESUMED by the spec itself, GK4). No rule of the block depends
on it. -/
def segmentBit : Segment → Nat
  | .a => 0
  | .b => 1
  | .c => 2
  | .d => 3
  | .e => 4
  | .f => 5
  | .g => 6
  | .dp => 7

end Sys2Proof.Machine
end

