-- ==== Sys2Proof/Machine/Flags.lean ====
section
/-! DEFINITION. Statuses and the response word (R104, R291), and the fold of the button scanner (R240). The block has no
condition flags (R30): a request's completion status is its only status result. -/

namespace Sys2Proof.Machine

/-- The status codes (R291). -/
def Status.code : Status → Byte
  | .ok => 0x00
  | .eRange => 0x01
  | .eIllegal => 0x02
  | .eNoinit => 0x03
  | .eReinit => 0x04

/-- The response word, `STATUS` in bits 15:8 and `DATA` in bits 7:0 (R104). -/
def Response.word (r : Response) : RespWord := r.status.code ++ r.data

/-- `acc | (zext_16(b) << i)`, one step of the fold (R240). -/
def foldStep (acc : BitVec 16) (b : Byte) (i : Nat) : BitVec 16 := acc ||| (b.zeroExtend 16 <<< i)

/-- The fold's accumulator before truncation (R240). -/
def foldAcc (s : Scan) : BitVec 16 :=
  foldStep (foldStep (foldStep (foldStep 0 s.b0 0) s.b1 1) s.b2 2) s.b3 3

/-- `fold(SCAN[0..3])`, the accumulator's low 8 bits (R240, D23). -/
def fold (s : Scan) : Byte := (foldAcc s).truncate 8

/-- `zext_8(MASK[k])` (R242). -/
def maskBit (mask : Byte) (k : Nat) : Byte := if mask.getLsbD k then 0x01 else 0x00

end Sys2Proof.Machine
end

