-- ==== Sys2Proof/Machine/Observer.lean ====
section
/-! DEFINITION. The display-register memory and the wire observer: what a closed window does to the chip
(R60 to R66, R71). -/

namespace Sys2Proof.Machine

/-! ### The display registers (R14, R60, R69) -/

/-- What address `a` holds; `none` is `⊥` (R35). -/
def Memory.read (m : Memory) (a : Nat) : Option Byte :=
  match m with
  | [] => none
  | (b, v) :: rest => if a = b then some v else Memory.read rest a

/-- `MemWrite(a, 1, v)` (R14), keeping the addresses strictly rising. -/
def Memory.write (m : Memory) (a : Nat) (v : Byte) : Memory :=
  match m with
  | [] => [(a, v)]
  | (b, w) :: rest =>
    if a < b then (a, v) :: (b, w) :: rest
    else if a = b then (a, v) :: rest
    else (b, w) :: Memory.write rest a v

/-- `MemWrite(a + i, 1, v_i)` for each `i`, ascending (R64). -/
def Memory.writeBurst (m : Memory) (a : Nat) (vs : List Byte) : Memory :=
  match vs with
  | [] => m
  | v :: rest => Memory.writeBurst (m.write a v) (a + 1) rest

/-- Every address is at least `lo`, and they rise strictly. -/
def Memory.rising (m : Memory) (lo : Nat) : Bool :=
  match m with
  | [] => true
  | (a, _) :: rest => lo ≤ a && Memory.rising rest (a + 1)

/-- The canonical form: addresses strictly rising, all within the 16 registers (R60). An unlisted address reads
as `⊥`, which no entry can hold. -/
def Memory.wf (m : Memory) : Bool := m.rising 0 && m.all fun c => c.1 < 16

/-! ### From bits to items (R67, R90, R134) -/

/-- A byte from its 8 bits, bit 0 first (R90). -/
def byteOfBits (bits : List Bool) : Byte :=
  bits.foldr (fun b acc => (acc <<< 1) ||| (if b then 1 else 0)) 0

/-- The level of an out bit. -/
def WireBit.outLevel : WireBit → Option Bool
  | .out b => some b
  | .inp _ => none
  | .unknown => none

/-- The level of an in bit. -/
def WireBit.inLevel : WireBit → Option Bool
  | .out _ => none
  | .inp b => some b
  | .unknown => none

/-- The item 8 bits make: all shifted out, all shifted in, or broken (R15, R160). -/
def itemOf (bits : List WireBit) : Item :=
  match bits.mapM WireBit.outLevel, bits.mapM WireBit.inLevel with
  | some bs, _ => .out (byteOfBits bs)
  | none, some bs => .inp (byteOfBits bs)
  | none, none => .broken

/-- The items of a closed window: its bits, 8 at a time; a fraction of a byte is broken (R134). -/
def itemsOf (bits : List WireBit) : Window :=
  match bits with
  | [] => []
  | b0 :: b1 :: b2 :: b3 :: b4 :: b5 :: b6 :: b7 :: rest => itemOf [b0, b1, b2, b3, b4, b5, b6, b7] :: itemsOf rest
  | _ => [.broken]

/-! ### The classifier (R62 to R66) -/

/-- A window with no meaning: the sticky mark is set and every chip cell is `⊥` from then on (R65). -/
def Chip.markUndefined (_c : Chip) : Chip := ⟨[], none, none, true⟩

/-- The bytes of an all-`Out` list. -/
def outBytes (items : List Item) : Option (List Byte) :=
  match items with
  | [] => some []
  | .out b :: rest => (outBytes rest).map (b :: ·)
  | .inp _ :: _ => none
  | .broken :: _ => none

/-- A one-byte window: a data command, display control, or undefined (R62). -/
def Chip.command (c : Chip) (b : Byte) : Chip :=
  if b = cmdAutoByte then { c with mode := some .auto }
  else if b = cmdFixedByte then { c with mode := some .fixed }
  else if b = cmdReadByte then { c with mode := some .read }
  else if b.extractLsb' 4 4 = 0x8#4 then { c with dc := some (b.getLsbD 3, b.extractLsb' 0 3) }
  else c.markUndefined

/-- A data write of one or more bytes from relative address `p` (R63, R64). -/
def Chip.dataWrite (c : Chip) (p : Nat) (vs : List Byte) : Chip :=
  match c.mode with
  | some .fixed =>
    match vs with
    | [v] => { c with ram := c.ram.write p v }
    | _ => c.markUndefined
  | some .auto => if p + vs.length ≤ 16 then { c with ram := c.ram.writeBurst p vs } else c.markUndefined
  | some .read => c.markUndefined
  | none => c.markUndefined

/-- What a closed window does to the chip (R62); the first case that matches applies. Once the mark is set the
chip stays `⊥` (R65). -/
def Chip.observe (cfg : Config) (w : Window) (c : Chip) : Chip :=
  if c.undefined then c else
  match w with
  | [.out b] => c.command b
  | [.inp _, .inp _, .inp _, .inp _] => if c.mode = some .read then c else c.markUndefined
  | .out a :: rest =>
    match isAddrByte cfg a, outBytes rest with
    | true, some vs => c.dataWrite (relAddr cfg a) vs
    | _, _ => c.markUndefined
  | _ => c.markUndefined

end Sys2Proof.Machine
end

