-- ==== Sys2Proof/Machine/Ops.lean ====
section
/-! DEFINITION. The named operations on the state: wire primitives on the bound pins, scratch registers, preconditions,
completion, and the performance of one action (R12, R13, R26, R133, R263). -/

namespace Sys2Proof.Machine

/-! ### Fault marks and pins -/

/-- Set the sticky mark `TRANSPORT_MISUSE` (R309). -/
def State.misused (s : State) : State := { s with bus := { s.bus with misuse := true } }

/-- Set it where `b` holds. -/
def State.misusedIf (s : State) (b : Bool) : State := if b then s.misused else s

/-- The pin a line is bound to, as every wire primitive reads it (R21). -/
def Bus.pin (u : Bus) : Line → Option Nat
  | .clk => u.pinClk
  | .dio => u.pinDio
  | .stb => u.pinStb

/-- Whether the precondition of a wire action holds (R130, R131, R160). -/
def State.meets (s : State) : Check → Bool
  | .none => true
  | .windowEntry => s.lockOwner.isSome && decide (s.bus.lvlStb = some true)
  | .shiftOut => s.lockOwner.isSome && decide (s.bus.dioDir = .driving) && decide (s.bus.lvlStb = some false)
  | .shiftIn => s.lockOwner.isSome && decide (s.bus.dioDir = .listening) && decide (s.bus.lvlStb = some false)

/-- Set the mark where a precondition fails, and go on: the mark is sticky and voids every claim (R309). -/
def State.checked (s : State) (chk : Check) : State := if s.meets chk then s else s.misused

/-! ### The wire primitives (R13) -/

/-- The bit DIO carries at a clock pulse while the block drives it (R130). -/
def Bus.outBit (u : Bus) : WireBit :=
  match u.lvlDio with
  | some b => .out b
  | none => .unknown

/-- The open window after `SetLevel(PIN_CLK, b)`: CLK set high while DIO is driven moves one bit. The observer
takes the bit from the action, whether or not the line makes an edge (R340, assumption 7). -/
def Bus.clocked (u : Bus) (b : Bool) : Option (List WireBit) :=
  match b, u.dioDir with
  | true, .driving => u.win.map (· ++ [u.outBit])
  | _, _ => u.win

/-- `SetLevel` on the wire: the level last driven (R26), the open window (R15), and one trace event (R13). -/
def Bus.setLevel (u : Bus) (line : Line) (pin : Nat) (b : Bool) : Bus :=
  match line, b with
  | .clk, b => { u with lvlClk := some b, win := u.clocked b, log := .setLevel .clk pin b :: u.log }
  | .dio, b => { u with lvlDio := some b, log := .setLevel .dio pin b :: u.log }
  | .stb, false =>
    { u with lvlStb := some false, win := some (u.win.getD []), log := .setLevel .stb pin false :: u.log }
  | .stb, true =>
    { u with lvlStb := some true, win := none, log := .setLevel .stb pin true :: u.log,
             trace := (u.win.map itemsOf).toList ++ u.trace }

/-- A window takes effect on the chip when its STB rises (R71, D35). -/
def State.chipAfter (s : State) (line : Line) (b : Bool) : Chip :=
  match line, b, s.bus.win with
  | .stb, true, some bits => s.chip.observe s.cfg (itemsOf bits)
  | _, _, _ => s.chip

/-- `SetDir` on the wire (R133). A pin set to output takes the level `fresh` the GPIO driver gives it, until a
`SetLevel` drives it (R346). Only DIO's direction is state; CLK and STB are outputs for the life of the block. -/
def Bus.setDir (u : Bus) (line : Line) (pin : Nat) (d : PinDir) (fresh : Bool) : Bus :=
  match line, d with
  | .dio, .out =>
    { u with dioDir := .driving, lvlDio := none, freshDio := some fresh, log := .setDir .dio pin .out :: u.log }
  | .dio, .inp => { u with dioDir := .listening, log := .setDir .dio pin .inp :: u.log }
  | .clk, .out => { u with freshClk := some fresh, log := .setDir .clk pin .out :: u.log }
  | .clk, .inp => { u with log := .setDir .clk pin .inp :: u.log }
  | .stb, .out => { u with freshStb := some fresh, log := .setDir .stb pin .out :: u.log }
  | .stb, .inp => { u with log := .setDir .stb pin .inp :: u.log }

/-- How many levels of a fresh output a `SetDir` draws. -/
def freshTaken : PinDir → Nat
  | .out => 1
  | .inp => 0

/-- The level the block puts on a line: the level last driven, or the draw of a fresh output while nothing has been
driven since (R26, R346); none while DIO listens, or where the pin was never an output. -/
def Bus.level (u : Bus) : Line → Option Bool
  | .clk => u.lvlClk.or u.freshClk
  | .dio => if u.dioDir = .driving then u.lvlDio.or u.freshDio else none
  | .stb => u.lvlStb.or u.freshStb

/-- `GetLevel(PIN_DIO)` on the wire: one in bit of the open window (R131). -/
def Bus.getLevel (u : Bus) (pin : Nat) (b : Bool) : Bus :=
  { u with win := u.win.map (· ++ [.inp b]), log := .getLevel .dio pin b :: u.log }

/-- `DelayUs(t)`: an event with its lower bound (R135). -/
def Bus.delay (u : Bus) (t : Nat) : Bus := { u with log := .delayUs t :: u.log }

/-! ### The scratch registers (R33) -/

/-- Write one bit of a byte. -/
def setBit (v : Byte) (i : Nat) (b : Bool) : Byte :=
  if b then v ||| (1#8 <<< i) else v &&& ~~~(1#8 <<< i)

/-- `v <- 0x00` before the byte's first sample, then `v[i] <- b` (R131). -/
def sampleInto (v : Byte) (i : Nat) (clears b : Bool) : Byte := setBit (if clears then 0 else v) i b

/-- The byte `SCAN[i]` sampled into; there are four (R33). -/
def Scan.sample (s : Scan) (byte bit : Nat) (clears b : Bool) : Scan :=
  match byte with
  | 0 => { s with b0 := sampleInto s.b0 bit clears b }
  | 1 => { s with b1 := sampleInto s.b1 bit clears b }
  | 2 => { s with b2 := sampleInto s.b2 bit clears b }
  | 3 => { s with b3 := sampleInto s.b3 bit clears b }
  | _ => s

/-- The level a sample returns: the given one, or the next draw of the scan oracle (R66). -/
def State.sampled (s : State) (given : Option Bool) : Bool := given.getD (Config.scanLevel s.draws)

/-- How many draws a sample takes. -/
def drawsTaken (given : Option Bool) : Nat := if given.isSome then 0 else 1

/-! ### Performing an action (R263) -/

/-- One wire primitive. On an unbound pin it has no meaning (R294, D5): nothing happens on the wire and the mark
is set (assumption 8). A sample's bit goes into `SCAN` at the sample itself, the first one of a byte clearing it:
R131 and R164 assign the whole byte at its end and leave open what `SCAN` holds in between (DESIGN CHOICE,
assumption 28). -/
def State.prim (s : State) (p : Prim) : State :=
  match p with
  | .setLevel line b =>
    match s.bus.pin line with
    | some pin => { s with bus := s.bus.setLevel line pin b, chip := s.chipAfter line b }
    | none => s.misused
  | .setDir line d =>
    match s.bus.pin line with
    | some pin =>
      { s with bus := s.bus.setDir line pin d (Config.freshLevel s.outs), outs := s.outs + freshTaken d }
    | none => s.misused
  | .delayUs t => { s with bus := s.bus.delay t }
  | .sample given byte bit clears =>
    match s.bus.pin .dio with
    | some pin =>
      { s with bus := s.bus.getLevel pin (s.sampled given),
               scan := s.scan.sample byte bit clears (s.sampled given),
               draws := s.draws + drawsTaken given }
    | none => s.misused

/-- The byte a completion returns (R12, R241, R242). -/
def State.result (s : State) : Result → Byte
  | .zero => 0
  | .mask => s.mask
  | .maskBit k => maskBit s.mask k

/-- `complete(data)`: the operation ends with `OK` and the result byte (R12). -/
def State.completed (s : State) (data : Byte) : State := { s with resp := ⟨.ok, data⟩ }

/-- `raise Status(code)`: the one shared way an operation ends in error. It records the status with `DATA` = 0 and
nothing else: no state is saved, no mode changes, no vector is taken (R290, R297, R301, R104). -/
def State.raised (s : State) (status : Status) : State := { s with resp := ⟨status, 0⟩ }

/-- Perform one action (R263). -/
def State.perform (s : State) (a : Action) : State :=
  match a with
  | .wire chk p => (s.checked chk).prim p
  | .bindPins =>
    { s with bus := { s.bus with pinClk := some s.cfg.pinClk, pinDio := some s.cfg.pinDio,
                                 pinStb := some s.cfg.pinStb } }
  | .writeDioDriving => { s with bus := { s.bus with dioDir := .driving } }
  | .writeBrightness level => { s with brightness := level }
  | .writeIsOn on => { s with isOn := on }
  | .writeInitDone => { s with initDone := true }
  | .foldMask => { s with mask := fold s.scan }
  | .complete r => s.completed (s.result r)
  | .raise status => s.raised status

/-- Perform a list of actions in order. -/
def State.performAll (s : State) (actions : List Action) : State :=
  match actions with
  | [] => s
  | a :: rest => (s.perform a).performAll rest

/-- `SEQ` after `n` actions of its list (R263). -/
def Seq.advance (q : Seq) (n : Nat) : Seq :=
  match q with
  | .idle => .idle
  | .run c req k todo => .run c req (k + n) (todo.drop n)

/-- An operation at the request level: its whole action list, performed for the caller that holds the lock, with
`SEQ` moved past it (R7, R263). -/
def runOperation (actions : List Action) (s : State) : Host.Outcome State Fault Refusal :=
  .next { s.performAll actions with seq := s.seq.advance actions.length }

/-- Bytes on the wire that are no operation of the sequencer's: the actions, with `SEQ` where it was. -/
def runOnWire (actions : List Action) (s : State) : Host.Outcome State Fault Refusal :=
  .next (s.performAll actions)

/-- `require_init` (R294): the actions of an operation other than `init`, or its refusal. -/
def requireInit (s : State) (actions : List Action) : List Action :=
  if s.initDone then actions else [.raise .eNoinit]

/-- An operand check (R292), after `require_init` and before any wire action (R296, R347). -/
def requireRange (inRange : Bool) (actions : List Action) : List Action :=
  if inRange then actions else [.raise .eRange]

/-! ### Reading the traces (R7) -/

/-- The wire trace, oldest event first (R13). -/
def State.wireTrace (s : State) : List Event := s.bus.log.reverse

/-- The transaction trace, oldest window first (R15). -/
def State.transactions (s : State) : List Window := s.bus.trace.reverse

/-- The least time the delays of a trace take, in microseconds (R135, R344). -/
def minMicros (events : List Event) : Nat :=
  match events with
  | [] => 0
  | .delayUs t :: rest => t + minMicros rest
  | .setLevel _ _ _ :: rest => minMicros rest
  | .setDir _ _ _ :: rest => minMicros rest
  | .getLevel _ _ _ :: rest => minMicros rest

end Sys2Proof.Machine
end

