-- ==== Sys2Proof/Machine/Transport.lean ====
section
/-! DEFINITION. The bit-level transport (R130 to R136): the action lists of `shift_out` and `shift_in`. -/

namespace Sys2Proof.Machine

/-- The order argument of the transport; the protocol always passes LSB (R132, D24). -/
inductive BitOrder where
  | lsb
  | msb
deriving DecidableEq, Repr

/-- The bit that moves at time `j` of a byte: `j` for LSB, `7 - j` for MSB (R130, R131). -/
def bitIndex (order : BitOrder) (j : Nat) : Nat :=
  match order with
  | .lsb => j
  | .msb => 7 - j

/-- One clock pulse, high then low, each with its minimum time (R130, R135). -/
def clockPulse (cfg : Config) : List Action :=
  [.wire .none (.setLevel .clk true), .wire .none (.delayUs cfg.tHigh),
   .wire .none (.setLevel .clk false), .wire .none (.delayUs cfg.tLow)]

/-- Drive DIO to one bit and pulse the clock: 5 actions (R130). -/
def shiftOutBit (cfg : Config) (b : Bool) : List Action :=
  .wire .shiftOut (.setLevel .dio b) :: clockPulse cfg

/-- Sample DIO and pulse the clock: 5 actions (R131). -/
def shiftInBit (cfg : Config) (given : Option Bool) (byte bit : Nat) (clears : Bool) : List Action :=
  .wire .shiftIn (.sample given byte bit clears) :: clockPulse cfg

/-- The eight times of a byte, in order. -/
def bitTimes : List Nat := [0, 1, 2, 3, 4, 5, 6, 7]

/-- `shift_out(order, byte)`: 40 actions for every byte (R130). -/
def shiftOut (cfg : Config) (order : BitOrder) (b : Byte) : List Action :=
  bitTimes.flatMap fun j => shiftOutBit cfg (b.getLsbD (bitIndex order j))

/-- `shift_in(order)` into `SCAN[byte]`; `given` are the levels another driver of the wire supplies, none for the
scan oracle (R131, R66). -/
def shiftIn (cfg : Config) (order : BitOrder) (given : Option Byte) (byte : Nat) : List Action :=
  bitTimes.flatMap fun j =>
    shiftInBit cfg (given.map fun v => v.getLsbD (bitIndex order j)) byte (bitIndex order j) (j == 0)

end Sys2Proof.Machine
end

