-- ==== Sys2Proof/Machine/Protocol.lean ====
section
/-! DEFINITION. The protocol encoder (R160 to R166): strobe windows and the internal sequences, as action lists. -/

namespace Sys2Proof.Machine

/-- STB falls; a setup delay follows where `T_STB_SETUP > 0` (R160, D15). -/
def openWindow (cfg : Config) : List Action :=
  .wire .windowEntry (.setLevel .stb false) ::
    (if 0 < cfg.tStbSetup then [.wire .none (.delayUs cfg.tStbSetup)] else [])

/-- STB rises, and the settle delay follows (R160, R338). -/
def closeWindow (cfg : Config) : List Action :=
  [.wire .none (.setLevel .stb true), .wire .none (.delayUs cfg.tSettle)]

/-- `window(items)` for an all-`Out` window (R160). -/
def outWindow (cfg : Config) (bytes : List Byte) : List Action :=
  openWindow cfg ++ bytes.flatMap (shiftOut cfg .lsb) ++ closeWindow cfg

/-- `emit_dc()` for the display state given (R161). -/
def emitDc (cfg : Config) (on : Bool) (level : BitVec 3) : List Action := outWindow cfg [dcByte on level]

/-- `write_single(p, v)`: display control, mode select, then the address and data pair (R162). -/
def writeSingle (cfg : Config) (on : Bool) (level : BitVec 3) (p : Nat) (v : Byte) : List Action :=
  emitDc cfg on level ++ outWindow cfg [cmdFixedByte] ++ outWindow cfg [addrByte cfg p, v]

/-- `write_burst(p, vs)`: display control, mode select, then the address and all data in one window (R163). -/
def writeBurst (cfg : Config) (on : Bool) (level : BitVec 3) (p : Nat) (vs : List Byte) : List Action :=
  emitDc cfg on level ++ outWindow cfg [cmdAutoByte] ++ outWindow cfg (addrByte cfg p :: vs)

/-- The read window opens: STB falls, then DIO turns to input (R164). -/
def openReadWindow (cfg : Config) : List Action :=
  openWindow cfg ++ [.wire .none (.setDir .dio .inp)]

/-- The read window closes: DIO turns back to output before STB rises (R164). -/
def closeReadWindow (cfg : Config) : List Action :=
  .wire .none (.setDir .dio .out) :: closeWindow cfg

/-- `read_scan()`: the command in a window of its own, then four bytes in (R164). -/
def readScan (cfg : Config) : List Action :=
  outWindow cfg [cmdReadByte] ++ openReadWindow cfg ++
    [0, 1, 2, 3].flatMap (shiftIn cfg .lsb none) ++ closeReadWindow cfg

end Sys2Proof.Machine
end

