-- ==== Sys2Proof/Machine/Buttons.lean ====
section
/-! DEFINITION. The button scanner's operations (R241, R242); the fold is in Flags.lean. -/

namespace Sys2Proof.Machine

/-- `get_buttons` (R241). -/
def getButtonsActions (s : State) : List Action :=
  requireInit s (readScan s.cfg ++ [.foldMask, .complete .mask])

/-- `get_button k` (R242): the scan and the bit select in one lock hold. -/
def getButtonActions (k : Byte) (s : State) : List Action :=
  requireInit s (requireRange (keyInRange k) (readScan s.cfg ++ [.foldMask, .complete (.maskBit k.toNat)]))

/-- `get_buttons` (R241). -/
def execGetButtons (s : State) : Host.Outcome State Fault Refusal := runOperation (getButtonsActions s) s

/-- `get_button` (R242). -/
def execGetButton (k : Byte) (s : State) : Host.Outcome State Fault Refusal :=
  runOperation (getButtonActions k s) s

end Sys2Proof.Machine
end

