-- ==== Sys2Proof/Machine/Display.lean ====
section
/-! DEFINITION. Initialisation, and the digit, LED, display-control and whole-display operations (R193 to R203): each
operation's action list, built from the state at acceptance (R27, R262), and its meaning. -/

namespace Sys2Proof.Machine

/-- `write_single` with the display state of `s` (R162). -/
def writeSingleNow (s : State) (p : Nat) (v : Byte) : List Action :=
  writeSingle s.cfg s.isOn s.brightness p v

/-- `write_burst` with the display state of `s` (R163). -/
def writeBurstNow (s : State) (p : Nat) (vs : List Byte) : List Action :=
  writeBurst s.cfg s.isOn s.brightness p vs

/-! ### The action lists -/

/-- `init` (R193): bind, directions, levels, then the registers. -/
def initActions (s : State) : List Action :=
  if s.initDone then [.raise .eReinit] else
    [.bindPins,
     .wire .none (.setDir .clk .out), .wire .none (.setDir .dio .out), .wire .none (.setDir .stb .out),
     .wire .none (.setLevel .clk true), .wire .none (.setLevel .dio true), .wire .none (.setLevel .stb true),
     .writeDioDriving, .writeBrightness 0, .writeIsOn false, .writeInitDone, .complete .zero]

/-- `display_val d, h` (R194). -/
def displayValActions (d h : Byte) (s : State) : List Action :=
  requireInit s (requireRange (digitInRange d && hexInRange h)
    (writeSingleNow s (digitAddr d.toNat) (segEncode s.cfg h.toNat) ++ [.complete .zero]))

/-- `display_dig d, pat` (R195). -/
def displayDigActions (d pat : Byte) (s : State) : List Action :=
  requireInit s (requireRange (digitInRange d)
    (writeSingleNow s (digitAddr d.toNat) pat ++ [.complete .zero]))

/-- `display_clear` (R196): digits 0 to 7 in order (D18). -/
def displayClearActions (s : State) : List Action :=
  requireInit s
    ([0, 1, 2, 3, 4, 5, 6, 7].flatMap (fun d => writeSingleNow s (digitAddr d) 0x00) ++ [.complete .zero])

/-- `write_led n, s` (R197). -/
def writeLedActions (n st : Byte) (s : State) : List Action :=
  requireInit s (requireRange (ledInRange n)
    (writeSingleNow s (ledAddr n.toNat) (boolByte (ledState st)) ++ [.complete .zero]))

/-- `write_leds m` (R198): LED 1 first, with bit 0. -/
def writeLedsActions (m : Byte) (s : State) : List Action :=
  requireInit s
    ([0, 1, 2, 3, 4, 5, 6, 7].flatMap (fun i => writeSingleNow s (ledAddr (i + 1)) (boolByte (m.getLsbD i))) ++
      [.complete .zero])

/-- `display_turn_on` (R199). -/
def displayTurnOnActions (s : State) : List Action :=
  requireInit s (.writeIsOn true :: (emitDc s.cfg true s.brightness ++ [.complete .zero]))

/-- `display_turn_off` (R200). -/
def displayTurnOffActions (s : State) : List Action :=
  requireInit s (.writeIsOn false :: (emitDc s.cfg false s.brightness ++ [.complete .zero]))

/-- `display_set_brightness l` (R201). -/
def displaySetBrightnessActions (l : Byte) (s : State) : List Action :=
  requireInit s (requireRange (levelInRange l)
    (.writeBrightness (levelBits l) :: (emitDc s.cfg s.isOn (levelBits l) ++ [.complete .zero])))

/-- `reset` (R202): 16 zero bytes in one burst. -/
def resetActions (s : State) : List Action :=
  requireInit s (writeBurstNow s 0 (List.replicate 16 0x00) ++ [.complete .zero])

/-- `test` (R203): each frame in one burst, then its hold. -/
def testActions (s : State) : List Action :=
  requireInit s
    (s.cfg.selfTestFrames.flatMap (fun f => writeBurstNow s 0 f ++ [.wire .none (.delayUs s.cfg.tTestHold)]) ++
      [.complete .zero])

/-! ### The meanings -/

/-- `init` (R193). -/
def execInit (s : State) : Host.Outcome State Fault Refusal := runOperation (initActions s) s

/-- `display_val` (R194). -/
def execDisplayVal (d h : Byte) (s : State) : Host.Outcome State Fault Refusal :=
  runOperation (displayValActions d h s) s

/-- `display_dig` (R195). -/
def execDisplayDig (d pat : Byte) (s : State) : Host.Outcome State Fault Refusal :=
  runOperation (displayDigActions d pat s) s

/-- `display_clear` (R196). -/
def execDisplayClear (s : State) : Host.Outcome State Fault Refusal := runOperation (displayClearActions s) s

/-- `write_led` (R197). -/
def execWriteLed (n st : Byte) (s : State) : Host.Outcome State Fault Refusal :=
  runOperation (writeLedActions n st s) s

/-- `write_leds` (R198). -/
def execWriteLeds (m : Byte) (s : State) : Host.Outcome State Fault Refusal :=
  runOperation (writeLedsActions m s) s

/-- `display_turn_on` (R199). -/
def execDisplayTurnOn (s : State) : Host.Outcome State Fault Refusal := runOperation (displayTurnOnActions s) s

/-- `display_turn_off` (R200). -/
def execDisplayTurnOff (s : State) : Host.Outcome State Fault Refusal := runOperation (displayTurnOffActions s) s

/-- `display_set_brightness` (R201). -/
def execDisplaySetBrightness (l : Byte) (s : State) : Host.Outcome State Fault Refusal :=
  runOperation (displaySetBrightnessActions l s) s

/-- `reset` (R202): it clears the chip's display registers and does not reset the block. -/
def execReset (s : State) : Host.Outcome State Fault Refusal := runOperation (resetActions s) s

/-- `test` (R203). -/
def execTest (s : State) : Host.Outcome State Fault Refusal := runOperation (testActions s) s

end Sys2Proof.Machine
end

