-- ==== Sys2Proof/Machine/Guard.lean ====
section
/-! DEFINITION. The concurrency guard and the request sequencing (R260 to R269): issue, acquire, execute, release,
collect. -/

namespace Sys2Proof.Machine

/-- The action list of a request operation (R27); a wire byte is no request (R106). -/
def requestProgram (i : Instr) (s : State) : List Action :=
  match i with
  | .init => initActions s
  | .displayVal d h => displayValActions d h s
  | .displayDig d v => displayDigActions d v s
  | .displayClear => displayClearActions s
  | .writeLed n st => writeLedActions n st s
  | .writeLeds m => writeLedsActions m s
  | .displayTurnOn => displayTurnOnActions s
  | .displayTurnOff => displayTurnOffActions s
  | .displaySetBrightness l => displaySetBrightnessActions l s
  | .reset => resetActions s
  | .test => testActions s
  | .getButtons => getButtonsActions s
  | .getButton k => getButtonActions k s
  | .cmdAuto | .cmdRead | .cmdFixed | .dctl _ _ | .addr _ | .data _ | .scanb _ => []

/-- The one-action list of an unknown `OP` (R262, R293). -/
def illegalActions : List Action := [.raise .eIllegal]

/-- The action list of a request word, decoded from `OP` and built from the state now (R262). -/
def requestActions (req : ReqWord) (s : State) : List Action :=
  match decodeRequest req with
  | .ok i => requestProgram i s
  | .error _ => illegalActions

/-- A request whose `OP` selects no operation (R293). -/
def execIllegal (s : State) : Host.Outcome State Fault Refusal := runOperation illegalActions s

/-! ### The guard's and the callers' steps -/

/-- `PORT[c] <- p` (R29). -/
def State.setPort (s : State) (c : Nat) (p : Port) : State := { s with ports := s.ports.set c p }

/-- Issue (R261). -/
def issue (c : Nat) (req : ReqWord) (s : State) : Host.Outcome State Fault Refusal :=
  match s.ports[c]? with
  | some .idle => .next (s.setPort c (.waiting req))
  | _ => .fault (.issueNotEnabled c)

/-- The state changes of an acquisition (R262). -/
def State.accepted (s : State) (c : Nat) (req : ReqWord) : State :=
  { s with lockOwner := some c, ports := s.ports.set c (.active req), seq := .run c req 0 (requestActions req s) }

/-- The request acquire may grant to caller `c`: the lock free, `SEQ` idle, the port waiting (R262). -/
def State.grantable (s : State) (c : Nat) : Option ReqWord :=
  match s.lockOwner, s.seq, s.ports[c]? with
  | none, .idle, some (.waiting req) => some req
  | _, _, _ => none

/-- Acquire for caller `c` (R262). -/
def acquire (c : Nat) (s : State) : Host.Outcome State Fault Refusal :=
  match s.grantable c with
  | some req => .next (s.accepted c req)
  | none => .fault (.acquireNotEnabled c)

/-- Execute: perform action `k`, and `SEQ <- RUN(c, req, k + 1)` (R263). -/
def State.executed (s : State) (c : Nat) (req : ReqWord) (k : Nat) (a : Action) (rest : List Action) : State :=
  { s.perform a with seq := .run c req (k + 1) rest }

/-- The release check: DIO driving and STB high (R264, R309). Before `init` a STB level that is unknown passes
(R330, assumption 10); a known one is checked as after it. -/
def State.releaseOk (s : State) : Bool :=
  decide (s.bus.dioDir = .driving) &&
    (decide (s.bus.lvlStb = some true) || (!s.initDone && decide (s.bus.lvlStb = none)))

/-- Release (R264): the response recorded by `complete` or `raise` goes to the port. -/
def State.released (s : State) (c : Nat) : State :=
  let s' := if s.releaseOk then s else s.misused
  { s' with ports := s'.ports.set c (.done s'.resp), seq := .idle, lockOwner := none }

/-- Collect: the caller receives its response (R265). -/
def collect (c : Nat) (s : State) : Host.Outcome State Fault Refusal :=
  match s.ports[c]? with
  | some (.done _) => .next (s.setPort c .idle)
  | _ => .fault (.collectNotEnabled c)

/-! ### Arbitration (R262) -/

/-- The callers waiting, in index order, from index `c` on. -/
def waitersFrom (c : Nat) (ports : List Port) : List Nat :=
  match ports with
  | [] => []
  | .waiting _ :: rest => c :: waitersFrom (c + 1) rest
  | .idle :: rest => waitersFrom (c + 1) rest
  | .active _ :: rest => waitersFrom (c + 1) rest
  | .done _ :: rest => waitersFrom (c + 1) rest

/-- The callers waiting. -/
def State.waiters (s : State) : List Nat := waitersFrom 0 s.ports

/-- The guard's own choice among two or more waiters: the free value (R262, U15). -/
def State.arbitrated (s : State) (first : Nat) (rest : List Nat) : Nat :=
  (first :: rest).getD (Config.arbiter s.choices % (rest.length + 1)) first

/-- One step of the block's own agents: execute while the list has an action, release at its end, acquire when
somebody waits; with nothing to do, nothing happens (R262 to R264, R331). -/
def blockStep (s : State) : Host.Outcome State Fault Refusal :=
  match s.seq with
  | .run c req k (a :: rest) => .next (s.executed c req k a rest)
  | .run c _ _ [] => .next (s.released c)
  | .idle =>
    match s.lockOwner, s.waiters with
    | some _, _ => .next s
    | none, [] => .next s
    | none, [c] => acquire c s
    | none, c :: d :: rest => acquire (s.arbitrated c (d :: rest)) { s with choices := s.choices + 1 }

/-! ### A step of some agent (R6, R269) -/

/-- A step that an agent can make: the block's own, an issue by an idle caller, a collection by an answered one. -/
inductive Move where
  | block
  | issue (c : Nat)
  | collect (c : Nat)
deriving DecidableEq, Repr

/-- The steps the callers can make, in index order, from index `c` on (R261, R265). -/
def movesFrom (c : Nat) (ports : List Port) : List Move :=
  match ports with
  | [] => []
  | .idle :: rest => .issue c :: movesFrom (c + 1) rest
  | .done _ :: rest => .collect c :: movesFrom (c + 1) rest
  | .waiting _ :: rest => movesFrom (c + 1) rest
  | .active _ :: rest => movesFrom (c + 1) rest

/-- The steps that some agent can make. -/
def State.moves (s : State) : List Move := .block :: movesFrom 0 s.ports

/-- The one that is made: the free value. -/
def State.chosen (s : State) : Move := s.moves.getD (Config.agent s.choices % s.moves.length) .block

/-- Some agent's step. None is bound to come: the free values may choose others every time (R269, U16). -/
def agentStep (s : State) : Host.Outcome State Fault Refusal :=
  match s.chosen with
  | .block => blockStep { s with choices := s.choices + 1 }
  | .issue c => issue c (Config.request s.choices) { s with choices := s.choices + 1 }
  | .collect c => collect c { s with choices := s.choices + 1 }

end Sys2Proof.Machine
end

