-- ==== Sys2Proof/Machine/WireBytes.lean ====
section
/-! DEFINITION. The wire bytes of the opcode table as instructions of the wire (R91 to R97, R130, R131, R160, R164): the
transport actions that move the byte, at its position in a window. A command is a window of its own; an address opens a
data-write window; a data byte and a scan byte lie inside their window, whose effect on the chip comes when STB rises
(R71, D35; assumption 9). -/

namespace Sys2Proof.Machine

/-- `CMD_AUTO`, "sent alone in a window" (R92). -/
def cmdAutoActions (s : State) : List Action := outWindow s.cfg [cmdAutoByte]

/-- `CMD_READ`, "sent alone in a window" (R93). -/
def cmdReadActions (s : State) : List Action := outWindow s.cfg [cmdReadByte]

/-- `CMD_FIXED`, "sent alone in a window" (R94). -/
def cmdFixedActions (s : State) : List Action := outWindow s.cfg [cmdFixedByte]

/-- Display control, "always a window of its own" (R95, R161). -/
def dctlActions (on : Bool) (level : BitVec 3) (s : State) : List Action := emitDc s.cfg on level

/-- The address byte, the first byte of a data-write window: STB falls and the byte goes out (R91, R96). -/
def addrActions (p : BitVec 4) (s : State) : List Action :=
  openWindow s.cfg ++ shiftOut s.cfg .lsb (addrByte s.cfg p.toNat)

/-- A data byte, inside the open data-write window (R91, R97). -/
def dataActions (v : Byte) (s : State) : List Action := shiftOut s.cfg .lsb v

/-- How many whole bytes the open window holds. -/
def bytesInWindow (s : State) : Nat := (s.bus.win.getD []).length / 8

/-- A scan byte the chip drives: the first of a window opens it and turns DIO to input (R164); each is sampled into
the `SCAN` byte of its place in the window (R67, R131). -/
def scanbActions (v : Byte) (s : State) : List Action :=
  (if s.bus.win.isNone then openReadWindow s.cfg else []) ++ shiftIn s.cfg .lsb (some v) (bytesInWindow s)

/-- The end of the open window: DIO turns back to output where it listens, then STB rises (R160, R164). -/
def strobeActions (s : State) : List Action :=
  if s.bus.dioDir = .listening then closeReadWindow s.cfg else closeWindow s.cfg

/-- `CMD_AUTO` (R92). -/
def execCmdAuto (s : State) : Host.Outcome State Fault Refusal := runOnWire (cmdAutoActions s) s

/-- `CMD_READ` (R93). -/
def execCmdRead (s : State) : Host.Outcome State Fault Refusal := runOnWire (cmdReadActions s) s

/-- `CMD_FIXED` (R94). -/
def execCmdFixed (s : State) : Host.Outcome State Fault Refusal := runOnWire (cmdFixedActions s) s

/-- `DCTL` (R95). -/
def execDctl (on : Bool) (level : BitVec 3) (s : State) : Host.Outcome State Fault Refusal :=
  runOnWire (dctlActions on level s) s

/-- `ADDR` (R96). -/
def execAddr (p : BitVec 4) (s : State) : Host.Outcome State Fault Refusal := runOnWire (addrActions p s) s

/-- `DATA` (R97). -/
def execData (v : Byte) (s : State) : Host.Outcome State Fault Refusal := runOnWire (dataActions v s) s

/-- `SCANB` (R91). -/
def execScanb (v : Byte) (s : State) : Host.Outcome State Fault Refusal := runOnWire (scanbActions v s) s

/-- STB rises (R15). -/
def State.strobed (s : State) : State := s.performAll (strobeActions s)

/-- A byte with no meaning in command position, sent alone in a window (R99); the observer marks the window
undefined (R65). -/
def State.sentReserved (s : State) (b : Byte) : State := s.performAll (outWindow s.cfg [b])

end Sys2Proof.Machine
end

