-- ==== Sys2Proof/Machine/Dispatch.lean ====
section
/-! DEFINITION. One arm per instruction. A request arm is the whole operation at the request level, run for the caller
that holds the lock; a wire-byte arm moves that byte on the wire (R7). -/

namespace Sys2Proof.Machine

def exec (i : Instr) (s : State) : Host.Outcome State Fault Refusal :=
  match i with
  | .init => Sys2Proof.Machine.execInit s
  | .displayVal d h => Sys2Proof.Machine.execDisplayVal d h s
  | .displayDig d v => Sys2Proof.Machine.execDisplayDig d v s
  | .displayClear => Sys2Proof.Machine.execDisplayClear s
  | .writeLed n st => Sys2Proof.Machine.execWriteLed n st s
  | .writeLeds m => Sys2Proof.Machine.execWriteLeds m s
  | .displayTurnOn => Sys2Proof.Machine.execDisplayTurnOn s
  | .displayTurnOff => Sys2Proof.Machine.execDisplayTurnOff s
  | .displaySetBrightness l => Sys2Proof.Machine.execDisplaySetBrightness l s
  | .reset => Sys2Proof.Machine.execReset s
  | .test => Sys2Proof.Machine.execTest s
  | .getButtons => Sys2Proof.Machine.execGetButtons s
  | .getButton k => Sys2Proof.Machine.execGetButton k s
  | .cmdAuto => Sys2Proof.Machine.execCmdAuto s
  | .cmdRead => Sys2Proof.Machine.execCmdRead s
  | .cmdFixed => Sys2Proof.Machine.execCmdFixed s
  | .dctl on level => Sys2Proof.Machine.execDctl on level s
  | .addr p => Sys2Proof.Machine.execAddr p s
  | .data v => Sys2Proof.Machine.execData v s
  | .scanb v => Sys2Proof.Machine.execScanb v s

end Sys2Proof.Machine
end

