-- ==== Sys2Proof/Machine/Turns.lean ====
section
/-! DEFINITION. What each turn does: the moves of the callers, the guard, the sequencer, the wire and the power supply
(R6, R37, R261 to R265). -/

namespace Sys2Proof.Machine

/-- A request word at the request level: decode it and run its instruction's meaning; an unknown `OP` runs the
one-action list `raise Status(E_ILLEGAL)` (R262, R293). -/
def runRequest (req : ReqWord) (s : State) : Host.Outcome State Fault Refusal :=
  match decodeRequest req with
  | .ok i => exec i s
  | .error _ => execIllegal s

/-- Release after a request-level run (R264). -/
def releaseAfter (c : Nat) (o : Host.Outcome State Fault Refusal) : Host.Outcome State Fault Refusal :=
  match o with
  | .next t => .next (t.released c)
  | .fault f => .fault f
  | .refused r => .refused r

/-- A request from acquire to release in one step (R262 to R264). -/
def serve (c : Nat) (s : State) : Host.Outcome State Fault Refusal :=
  match s.grantable c with
  | some req => releaseAfter c (runRequest req (s.accepted c req))
  | none => .fault (.acquireNotEnabled c)

/-- A byte on the wire at a position: decode it and run its instruction's meaning; a reserved byte goes out alone
in a window, which the observer marks undefined (R65, R99). -/
def putOnWire (pos : WirePos) (b : Byte) (s : State) : Host.Outcome State Fault Refusal :=
  match decodeWire s.cfg pos b with
  | .ok i => exec i s
  | .error _ => .next (s.sentReserved b)

/-- Whether the sequencer runs an operation (R27). -/
def Seq.running : Seq → Bool
  | .idle => false
  | .run _ _ _ _ => true

/-- What a wire action from outside the sequencer meets: only the sequencer drives the pins (R267), so while it runs an
operation the lock is not held for that action, and the transport's precondition fails (R130, R309; assumption 29). -/
def State.intruded (s : State) : State := s.misusedIf s.seq.running

/-- Power loss: block and chip return to their power-up state (R37, R308, U29). The parameters and straps stay, no
sticky mark is cleared (R309), and the free-value counters go on, so that later draws are fresh. -/
def State.powerLost (s : State) : State :=
  { State.powerUp s.cfg with
      bus := { Bus.powerUp with misuse := s.bus.misuse }
      chip := { Chip.powerUp with undefined := s.chip.undefined }
      turns := s.turns
      later := s.later
      draws := s.draws
      outs := s.outs
      choices := s.choices }

/-- One turn. -/
def takeTurn (t : Turn) (s : State) : Host.Outcome State Fault Refusal :=
  match t with
  | .issue c req => issue c req s
  | .acquire c => acquire c s
  | .block => blockStep s
  | .serve c => serve c s
  | .collect c => collect c s
  | .wire pos b => putOnWire pos b s.intruded
  | .strobe => .next s.intruded.strobed
  | .powerLoss => .next s.powerLost
  | .agent => agentStep s

/-- The next turn: the turns to come, then the later ones in a circle; with none at all the block moves on its own. So a run
without end may be any repetition, fair to a waiting caller or not, and with `agent` in it any run of the agents (R269, U16,
assumption 30). -/
def nextTurn (s : State) : Turn × List Turn :=
  match s.turns, s.later with
  | t :: rest, _ => (t, rest)
  | [], t :: rest => (t, rest)
  | [], [] => (.block, [])

/-! ### Placing an instruction where the next step runs it -/

/-- `PORT[0] <- WAITING(req)`, with a port 0 made where the list has none. -/
def waitingAtPortZero (req : ReqWord) (ports : List Port) : List Port :=
  match ports with
  | [] => [.waiting req]
  | _ :: rest => .waiting req :: rest

/-- Caller 0 waits with the request, the lock is free and `SEQ` idle, and the next turn serves caller 0. -/
def State.withRequest (s : State) (req : ReqWord) : State :=
  { s with ports := waitingAtPortZero req s.ports, lockOwner := none, seq := .idle, turns := .serve 0 :: s.turns }

/-- The position at which an 8-bit table word is read (assumption 4). -/
def tablePos (cfg : Config) (b : Byte) : WirePos :=
  match decodeFirst cfg b with
  | .ok _ => .first
  | .error _ => .later

/-- The bits of one byte shifted out. -/
def bitsOut (b : Byte) : List WireBit := bitTimes.map fun j => .out (b.getLsbD j)

/-- The bus as the transport's preconditions ask for it at that position (R130, R160): pins bound, DIO driving, and
STB high with no window, or STB low with a window that an address byte has opened. -/
def Bus.readyFor (u : Bus) (cfg : Config) (pos : WirePos) : Bus :=
  let bound := { u with pinClk := some (u.pinClk.getD cfg.pinClk), pinDio := some (u.pinDio.getD cfg.pinDio),
                        pinStb := some (u.pinStb.getD cfg.pinStb), dioDir := .driving }
  match pos with
  | .first => { bound with lvlStb := some true, win := none }
  | .later => { bound with lvlStb := some false, win := some (u.win.getD (bitsOut (addrByte cfg 0))) }
  | .scan => { bound with lvlStb := some true, win := none }

/-- The byte is the next turn, on a bus that can carry it, under a held lock, with no operation running (R130,
R267). -/
def State.withWireByte (s : State) (b : Byte) : State :=
  { s with bus := s.bus.readyFor s.cfg (tablePos s.cfg b), lockOwner := some (s.lockOwner.getD 0), seq := .idle,
           turns := .wire (tablePos s.cfg b) b :: s.turns }

end Sys2Proof.Machine
end

