-- ==== Sys2Proof/Machine/Step.lean ====
section
/-! DEFINITION. One step of the machine: the next turn, taken. -/

namespace Sys2Proof.Machine

/-- One step: the turn that comes next leaves the list and is taken; with none listed the block makes a step of
its own (R6, R263). -/
def step (s : State) : Host.Outcome State Fault Refusal :=
  takeTurn (nextTurn s).1 { s with turns := (nextTurn s).2 }

/-- The state with a table word placed where the next step runs it: a 24-bit request waiting at port 0 and about
to be served, or an 8-bit byte about to go on the wire (assumption 4). -/
def State.withFetchWord (s : State) (nbits w : Nat) : State :=
  if nbits = 24 then s.withRequest (BitVec.ofNat 24 w)
  else if nbits = 8 then s.withWireByte (BitVec.ofNat 8 w)
  else s

end Sys2Proof.Machine
end

