-- ==== Sys2Proof/Safety.lean ====
section
/-! DEFINITION. What counts as a sound state and a safe run, in the terms the statements use. -/

namespace Sys2Proof.Machine

/-! ### States in which an operation may use the wire -/

/-- The pins are the configuration inputs that `init` bound (R21, R193). -/
def State.pinsBound (s : State) : Prop :=
  s.bus.pinClk = some s.cfg.pinClk ∧ s.bus.pinDio = some s.cfg.pinDio ∧ s.bus.pinStb = some s.cfg.pinStb

/-- No fault mark is set: the premise every claim takes (R309). -/
def State.unmarked (s : State) : Prop := s.bus.misuse = false ∧ s.chip.undefined = false

/-- Between windows, with the lock held: the pins bound, DIO driving, STB high, no window open (R25, R26, R160). -/
structure State.Between (s : State) : Prop where
  locked : s.lockOwner ≠ none
  pins : s.pinsBound
  driving : s.bus.dioDir = .driving
  strobeHigh : s.bus.lvlStb = some true
  noWindow : s.bus.win = none

/-- Between windows, with the parameters admitted and no mark set: where every operation after `init` starts
(R9, R260, R309). -/
structure State.Ready (s : State) : Prop extends State.Between s where
  admitted : s.cfg.admitted = true
  unmarked : s.unmarked

/-- Inside an open window that holds the bits `bits`, with the block driving DIO (R130). -/
structure State.InOutWindow (s : State) (bits : List WireBit) : Prop where
  locked : s.lockOwner ≠ none
  pins : s.pinsBound
  driving : s.bus.dioDir = .driving
  strobeLow : s.bus.lvlStb = some false
  window : s.bus.win = some bits

/-- Inside an open window that holds the bits `bits`, with DIO listening (R131). -/
structure State.InReadWindow (s : State) (bits : List WireBit) : Prop where
  locked : s.lockOwner ≠ none
  pins : s.pinsBound
  listening : s.bus.dioDir = .listening
  strobeLow : s.bus.lvlStb = some false
  window : s.bus.win = some bits

/-! ### The wire events the rules list (R130, R131, R160, R164), oldest first -/

/-- The events of one clock pulse (R130). -/
def pulseEvents (cfg : Config) : List Event :=
  [.setLevel .clk cfg.pinClk true, .delayUs cfg.tHigh, .setLevel .clk cfg.pinClk false, .delayUs cfg.tLow]

/-- `shift_out(LSB, b)`: each bit driven, bit 0 first, then pulsed (R130). -/
def byteOutEvents (cfg : Config) (b : Byte) : List Event :=
  (List.range 8).flatMap fun j => .setLevel .dio cfg.pinDio (b.getLsbD j) :: pulseEvents cfg

/-- `shift_in(LSB)` where the sampled byte is `b`: each bit sampled, bit 0 first, then pulsed (R131). -/
def byteInEvents (cfg : Config) (b : Byte) : List Event :=
  (List.range 8).flatMap fun j => .getLevel .dio cfg.pinDio (b.getLsbD j) :: pulseEvents cfg

/-- STB falls; the setup delay follows where it is not 0 (R160). -/
def openEvents (cfg : Config) : List Event :=
  .setLevel .stb cfg.pinStb false :: (if 0 < cfg.tStbSetup then [.delayUs cfg.tStbSetup] else [])

/-- STB rises and the settle delay follows (R160). -/
def closeEvents (cfg : Config) : List Event := [.setLevel .stb cfg.pinStb true, .delayUs cfg.tSettle]

/-- The events of an all-`Out` window (R160). -/
def outWindowEvents (cfg : Config) (bytes : List Byte) : List Event :=
  openEvents cfg ++ bytes.flatMap (byteOutEvents cfg) ++ closeEvents cfg

/-- The events of the read window that brings in `bytes` (R164). -/
def readWindowEvents (cfg : Config) (bytes : List Byte) : List Event :=
  openEvents cfg ++ .setDir .dio cfg.pinDio .inp :: bytes.flatMap (byteInEvents cfg) ++
    .setDir .dio cfg.pinDio .out :: closeEvents cfg

/-! ### Windows -/

/-- An all-`Out` window. -/
def outW (bytes : List Byte) : Window := bytes.map .out

/-- The three windows of `write_single`, oldest first (R162). -/
def singleWindows (cfg : Config) (on : Bool) (level : BitVec 3) (p : Nat) (v : Byte) : List (List Byte) :=
  [[dcByte on level], [0x44], [addrByte cfg p, v]]

/-- The three windows of `write_burst`, oldest first (R163). -/
def burstWindows (cfg : Config) (on : Bool) (level : BitVec 3) (p : Nat) (vs : List Byte) : List (List Byte) :=
  [[dcByte on level], [0x40], addrByte cfg p :: vs]

/-- The byte the oracle's draws from number `n` on make, first draw in bit 0 (R66). -/
def drawnByte (n : Nat) : Byte :=
  byteOfBits ((List.range 8).map fun j => Config.scanLevel (n + j))

/-- The four scan bytes of the draws from number `n` on (R66). -/
def drawnScan (n : Nat) : Scan := ⟨drawnByte n, drawnByte (n + 8), drawnByte (n + 16), drawnByte (n + 24)⟩

/-! ### What an operation does to the bus -/

/-- From `s` to `t` the wire carried exactly the all-`Out` windows `ws`, in order, and nothing else: their events
on the wire trace, the windows on the transaction trace, CLK low, DIO at the last bit of `lastByte`, STB high
again, and every other part of the bus as before (R160, R136, R332). -/
structure Sent (s t : State) (ws : List (List Byte)) (lastByte : Byte) : Prop where
  bus : t.bus = { s.bus with
    lvlClk := some false, lvlDio := some (lastByte.getLsbD 7), log := t.bus.log,
    trace := (ws.map outW).reverse ++ s.bus.trace }
  events : t.wireTrace = s.wireTrace ++ ws.flatMap (outWindowEvents s.cfg)

/-- One action more in every window where there is a setup delay (R160, R165). -/
def setupActions (cfg : Config) : Nat := if 0 < cfg.tStbSetup then 1 else 0

/-- From `s` to `t` an operation of `n` actions completed with `(OK, 0)`, and only the bus, the chip, SEQ and the
response changed: no block register, no port, no lock, no scratch register, no turn (R194 to R203, "No block
register"). -/
def CompletedWithBlockKept (s t : State) (n : Nat) : Prop :=
  t = { s with bus := t.bus, chip := t.chip, seq := s.seq.advance n, resp := ⟨.ok, 0⟩ }

/-- The chip took one `write_single(p, v)`: register `p` holds `v`, every other register what it held, the mode is
FIXED and the display-control latch is the block's state (R162, R62, R63). -/
structure ChipWroteOne (s t : State) (p : Nat) (v : Byte) : Prop where
  cells : ∀ a : Nat, t.chip.ram.read a = if a = p then some v else s.chip.ram.read a
  mode : t.chip.mode = some .fixed
  latch : t.chip.dc = some (s.isOn, s.brightness)
  unmarked : t.chip.undefined = false

/-- Only the response changed, and SEQ moved past one action: a refusal, with no wire action and no register
written (R297). -/
def refusedWith (s : State) (status : Status) : State :=
  { s with resp := ⟨status, 0⟩, seq := s.seq.advance 1 }

/-- The windows that have a meaning for a chip in mode `mode`, as R62 lists them. -/
inductive Meaningful (cfg : Config) (mode : Option ChipMode) : Window → Prop where
  | auto : Meaningful cfg mode [.out 0x40]
  | fixed : Meaningful cfg mode [.out 0x44]
  | read : Meaningful cfg mode [.out 0x42]
  | control (c : Byte) (h : c.toNat / 16 = 8) : Meaningful cfg mode [.out c]
  | fixedWrite (a v : Byte) (hm : mode = some .fixed)
      (ha : cfg.addrBase.toNat ≤ a.toNat ∧ a.toNat ≤ cfg.addrBase.toNat + 15) :
      Meaningful cfg mode [.out a, .out v]
  | burst (a v : Byte) (vs : List Byte) (hm : mode = some .auto)
      (ha : cfg.addrBase.toNat ≤ a.toNat ∧ a.toNat ≤ cfg.addrBase.toNat + 15)
      (hk : a.toNat - cfg.addrBase.toNat + (v :: vs).length ≤ 16) :
      Meaningful cfg mode (outW (a :: v :: vs))
  | scan (b0 b1 b2 b3 : Byte) (hm : mode = some .read) :
      Meaningful cfg mode [.inp b0, .inp b1, .inp b2, .inp b3]

/-- The seven window forms the controller produces, with `k = 16` in every burst (R98, R99). -/
inductive ControllerWindow (cfg : Config) : Window → Prop where
  | dc (on : Bool) (level : BitVec 3) : ControllerWindow cfg [.out (dcByte on level)]
  | fixed : ControllerWindow cfg [.out 0x44]
  | auto : ControllerWindow cfg [.out 0x40]
  | write1 (p : Nat) (v : Byte) (hp : p ≤ 15) : ControllerWindow cfg [.out (addrByte cfg p), .out v]
  | writeN (vs : List Byte) (hk : vs.length = 16) : ControllerWindow cfg (outW (addrByte cfg 0 :: vs))
  | key : ControllerWindow cfg [.out 0x42]
  | scan (b0 b1 b2 b3 : Byte) : ControllerWindow cfg [.inp b0, .inp b1, .inp b2, .inp b3]

/-! ### The transaction trace as the wire trace gives it (R7) -/

/-- What a reader of the wire trace keeps: the level and direction of DIO, the open window, the closed windows. -/
structure Reader where
  dio : Option Bool
  dir : DioDir
  win : Option (List WireBit)
  trace : List Window
deriving DecidableEq, Repr

/-- One event read (R15): STB low opens a window and STB high closes it; CLK set high moves the bit DIO carries
while it is driven, and a sample moves the bit it returns. -/
def Reader.read (r : Reader) (e : Event) : Reader :=
  match e with
  | .setLevel .stb _ false => { r with win := some (r.win.getD []) }
  | .setLevel .stb _ true => { r with win := none, trace := (r.win.map itemsOf).toList ++ r.trace }
  | .setLevel .dio _ b => { r with dio := some b }
  | .setLevel .clk _ true =>
    match r.dir, r.dio with
    | .driving, some b => { r with win := r.win.map (· ++ [.out b]) }
    | .driving, none => { r with win := r.win.map (· ++ [.unknown]) }
    | .listening, _ => r
  | .setLevel .clk _ false => r
  | .setDir .dio _ .out => { r with dir := .driving, dio := none }
  | .setDir .dio _ .inp => { r with dir := .listening }
  | .setDir .clk _ _ => r
  | .setDir .stb _ _ => r
  | .getLevel _ _ b => { r with win := r.win.map (· ++ [.inp b]) }
  | .delayUs _ => r

/-- What a wire trace, oldest event first, gives from power-up. -/
def readTrace (events : List Event) : Reader := events.foldl Reader.read ⟨none, .driving, none, []⟩

/-- The windows in the state are those of its wire trace (R7: the transaction trace is derived from the wire
level). -/
def State.traceDerived (s : State) : Prop :=
  readTrace s.wireTrace = ⟨s.bus.lvlDio, s.bus.dioDir, s.bus.win, s.bus.trace⟩

/-! ### Rising edges of CLK (R340) -/

/-- How many rising edges CLK makes over a wire trace, oldest first, from the level it has (R340, V-T4). -/
def risingEdges (lvl : Option Bool) (events : List Event) : Nat :=
  match events with
  | [] => 0
  | .setLevel .clk _ true :: rest => (if lvl = some false then 1 else 0) + risingEdges (some true) rest
  | .setLevel .clk _ false :: rest => risingEdges (some false) rest
  | _ :: rest => risingEdges lvl rest

/-! ### The invariant of the block under requests -/

/-- A turn of a caller, the guard, the sequencer or the power supply: no byte put on the wire from outside the
operations (R309: "no sequence of requests under this spec's rules sets either mark"). -/
def Turn.ofRequests : Turn → Bool
  | .issue _ _ | .acquire _ | .block | .serve _ | .collect _ | .powerLoss | .agent => true
  | .wire _ _ | .strobe => false

/-- The block between operations: no mark, no open window, memory canonical, DIO driving, STB high once `init` has
run, its level and the chip unknown before (R25, R166, R309, R330), and the chip's latch equal to
`(IS_ON, BRIGHTNESS)` from the first display-control window on (R36). -/
structure State.AtRest (s : State) : Prop where
  unmarked : s.unmarked
  canonical : s.chip.ram.wf = true
  noWindow : s.bus.win = none
  driving : s.bus.dioDir = .driving
  afterInit : s.initDone = true → s.pinsBound ∧ s.bus.lvlStb = some true
  beforeInit : s.initDone = false → s.chip = Chip.powerUp ∧ s.bus.lvlStb = none
  shadow : s.chip.dc = none ∨ s.chip.dc = some (s.isOn, s.brightness)

/-- What an action asks of the state it is performed in: pins are bound only before `init` is done (R21), and the
register write of `DIO_DIR` finds DIO driving (R193: `SetDir` came before it). -/
def Action.allowed (s : State) (a : Action) : Prop :=
  match a with
  | .bindPins => s.initDone = false
  | .writeDioDriving => s.bus.dioDir = .driving
  | .wire _ _ | .writeBrightness _ | .writeIsOn _ | .writeInitDone | .foldMask | .complete _ | .raise _ => True

/-- Every action of a list is allowed when its turn comes. -/
def State.allows (s : State) (actions : List Action) : Prop :=
  match actions with
  | [] => True
  | a :: rest => a.allowed s ∧ (s.perform a).allows rest

/-- The lock, the ports and `SEQ` agree (R27, R28, R29, R262, R264), and the block is at rest: now when `SEQ` is
idle, and after the actions still to come, each allowed, when it runs (R263, R264). -/
def State.sequenced (s : State) : Prop :=
  match s.seq with
  | .idle => s.lockOwner = none ∧ (∀ (c : Nat) (req : ReqWord), s.ports[c]? ≠ some (Port.active req)) ∧ s.AtRest
  | .run c req _ todo =>
    s.lockOwner = some c ∧ s.ports[c]? = some (.active req) ∧
      (∀ (c' : Nat) (req' : ReqWord), s.ports[c']? = some (Port.active req') → c' = c) ∧
      s.allows todo ∧ (s.performAll todo).AtRest

/-- The invariant. -/
structure State.Inv (s : State) : Prop where
  admitted : s.cfg.admitted = true
  ports : s.ports.length = s.cfg.nCallers
  requests : s.turns.all Turn.ofRequests = true
  laterRequests : s.later.all Turn.ofRequests = true
  sequenced : s.sequenced

end Sys2Proof.Machine
end

