-- ==== Sys2Proof/Certificates/Slice0/Obligations.lean ====
section
/-! DEFINITION. The statements for the provers. Each docstring names the rules it formalises; a clause that rests on a choice
of the model names the log entry. -/

open Sys2Proof Sys2Proof.Machine

/-! ### Encoding -/

/-- 30_encoding.md: decode after encode is the instruction, for every instruction of the table, every operand and every
parameter under which it is well formed. -/
def Obligations.DecodeEncodeAgree : Prop :=
  ∀ (cfg : Config) (i : Instr), i.wellFormed cfg = true → decode cfg (encode cfg i) = .ok i

/-- R101, R100, R103 (decoding): each `OP` selects its operation with its operands, whatever the unused fields hold, and
every other `OP` selects none. -/
def Obligations.RequestDecodesByOpcode : Prop :=
  (∀ a b : Byte,
    decodeRequest (requestWord 0x01 a b) = .ok .init ∧
    decodeRequest (requestWord 0x02 a b) = .ok (.displayVal a b) ∧
    decodeRequest (requestWord 0x03 a b) = .ok (.displayDig a b) ∧
    decodeRequest (requestWord 0x04 a b) = .ok .displayClear ∧
    decodeRequest (requestWord 0x05 a b) = .ok (.writeLed a b) ∧
    decodeRequest (requestWord 0x06 a b) = .ok (.writeLeds b) ∧
    decodeRequest (requestWord 0x07 a b) = .ok .displayTurnOn ∧
    decodeRequest (requestWord 0x08 a b) = .ok .displayTurnOff ∧
    decodeRequest (requestWord 0x09 a b) = .ok (.displaySetBrightness b) ∧
    decodeRequest (requestWord 0x0A a b) = .ok .reset ∧
    decodeRequest (requestWord 0x0B a b) = .ok .test ∧
    decodeRequest (requestWord 0x0C a b) = .ok .getButtons ∧
    decodeRequest (requestWord 0x0D a b) = .ok (.getButton a)) ∧
  (∀ op a b : Byte, op = 0 ∨ 0x0E ≤ op.toNat → decodeRequest (requestWord op a b) = .error (.illegalOp op)) ∧
  ∀ w : ReqWord, w = requestWord (opField w) (aField w) (bField w)

/-- 95_test_vectors.md V-E3, V-E4, V-E5 and R92 to R96: words written out from the encodings. That an 8-bit word, which says
nothing of its position (R91), is read in command position is the model's choice (log entry 4), and 0xCE stands for an address
under the default ADDR_BASE (log entry 1). -/
def Obligations.SampleWordsDecode : Prop :=
  decodeTableWord 24 0x010000 = some .init ∧ decodeTableWord 24 0x02030F = some (.displayVal 3 0x0F) ∧
  decodeTableWord 24 0x0600A5 = some (.writeLeds 0xA5) ∧ decodeTableWord 24 0x07FFFF = some .displayTurnOn ∧
  decodeTableWord 24 0x0D0500 = some (.getButton 5) ∧ decodeTableWord 24 0x0E0000 = none ∧
  decodeTableWord 8 0x40 = some .cmdAuto ∧ decodeTableWord 8 0x8A = some (.dctl true 2) ∧
  decodeTableWord 8 0xCE = some (.addr 14)

/-- R91, R92 to R96, R99 (decoding): a wire byte's format is fixed by its position; in command position exactly the data
commands, display control and the 16 address bytes have a meaning. -/
def Obligations.WireByteDecodesByPosition : Prop :=
  ∀ (cfg : Config), cfg.admitted = true → ∀ b : Byte,
    decodeWire cfg .later b = .ok (.data b) ∧ decodeWire cfg .scan b = .ok (.scanb b) ∧
    (b = 0x40 → decodeWire cfg .first b = .ok .cmdAuto) ∧
    (b = 0x42 → decodeWire cfg .first b = .ok .cmdRead) ∧
    (b = 0x44 → decodeWire cfg .first b = .ok .cmdFixed) ∧
    (∀ (on : Bool) (l : BitVec 3), b = 0x80 + BitVec.ofNat 8 (8 * on.toNat + l.toNat) →
      decodeWire cfg .first b = .ok (.dctl on l)) ∧
    (∀ p : BitVec 4, b.toNat = cfg.addrBase.toNat + p.toNat → decodeWire cfg .first b = .ok (.addr p)) ∧
    (b ≠ 0x40 → b ≠ 0x42 → b ≠ 0x44 → b.toNat / 16 ≠ 8 →
      ¬ (cfg.addrBase.toNat ≤ b.toNat ∧ b.toNat ≤ cfg.addrBase.toNat + 15) →
      decodeWire cfg .first b = .error (.reservedWireByte b))

/-! ### Operand forms -/

/-- R95: the display-control byte. -/
def Obligations.DisplayControlByteFields : Prop :=
  ∀ (on : Bool) (l : BitVec 3),
    (dcByte on l).toNat = 0x80 + 8 * on.toNat + l.toNat ∧
    (dcByte on l).extractLsb' 4 3 = 0 ∧ (dcByte on l).getLsbD 7 = true ∧
    (dcByte on l).getLsbD 3 = on ∧ (dcByte on l).extractLsb' 0 3 = l ∧
    dcByte false 0 = 0x80 ∧ dcByte true 7 = 0x8F

/-- R204, R190, R191, R61: the address map is exact. -/
def Obligations.AddressMapCoversRegistersOnce : Prop :=
  (∀ d : Nat, d ≤ 7 → digitAddr d = 14 - 2 * d ∧ digitAddr d % 2 = 0 ∧ digitAddr d ≤ 14 ∧
    digitAddr d + 1 = ledAddr (8 - d)) ∧
  (∀ n : Nat, 1 ≤ n → n ≤ 8 → ledAddr n = 2 * n - 1 ∧ ledAddr n % 2 = 1 ∧ ledAddr n ≤ 15) ∧
  (∀ d e : Nat, d ≤ 7 → e ≤ 7 → digitAddr d = digitAddr e → d = e) ∧
  (∀ m n : Nat, 1 ≤ m → m ≤ 8 → 1 ≤ n → n ≤ 8 → ledAddr m = ledAddr n → m = n) ∧
  (∀ p : Nat, p ≤ 15 → (∃ d, d ≤ 7 ∧ digitAddr d = p) ∨ (∃ n, 1 ≤ n ∧ n ≤ 8 ∧ ledAddr n = p))

/-- R240: each mask bit is the OR of the scan bits on its diagonal; no other bit reaches the mask. -/
def Obligations.FoldBitFormula : Prop :=
  ∀ (s : Scan) (j : Nat), j < 8 →
    (fold s).getLsbD j = (s.b0.getLsbD j || (decide (1 ≤ j) && s.b1.getLsbD (j - 1)) ||
      (decide (2 ≤ j) && s.b2.getLsbD (j - 2)) || (decide (3 ≤ j) && s.b3.getLsbD (j - 3)))

/-- R243: the laws of the fold. -/
def Obligations.FoldLaws : Prop :=
  (∀ a b : Scan, fold ⟨a.b0 ||| b.b0, a.b1 ||| b.b1, a.b2 ||| b.b2, a.b3 ||| b.b3⟩ = fold a ||| fold b) ∧
  (∀ a b : Scan, a.b0 ||| b.b0 = b.b0 → a.b1 ||| b.b1 = b.b1 → a.b2 ||| b.b2 = b.b2 → a.b3 ||| b.b3 = b.b3 →
    fold a ||| fold b = fold b) ∧
  (∀ x : Byte, fold ⟨x, 0, 0, 0⟩ = x) ∧ (∀ x : Byte, fold ⟨0, x, 0, 0⟩ = x <<< 1) ∧
  fold ⟨0, 0, 0, 0x80⟩ = 0 ∧ fold ⟨0x11, 0x11, 0x11, 0x11⟩ = 0xFF ∧ fold ⟨0x01, 0x01, 0x01, 0x01⟩ = 0x0F ∧
  fold ⟨0x10, 0x10, 0x10, 0x10⟩ = 0xF0 ∧ (∀ s : Scan, (foldAcc s).toNat ≤ 0x7FF)

/-! ### The transport and the protocol encoder -/

/-- R130: `shift_out` in an open window, in either bit order: 40 actions; the bits in order, each driven, then pulsed; it
ends with DIO at the last bit and CLK low, and nothing else of the state changes. -/
def Obligations.ShiftOutDrivesEachBit : Prop :=
  ∀ (s : State) (bits : List WireBit) (order : BitOrder) (b : Byte) (sent : List Bool), s.InOutWindow bits →
    sent = (match order with
      | .lsb => (List.range 8).map b.getLsbD
      | .msb => (List.range 8).map fun j => b.getLsbD (7 - j)) →
    (shiftOut s.cfg order b).length = 40 ∧
    ∃ t, s.performAll (shiftOut s.cfg order b) = t ∧
      t = { s with bus := { s.bus with
        lvlDio := sent.getLast?, lvlClk := some false, win := some (bits ++ sent.map .out), log := t.bus.log } } ∧
      t.wireTrace = s.wireTrace ++ sent.flatMap fun x =>
        [.setLevel .dio s.cfg.pinDio x, .setLevel .clk s.cfg.pinClk true, .delayUs s.cfg.tHigh,
         .setLevel .clk s.cfg.pinClk false, .delayUs s.cfg.tLow]

/-- R131, R66: `shift_in` into scan byte 0 to 3 in an open read window, in either bit order: each bit is a fresh draw,
sampled before its clock pulse; LVL_DIO is not written. -/
def Obligations.ShiftInSamplesEachBit : Prop :=
  ∀ (s : State) (bits : List WireBit) (order : BitOrder) (byte : Nat) (v : Byte), s.InReadWindow bits → byte ≤ 3 →
    (∀ j : Nat, j < 8 → v.getLsbD (match order with
      | .lsb => j
      | .msb => 7 - j) = Config.scanLevel (s.draws + j)) →
    ∃ t, s.performAll (shiftIn s.cfg order none byte) = t ∧
      t = { s with
        bus := { s.bus with
          lvlClk := some false, log := t.bus.log,
          win := some (bits ++ (List.range 8).map fun j => .inp (Config.scanLevel (s.draws + j))) },
        scan := ⟨if byte = 0 then v else s.scan.b0, if byte = 1 then v else s.scan.b1,
                 if byte = 2 then v else s.scan.b2, if byte = 3 then v else s.scan.b3⟩,
        draws := s.draws + 8 } ∧
      t.wireTrace = s.wireTrace ++ (List.range 8).flatMap fun j =>
        [.getLevel .dio s.cfg.pinDio (Config.scanLevel (s.draws + j)), .setLevel .clk s.cfg.pinClk true,
         .delayUs s.cfg.tHigh, .setLevel .clk s.cfg.pinClk false, .delayUs s.cfg.tLow]

/-- R160 (all-`Out` windows), R71: STB falls, the setup delay where it is not 0, the bytes in order, STB rises, the settle
delay; the window goes on the trace and takes effect on the chip; nothing else changes. -/
def Obligations.OutWindowSendsItsBytes : Prop :=
  ∀ (s : State) (bytes : List Byte) (last : Byte), s.Between → bytes.getLast? = some last →
    ∃ t, s.performAll (outWindow s.cfg bytes) = t ∧ Sent s t [bytes] last ∧
      t = { s with bus := t.bus, chip := s.chip.observe s.cfg (outW bytes) }

/-- R309, R130, R131, R160: a broken precondition marks TRANSPORT_MISUSE: a window entered with STB low, a byte shifted out
with DIO listening or STB high, a byte shifted in with DIO driving or STB high, any of them without the lock. R267: so does a
byte put on the wire, or STB raised, from outside the sequencer while it runs an operation (log entry 29). That the actions go
on after the mark is the model's choice (log entry 12). -/
def Obligations.BrokenPreconditionsMark : Prop :=
  ∀ s : State,
    (∀ bytes : List Byte, s.lockOwner = none ∨ s.bus.lvlStb ≠ some true →
      (s.performAll (outWindow s.cfg bytes)).bus.misuse = true) ∧
    (∀ (order : BitOrder) (b : Byte), s.lockOwner = none ∨ s.bus.dioDir ≠ .driving ∨ s.bus.lvlStb ≠ some false →
      (s.performAll (shiftOut s.cfg order b)).bus.misuse = true) ∧
    (∀ (order : BitOrder) (byte : Nat), s.lockOwner = none ∨ s.bus.dioDir ≠ .listening ∨ s.bus.lvlStb ≠ some false →
      (s.performAll (shiftIn s.cfg order none byte)).bus.misuse = true) ∧
    (∀ (pos : WirePos) (b : Byte), (nextTurn s).1 = .wire pos b ∨ (nextTurn s).1 = .strobe →
      s.seq ≠ .idle → ∃ t, step s = .next t ∧ t.bus.misuse = true)

/-- R165: the action counts. -/
def Obligations.ActionCounts : Prop :=
  ∀ (cfg : Config) (on : Bool) (l : BitVec 3) (p : Nat) (v : Byte) (bytes : List Byte) (setup : Nat),
    setup = (if 0 < cfg.tStbSetup then 1 else 0) →
    (outWindow cfg bytes).length = 2 + 40 * bytes.length + 1 + setup ∧
    (emitDc cfg on l).length = 43 + setup ∧
    (writeSingle cfg on l p v).length = 169 + 3 * setup ∧
    (writeBurst cfg on l p bytes).length = 129 + 40 * bytes.length + 3 * setup ∧
    (readScan cfg).length = (43 + setup) + (2 + 2 + 4 * 40 + 1 + setup)

/-- R164, R133, R66: `read_scan` sends 0x42 in a window of its own, then reads four bytes of fresh draws in a second one
with DIO listening; DIO drives again before STB rises, its level unknown until the next bit: a draw on the line (U13, log
entry 16). -/
def Obligations.ReadScanTwoWindows : Prop :=
  ∀ s : State, s.Ready →
    ∃ (t : State) (x : Scan), x = drawnScan s.draws ∧ s.performAll (readScan s.cfg) = t ∧
      t = { s with bus := t.bus, chip := { s.chip with mode := some .read }, scan := x, draws := s.draws + 32,
                   outs := s.outs + 1 } ∧
      t.bus = { s.bus with
        lvlClk := some false, lvlDio := none, freshDio := some (Config.freshLevel s.outs), log := t.bus.log,
        trace := [.inp x.b0, .inp x.b1, .inp x.b2, .inp x.b3] :: [.out 0x42] :: s.bus.trace } ∧
      t.wireTrace = s.wireTrace ++ outWindowEvents s.cfg [0x42] ++ readWindowEvents s.cfg [x.b0, x.b1, x.b2, x.b3]

/-! ### Initialisation and refusals -/

/-- R193: the first `init` binds the pins, sets their directions and then drives all three high, sets the display state to
its defaults, sends no window, and completes; nothing else changes. R346: between the directions and the levels each line
carries the draw of a fresh output, and no window is seen there (log entry 16). -/
def Obligations.InitBindsAndDefaults : Prop :=
  ∀ s : State, s.initDone = false → s.bus.win = none →
    exec .init s = .next { s with
      bus := { s.bus with
        pinClk := some s.cfg.pinClk, pinDio := some s.cfg.pinDio, pinStb := some s.cfg.pinStb, dioDir := .driving,
        lvlClk := some true, lvlDio := some true, lvlStb := some true,
        freshClk := some (Config.freshLevel s.outs), freshDio := some (Config.freshLevel (s.outs + 1)),
        freshStb := some (Config.freshLevel (s.outs + 2)),
        log := [.setLevel .stb s.cfg.pinStb true, .setLevel .dio s.cfg.pinDio true, .setLevel .clk s.cfg.pinClk true,
                .setDir .stb s.cfg.pinStb .out, .setDir .dio s.cfg.pinDio .out, .setDir .clk s.cfg.pinClk .out] ++
               s.bus.log },
      initDone := true, brightness := 0, isOn := false, resp := ⟨.ok, 0⟩, seq := s.seq.advance 12, outs := s.outs + 3 } ∧
    (s.bus.lvlClk = none → s.bus.lvlStb = none →
      ∃ u, s.performAll ((initActions s).take 4) = u ∧ u.bus.level .clk = some (Config.freshLevel s.outs) ∧
        u.bus.level .dio = some (Config.freshLevel (s.outs + 1)) ∧
        u.bus.level .stb = some (Config.freshLevel (s.outs + 2)) ∧
        u.bus.win = none ∧ u.bus.trace = s.bus.trace ∧ u.chip = s.chip)

/-- R295, R193: a second `init` completes with E_REINIT and changes nothing. -/
def Obligations.SecondInitRefused : Prop :=
  ∀ s : State, s.initDone = true → exec .init s = .next (refusedWith s .eReinit)

/-- R294, R296: every other operation before `init` completes with E_NOINIT, whatever its operands, and changes nothing. -/
def Obligations.BeforeInitRefused : Prop :=
  ∀ (s : State) (i : Instr) (w : ReqWord), s.initDone = false → decodeRequest w = .ok i → i ≠ .init →
    exec i s = .next (refusedWith s .eNoinit)

/-- R292, R297: after `init` an operand out of range completes with E_RANGE: no wire action, no register. -/
def Obligations.OutOfRangeRefused : Prop :=
  ∀ s : State, s.initDone = true →
    (∀ d h : Byte, 7 < d.toNat ∨ 15 < h.toNat → exec (.displayVal d h) s = .next (refusedWith s .eRange)) ∧
    (∀ d v : Byte, 7 < d.toNat → exec (.displayDig d v) s = .next (refusedWith s .eRange)) ∧
    (∀ n st : Byte, n.toNat < 1 ∨ 8 < n.toNat → exec (.writeLed n st) s = .next (refusedWith s .eRange)) ∧
    (∀ l : Byte, 7 < l.toNat → exec (.displaySetBrightness l) s = .next (refusedWith s .eRange)) ∧
    (∀ k : Byte, 7 < k.toNat → exec (.getButton k) s = .next (refusedWith s .eRange))

/-- R293, R103, R296: a request whose OP is 0x00 or 0x0E..0xFF acquires the lock, completes with E_ILLEGAL and releases,
before or after `init`; only the port changes, and the recorded response. The release finds DIO driving and STB high (R264,
R309); that an unknown STB level passes before `init` is the model's reading (log entry 10). -/
def Obligations.IllegalOpRefused : Prop :=
  ∀ (s : State) (c : Nat) (op a b : Byte), op = 0 ∨ 0x0E ≤ op.toNat → s.lockOwner = none → s.seq = .idle →
    s.ports[c]? = some (.waiting (requestWord op a b)) →
    s.bus.dioDir = .driving → s.bus.lvlStb = some true ∨ (s.initDone = false ∧ s.bus.lvlStb = none) →
    step { s with turns := .serve c :: s.turns } =
      .next { s with ports := s.ports.set c (.done ⟨.eIllegal, 0⟩), resp := ⟨.eIllegal, 0⟩ }

/-! ### Digit and LED operations -/

/-- R194: `display_val` writes the digit's segment pattern at address 14 - 2d. -/
def Obligations.DisplayValWritesDigit : Prop :=
  ∀ (s : State) (d h : Byte), s.Ready → s.initDone = true → d.toNat ≤ 7 → h.toNat ≤ 15 →
    ∃ (t : State) (v : Byte), s.cfg.segTable[h.toNat]? = some v ∧ v.getLsbD 7 = false ∧
      exec (.displayVal d h) s = .next t ∧ CompletedWithBlockKept s t (170 + 3 * setupActions s.cfg) ∧
      Sent s t [[dcByte s.isOn s.brightness], [0x44], [s.cfg.addrBase + BitVec.ofNat 8 (14 - 2 * d.toNat), v]] v ∧
      ChipWroteOne s t (14 - 2 * d.toNat) v

/-- R195: `display_dig` writes any raw pattern at address 14 - 2d. -/
def Obligations.DisplayDigWritesRawPattern : Prop :=
  ∀ (s : State) (d v : Byte), s.Ready → s.initDone = true → d.toNat ≤ 7 →
    ∃ t : State, exec (.displayDig d v) s = .next t ∧ CompletedWithBlockKept s t (170 + 3 * setupActions s.cfg) ∧
      Sent s t [[dcByte s.isOn s.brightness], [0x44], [s.cfg.addrBase + BitVec.ofNat 8 (14 - 2 * d.toNat), v]] v ∧
      ChipWroteOne s t (14 - 2 * d.toNat) v

/-- R196: `display_clear` writes 0 to the eight even registers, digit 0 first, and leaves the odd ones alone. -/
def Obligations.DisplayClearBlanksDigits : Prop :=
  ∀ s : State, s.Ready → s.initDone = true →
    ∃ t : State, exec .displayClear s = .next t ∧ CompletedWithBlockKept s t (1353 + 24 * setupActions s.cfg) ∧
      Sent s t ([14, 12, 10, 8, 6, 4, 2, 0].flatMap fun p =>
        [[dcByte s.isOn s.brightness], [0x44], [s.cfg.addrBase + BitVec.ofNat 8 p, 0x00]]) 0x00 ∧
      (∀ a : Nat, t.chip.ram.read a = if a % 2 = 0 ∧ a ≤ 14 then some 0x00 else s.chip.ram.read a) ∧
      t.chip.mode = some .fixed ∧ t.chip.dc = some (s.isOn, s.brightness) ∧ t.chip.undefined = false

/-- R197: `write_led` writes 1 or 0 at address 2n - 1; any nonzero state counts as true. -/
def Obligations.WriteLedWritesOneBit : Prop :=
  ∀ (s : State) (n st v : Byte), s.Ready → s.initDone = true → 1 ≤ n.toNat → n.toNat ≤ 8 →
    v = (if st = 0 then 0x00 else 0x01) →
    ∃ t : State, exec (.writeLed n st) s = .next t ∧ CompletedWithBlockKept s t (170 + 3 * setupActions s.cfg) ∧
      Sent s t [[dcByte s.isOn s.brightness], [0x44], [s.cfg.addrBase + BitVec.ofNat 8 (2 * n.toNat - 1), v]] v ∧
      ChipWroteOne s t (2 * n.toNat - 1) v

/-- R198: `write_leds` writes bit i of the mask at address 2i + 1, LED 1 first; the even registers are unchanged. -/
def Obligations.WriteLedsWritesMask : Prop :=
  ∀ (s : State) (m : Byte), s.Ready → s.initDone = true →
    ∃ t : State, exec (.writeLeds m) s = .next t ∧ CompletedWithBlockKept s t (1353 + 24 * setupActions s.cfg) ∧
      Sent s t ([0, 1, 2, 3, 4, 5, 6, 7].flatMap fun i =>
        [[dcByte s.isOn s.brightness], [0x44],
         [s.cfg.addrBase + BitVec.ofNat 8 (2 * i + 1), if m.getLsbD i then 0x01 else 0x00]])
        (if m.getLsbD 7 then 0x01 else 0x00) ∧
      (∀ i : Nat, i < 8 → t.chip.ram.read (2 * i + 1) = some (if m.getLsbD i then 0x01 else 0x00)) ∧
      (∀ a : Nat, a % 2 = 0 ∨ 15 < a → t.chip.ram.read a = s.chip.ram.read a) ∧
      t.chip.mode = some .fixed ∧ t.chip.dc = some (s.isOn, s.brightness) ∧ t.chip.undefined = false

/-! ### Display control -/

/-- R199, R200: `display_turn_on` and `display_turn_off` set or clear IS_ON, keep BRIGHTNESS and send one display-control
window; the display registers are untouched. -/
def Obligations.TurnOnAndOffSendControl : Prop :=
  ∀ s : State, s.Ready → s.initDone = true →
    (∃ t : State, exec .displayTurnOn s = .next t ∧
      t = { s with bus := t.bus, chip := { s.chip with dc := some (true, s.brightness) }, isOn := true,
                   seq := s.seq.advance (45 + setupActions s.cfg), resp := ⟨.ok, 0⟩ } ∧
      Sent s t [[0x88 ||| s.brightness.zeroExtend 8]] 0x80) ∧
    (∃ t : State, exec .displayTurnOff s = .next t ∧
      t = { s with bus := t.bus, chip := { s.chip with dc := some (false, s.brightness) }, isOn := false,
                   seq := s.seq.advance (45 + setupActions s.cfg), resp := ⟨.ok, 0⟩ } ∧
      Sent s t [[0x80 ||| s.brightness.zeroExtend 8]] 0x80)

/-- R201: `display_set_brightness` sets BRIGHTNESS to a valid level, keeps IS_ON and sends one display-control window. -/
def Obligations.SetBrightnessSendsControl : Prop :=
  ∀ (s : State) (l : Byte) (level : BitVec 3), s.Ready → s.initDone = true → l.toNat = level.toNat →
    ∃ t : State, exec (.displaySetBrightness l) s = .next t ∧
      t = { s with bus := t.bus, chip := { s.chip with dc := some (s.isOn, level) }, brightness := level,
                   seq := s.seq.advance (45 + setupActions s.cfg), resp := ⟨.ok, 0⟩ } ∧
      Sent s t [[dcByte s.isOn level]] 0x80

/-- R205: brightness survives on/off toggling. After `set_brightness l`, `turn_off`, `turn_on`, the last window sent is
`dc_byte(1, l)`, and the latch holds it. -/
def Obligations.BrightnessSurvivesToggling : Prop :=
  ∀ (s : State) (l : Byte) (level : BitVec 3), s.Ready → s.initDone = true → l.toNat = level.toNat →
    ∃ t u v : State, exec (.displaySetBrightness l) s = .next t ∧ exec .displayTurnOff t = .next u ∧
      exec .displayTurnOn u = .next v ∧ v.bus.trace.head? = some [.out (dcByte true level)] ∧
      v.brightness = level ∧ v.isOn = true ∧ v.chip.dc = some (true, level)

/-! ### Whole-display operations -/

/-- R202: `reset` writes 16 zero bytes in one burst; every display register is 0, and no block register changes. -/
def Obligations.ResetClearsAllRegisters : Prop :=
  ∀ s : State, s.Ready → s.initDone = true →
    ∃ t : State, exec .reset s = .next t ∧ CompletedWithBlockKept s t (770 + 3 * setupActions s.cfg) ∧
      Sent s t [[dcByte s.isOn s.brightness], [0x40], s.cfg.addrBase :: List.replicate 16 0x00] 0x00 ∧
      (∀ a : Nat, t.chip.ram.read a = if a ≤ 15 then some 0x00 else s.chip.ram.read a) ∧
      t.chip.mode = some .auto ∧ t.chip.dc = some (s.isOn, s.brightness) ∧ t.chip.undefined = false

/-- R203: `test` sends each frame of SELF_TEST_FRAMES as one burst and holds T_TEST_HOLD after each; the registers hold the
last frame; no block register changes. With no frame it completes and sends nothing. -/
def Obligations.TestShowsEachFrame : Prop :=
  ∀ s : State, s.Ready → s.initDone = true →
    (∀ (frames : List (List Byte)) (last : List Byte), s.cfg.selfTestFrames = frames ++ [last] →
      ∃ t : State, exec .test s = .next t ∧
        CompletedWithBlockKept s t ((770 + 3 * setupActions s.cfg) * (frames.length + 1) + 1) ∧
        t.bus = { s.bus with lvlClk := some false, lvlDio := t.bus.lvlDio, log := t.bus.log, trace := t.bus.trace } ∧
        t.bus.trace = ((frames ++ [last]).flatMap fun f =>
          [outW [dcByte s.isOn s.brightness], outW [0x40], outW (s.cfg.addrBase :: f)]).reverse ++ s.bus.trace ∧
        t.bus.lvlDio = last.getLast?.map (fun v => v.getLsbD 7) ∧
        t.wireTrace = s.wireTrace ++ (frames ++ [last]).flatMap (fun f =>
          outWindowEvents s.cfg [dcByte s.isOn s.brightness] ++ outWindowEvents s.cfg [0x40] ++
          outWindowEvents s.cfg (s.cfg.addrBase :: f) ++ [.delayUs s.cfg.tTestHold]) ∧
        (∀ a : Nat, t.chip.ram.read a = if a ≤ 15 then last[a]? else s.chip.ram.read a) ∧
        t.chip.mode = some .auto ∧ t.chip.dc = some (s.isOn, s.brightness) ∧ t.chip.undefined = false) ∧
    (s.cfg.selfTestFrames = [] → exec .test s = .next { s with resp := ⟨.ok, 0⟩, seq := s.seq.advance 1 })

/-! ### Buttons -/

/-- R241: `get_buttons` reads the four scan bytes and answers their fold; no display-control window, no display register. -/
def Obligations.GetButtonsAnswersFold : Prop :=
  ∀ s : State, s.Ready → s.initDone = true →
    ∃ (t : State) (x : Scan), x = drawnScan s.draws ∧ exec .getButtons s = .next t ∧
      t = { s with bus := t.bus, chip := { s.chip with mode := some .read }, scan := x, mask := fold x,
                   seq := s.seq.advance (210 + 2 * setupActions s.cfg), outs := s.outs + 1,
                   resp := ⟨.ok, fold x⟩, draws := s.draws + 32 } ∧
      t.bus = { s.bus with
        lvlClk := some false, lvlDio := none, freshDio := some (Config.freshLevel s.outs), log := t.bus.log,
        trace := [.inp x.b0, .inp x.b1, .inp x.b2, .inp x.b3] :: [.out 0x42] :: s.bus.trace } ∧
      t.wireTrace = s.wireTrace ++ outWindowEvents s.cfg [0x42] ++ readWindowEvents s.cfg [x.b0, x.b1, x.b2, x.b3]

/-- R242: `get_button k` answers bit k of the fold as 0 or 1, in one lock hold. -/
def Obligations.GetButtonAnswersOneBit : Prop :=
  ∀ (s : State) (k : Byte), s.Ready → s.initDone = true → k.toNat ≤ 7 →
    ∃ (t : State) (x : Scan), x = drawnScan s.draws ∧ exec (.getButton k) s = .next t ∧
      t = { s with bus := t.bus, chip := { s.chip with mode := some .read }, scan := x, mask := fold x,
                   seq := s.seq.advance (210 + 2 * setupActions s.cfg), outs := s.outs + 1,
                   resp := ⟨.ok, if (fold x).getLsbD k.toNat then 0x01 else 0x00⟩, draws := s.draws + 32 } ∧
      t.bus = { s.bus with
        lvlClk := some false, lvlDio := none, freshDio := some (Config.freshLevel s.outs), log := t.bus.log,
        trace := [.inp x.b0, .inp x.b1, .inp x.b2, .inp x.b3] :: [.out 0x42] :: s.bus.trace } ∧
      t.wireTrace = s.wireTrace ++ outWindowEvents s.cfg [0x42] ++ readWindowEvents s.cfg [x.b0, x.b1, x.b2, x.b3]

/-! ### Wire bytes -/

/-- R92 to R95, R62: each command byte goes out alone in a window, and the chip takes it; nothing else changes. That a command
byte, taken as an instruction, is a whole window of its own, with SEQ, the ports and the response kept, is the model's reading
(log entry 9). -/
def Obligations.CommandBytesReachChip : Prop :=
  ∀ s : State, s.Ready →
    (∃ t, exec .cmdAuto s = .next t ∧ Sent s t [[0x40]] 0x40 ∧
      t = { s with bus := t.bus, chip := { s.chip with mode := some .auto } }) ∧
    (∃ t, exec .cmdRead s = .next t ∧ Sent s t [[0x42]] 0x42 ∧
      t = { s with bus := t.bus, chip := { s.chip with mode := some .read } }) ∧
    (∃ t, exec .cmdFixed s = .next t ∧ Sent s t [[0x44]] 0x44 ∧
      t = { s with bus := t.bus, chip := { s.chip with mode := some .fixed } }) ∧
    (∀ (on : Bool) (l : BitVec 3), ∃ t, exec (.dctl on l) s = .next t ∧ Sent s t [[dcByte on l]] (dcByte on l) ∧
      t = { s with bus := t.bus, chip := { s.chip with dc := some (on, l) } })

/-- R91, R96, R130: the address byte opens a data-write window and goes out in it; the chip is unchanged until STB rises
(R71). That the byte alone leaves the window open is the model's reading (log entry 9). -/
def Obligations.AddressByteOpensWindow : Prop :=
  ∀ (s : State) (p : BitVec 4) (a : Byte), s.Ready → a = s.cfg.addrBase + BitVec.ofNat 8 p.toNat →
    ∃ t, exec (.addr p) s = .next t ∧
      t = { s with bus := { s.bus with
        lvlStb := some false, lvlClk := some false, lvlDio := some (a.getLsbD 7), win := some (bitsOut a),
        log := t.bus.log } } ∧
      t.wireTrace = s.wireTrace ++ openEvents s.cfg ++ byteOutEvents s.cfg a

/-- R91, R97, R130: a data byte goes out inside the open window; the chip is unchanged until STB rises (R71, log entry 9). -/
def Obligations.DataByteExtendsWindow : Prop :=
  ∀ (s : State) (bits : List WireBit) (v : Byte), s.InOutWindow bits →
    ∃ t, exec (.data v) s = .next t ∧
      t = { s with bus := { s.bus with
        lvlClk := some false, lvlDio := some (v.getLsbD 7), win := some (bits ++ bitsOut v), log := t.bus.log } } ∧
      t.wireTrace = s.wireTrace ++ byteOutEvents s.cfg v

/-- R91, R131, R164: a scan byte the chip drives. The first of a window opens it and turns DIO to input; each goes to the
SCAN byte of its place in the window, bit 0 first. A fifth byte of a window is stored nowhere (log entry 9). -/
def Obligations.ScanByteFillsScan : Prop :=
  (∀ (s : State) (v : Byte), s.Ready →
    ∃ t, exec (.scanb v) s = .next t ∧
      t = { s with
        bus := { s.bus with dioDir := .listening, lvlStb := some false, lvlClk := some false,
                            win := some ((List.range 8).map fun j => .inp (v.getLsbD j)), log := t.bus.log },
        scan := { s.scan with b0 := v } } ∧
      t.wireTrace = s.wireTrace ++ openEvents s.cfg ++ [.setDir .dio s.cfg.pinDio .inp] ++ byteInEvents s.cfg v) ∧
  (∀ (s : State) (bits : List WireBit) (n : Nat) (v : Byte), s.InReadWindow bits → bits.length = 8 * n → 1 ≤ n →
    ∃ t, exec (.scanb v) s = .next t ∧
      t = { s with
        bus := { s.bus with lvlClk := some false, log := t.bus.log,
                            win := some (bits ++ (List.range 8).map fun j => .inp (v.getLsbD j)) },
        scan := ⟨s.scan.b0, if n = 1 then v else s.scan.b1, if n = 2 then v else s.scan.b2,
                 if n = 3 then v else s.scan.b3⟩ } ∧
      t.wireTrace = s.wireTrace ++ byteInEvents s.cfg v)

/-- R162 as a refinement: `write_single` does to the state exactly what its wire bytes do one after another, DCTL, CMD_FIXED,
ADDR, DATA, and then STB rising. The steps of the four wire-byte instructions, and that STB rises by itself, are the model's
reading (log entry 9). -/
def Obligations.WriteSingleIsItsWireBytes : Prop :=
  ∀ (s : State) (p : BitVec 4) (v : Byte), s.Between →
    ∃ a b c d : State, exec (.dctl s.isOn s.brightness) s = .next a ∧ exec .cmdFixed a = .next b ∧
      exec (.addr p) b = .next c ∧ exec (.data v) c = .next d ∧
      s.performAll (writeSingle s.cfg s.isOn s.brightness p.toNat v) = d.strobed

/-! ### The wire observer -/

/-- R62, R63, R64, R66: what each meaningful window does to a chip that is not marked. -/
def Obligations.ObserverTakesMeaningfulWindows : Prop :=
  ∀ (cfg : Config) (c : Chip), c.undefined = false →
    c.observe cfg [.out 0x40] = { c with mode := some .auto } ∧
    c.observe cfg [.out 0x44] = { c with mode := some .fixed } ∧
    c.observe cfg [.out 0x42] = { c with mode := some .read } ∧
    (∀ b : Byte, b.toNat / 16 = 8 →
      c.observe cfg [.out b] = { c with dc := some (b.getLsbD 3, BitVec.ofNat 3 (b.toNat % 8)) }) ∧
    (∀ (p : Nat) (a v : Byte), p ≤ 15 → a.toNat = cfg.addrBase.toNat + p → c.mode = some .fixed →
      ∃ c', c.observe cfg [.out a, .out v] = c' ∧ c' = { c with ram := c'.ram } ∧
        ∀ x : Nat, c'.ram.read x = if x = p then some v else c.ram.read x) ∧
    (∀ (p : Nat) (a v : Byte) (vs : List Byte), a.toNat = cfg.addrBase.toNat + p → c.mode = some .auto →
      p + (v :: vs).length ≤ 16 →
      ∃ c', c.observe cfg (outW (a :: v :: vs)) = c' ∧ c' = { c with ram := c'.ram } ∧
        ∀ x : Nat, c'.ram.read x = if p ≤ x ∧ x < p + (v :: vs).length then (v :: vs)[x - p]? else c.ram.read x) ∧
    (∀ b0 b1 b2 b3 : Byte, c.mode = some .read → c.observe cfg [.inp b0, .inp b1, .inp b2, .inp b3] = c)

/-- R65: every other window sets WIRE_UNDEFINED and makes every chip cell unknown, from then on. -/
def Obligations.OtherWindowsUndefined : Prop :=
  ∀ (cfg : Config) (c : Chip) (w : Window), c.undefined = false → ¬ Meaningful cfg c.mode w →
    ∃ c', c.observe cfg w = c' ∧ c'.undefined = true ∧ (∀ a : Nat, c'.ram.read a = none) ∧ c'.mode = none ∧
      c'.dc = none ∧ ∀ w' : Window, c'.observe cfg w' = c'

/-- R69: writing the same window twice leaves the same display registers as writing it once. -/
def Obligations.DisplayWritesIdempotent : Prop :=
  ∀ (cfg : Config) (c : Chip) (a : Byte) (vs : List Byte) (x : Nat), vs ≠ [] →
    ((c.observe cfg (outW (a :: vs))).observe cfg (outW (a :: vs))).ram.read x =
      (c.observe cfg (outW (a :: vs))).ram.read x

/-- 20_memory.md R60: every step keeps the display memory in its canonical form, within its 16 registers. -/
def Obligations.StepKeepsMemoryCanonical : Prop :=
  ∀ s s' : State, s.chip.ram.wf = true → step s = .next s' → s'.chip.ram.wf = true

/-! ### The guard -/

/-- R261: issue is enabled exactly for an idle port, and only moves it to WAITING. That a turn with no such step, for a port
that is not idle or a caller that does not exist, is a fault of the step is the model's reading (log entry 26). -/
def Obligations.IssueMovesIdlePortToWaiting : Prop :=
  ∀ (s : State) (c : Nat) (req : ReqWord) (ts : List Turn), nextTurn s = (.issue c req, ts) →
    (s.ports[c]? = some .idle →
      step s = .next { s with ports := s.ports.set c (.waiting req), turns := ts }) ∧
    (s.ports[c]? ≠ some .idle → step s = .fault (.issueNotEnabled c))

/-- R262: acquire is enabled exactly when the lock is free, SEQ idle and the port waiting; it takes the lock and starts the
action list of the request, built from the state now. That a turn with no such step is a fault of the step is the model's
reading (log entry 26). -/
def Obligations.AcquireTakesFreeLock : Prop :=
  ∀ (s : State) (c : Nat) (ts : List Turn), nextTurn s = (.acquire c, ts) →
    (∀ req : ReqWord, s.lockOwner = none → s.seq = .idle → s.ports[c]? = some (.waiting req) →
      step s = .next { s with lockOwner := some c, ports := s.ports.set c (.active req),
                              seq := .run c req 0 (requestActions req s), turns := ts }) ∧
    (s.lockOwner ≠ none ∨ s.seq ≠ .idle ∨ (∀ req : ReqWord, s.ports[c]? ≠ some (.waiting req)) →
      step s = .fault (.acquireNotEnabled c))

/-- R262, U15: at the block's turn, with callers waiting and no choice given, the guard grants the lock to one of them. Which
one is the free value of log entry 3. R269: where the turn says no more than that some agent moves, some agent can (log entry
30); and no waiting caller is promised the lock: for any parameters with two callers or more there is a state, met by the
invariant, from which the run goes on for ever and a caller waits for ever. -/
def Obligations.GuardGrantsSomeWaiter : Prop :=
  (∀ (s : State) (ts : List Turn), nextTurn s = (.block, ts) → s.lockOwner = none → s.seq = .idle →
    (∃ (c : Nat) (req : ReqWord), s.ports[c]? = some (.waiting req)) →
    ∃ (c : Nat) (req : ReqWord) (t : State), s.ports[c]? = some (.waiting req) ∧ step s = .next t ∧
      t = { s with lockOwner := some c, ports := s.ports.set c (.active req),
                   seq := .run c req 0 (requestActions req s), turns := ts, choices := t.choices }) ∧
  (∀ s : State, (nextTurn s).1 = .agent → ∃ t, step s = .next t) ∧
  (∀ (cfg : Config) (req : ReqWord), cfg.admitted = true → 2 ≤ cfg.nCallers →
    ∃ s : State, s.cfg = cfg ∧ s.Inv ∧ s.ports[1]? = some (.waiting req) ∧
      ∀ n : Nat, ∃ t : State, Host.Core.run Sys2Proof.core n s = .next t ∧ t.ports[1]? = some (.waiting req))

/-- R263: execute performs action k and moves SEQ to k + 1; a release follows the last action (R264): the recorded response
goes to the port, SEQ is idle, the lock free. A release that finds DIO not driving, or STB at another known level than 1, or
unknown after `init`, marks TRANSPORT_MISUSE. That the release goes on after the mark is the model's choice (log entry 12), and
that an unknown STB level passes before `init` is its reading (log entry 10). R29, R104, R291: the response is a 16-bit word with the status code in bits
15:8 and the result byte in bits 7:0. -/
def Obligations.ExecuteThenRelease : Prop :=
  (∀ (s : State) (c : Nat) (req : ReqWord) (k : Nat) (ts : List Turn), nextTurn s = (.block, ts) →
    (∀ (a : Action) (rest : List Action), s.seq = .run c req k (a :: rest) →
      step s = .next { s.perform a with seq := .run c req (k + 1) rest, turns := ts }) ∧
    (s.seq = .run c req k [] → s.bus.dioDir = .driving →
      s.bus.lvlStb = some true ∨ (s.initDone = false ∧ s.bus.lvlStb = none) →
      step s = .next { s with ports := s.ports.set c (.done s.resp), seq := .idle, lockOwner := none, turns := ts }) ∧
    (s.seq = .run c req k [] →
      s.bus.dioDir ≠ .driving ∨ s.bus.lvlStb = some false ∨ (s.initDone = true ∧ s.bus.lvlStb ≠ some true) →
      step s = .next { s with ports := s.ports.set c (.done s.resp), seq := .idle, lockOwner := none, turns := ts,
                              bus := { s.bus with misuse := true } })) ∧
  (∀ r : Response, r.word.toNat = 256 * r.status.code.toNat + r.data.toNat ∧
    r.word.extractLsb' 8 8 = r.status.code ∧ r.word.extractLsb' 0 8 = r.data) ∧
  (∀ (a : Action) (s : State), (a = .complete .zero → (s.perform a).resp.word = 0x0000) ∧
    (a = .raise .eRange → (s.perform a).resp.word = 0x0100) ∧ (a = .raise .eIllegal → (s.perform a).resp.word = 0x0200) ∧
    (a = .raise .eNoinit → (s.perform a).resp.word = 0x0300) ∧ (a = .raise .eReinit → (s.perform a).resp.word = 0x0400) ∧
    (a = .complete .mask → (s.perform a).resp.word.toNat = s.mask.toNat))

/-- R265: collect is enabled exactly for a completed port, and frees it. That a turn with no response to collect is a fault of
the step is the model's reading (log entry 26); the response leaves the machine with the caller. -/
def Obligations.CollectFreesDonePort : Prop :=
  ∀ (s : State) (c : Nat) (ts : List Turn), nextTurn s = (.collect c, ts) →
    (∀ r : Response, s.ports[c]? = some (.done r) →
      step s = .next { s with ports := s.ports.set c .idle, turns := ts }) ∧
    ((∀ r : Response, s.ports[c]? ≠ some (.done r)) → step s = .fault (.collectNotEnabled c))

/-- A step runs the decoded instruction. With the lock free, SEQ idle and a request waiting that decodes to `i`, the serving
step is `exec i` on the accepted state, released afterwards; with a byte at a position as the next turn that decodes to `i`,
the step is `exec i`, on the marked state where the sequencer runs an operation (R267, log entry 29). -/
def Obligations.StepRunsDecodedInstruction : Prop :=
  (∀ (s : State) (c : Nat) (req : ReqWord) (i : Instr) (ts : List Turn), nextTurn s = (.serve c, ts) →
    s.lockOwner = none → s.seq = .idle → s.ports[c]? = some (.waiting req) → decodeRequest req = .ok i →
    step s = releaseAfter c (exec i { s with
      turns := ts, lockOwner := some c, ports := s.ports.set c (.active req),
      seq := .run c req 0 (requestActions req s) })) ∧
  (∀ (s : State) (pos : WirePos) (b : Byte) (i : Instr) (ts : List Turn), nextTurn s = (.wire pos b, ts) →
    decodeWire s.cfg pos b = .ok i →
    (s.seq = .idle → step s = exec i { s with turns := ts }) ∧
    (s.seq ≠ .idle → step s = exec i { s with turns := ts, bus := { s.bus with misuse := true } }))

/-- R7, R262 to R264: the request level is the wire level. Acquire, one execute per action and the release, taken one by
one, end in the state that serving the request in one step gives, whatever the request word. -/
def Obligations.RequestLevelIsWireLevel : Prop :=
  ∀ (s : State) (c : Nat) (req : ReqWord) (ts : List Turn), s.lockOwner = none → s.seq = .idle →
    s.ports[c]? = some (.waiting req) →
    Host.Core.run Sys2Proof.core ((requestActions req s).length + 2)
        { s with turns := .acquire c :: (List.replicate ((requestActions req s).length + 1) .block ++ ts) } =
      step { s with turns := .serve c :: ts }

/-! ### Invariants and whole-machine rules -/

/-- R25, R28, R36, R166, R264, R309 as one invariant that every step keeps, from every state that meets it. It rests on the
model's readings of a power loss (log entries 5, 11) and of a release before `init` (log entry 10). -/
def Obligations.StepKeepsBlockInvariant : Prop :=
  ∀ s s' : State, s.Inv → step s = .next s' → s'.Inv

/-- The invariant holds at power-up, for every admitted choice of the parameters, and at reset. That DIO_DIR is DRIVING there
is log entry 5. -/
def Obligations.PowerUpMeetsBlockInvariant : Prop :=
  (∀ cfg : Config, cfg.admitted = true → (State.powerUp cfg).Inv) ∧ State.reset.Inv

/-- R309: under requests no fault mark is ever set, in the middle of an operation either. -/
def Obligations.RequestsNeverMark : Prop :=
  ∀ s : State, s.Inv → s.bus.misuse = false ∧ s.chip.undefined = false

/-- R25, R36, R166, R264: every step that leaves the lock free, from a state that meets the invariant, leaves a quiet bus: DIO
drives, after `init` STB is high, no window is open, and the chip's latch equals the display state once a display-control
window has been sent. That DIO_DIR is DRIVING after a power loss is log entry 5. -/
def Obligations.FreeLockMeansQuietBus : Prop :=
  ∀ s s' : State, s.Inv → step s = .next s' → s'.lockOwner = none →
    s'.bus.win = none ∧ s'.bus.dioDir = .driving ∧ (s'.initDone = true → s'.bus.lvlStb = some true) ∧
    (s'.chip.dc ≠ none → s'.chip.dc = some (s'.isOn, s'.brightness))

/-- R309: each mark is sticky, over every turn. Across a power loss that is the model's choice (log entry 11). -/
def Obligations.MarksAreSticky : Prop :=
  ∀ s s' : State, step s = .next s' →
    (s.bus.misuse = true → s'.bus.misuse = true) ∧ (s.chip.undefined = true → s'.chip.undefined = true)

/-- R22, R21: no step but power loss clears INIT_DONE, from any state; and after `init` no step but power loss changes the
pins it bound, between operations and in the middle of one, from every state that meets the invariant. -/
def Obligations.InitDoneNeverCleared : Prop :=
  ∀ s s' : State, (nextTurn s).1 ≠ .powerLoss → s.initDone = true → step s = .next s' →
    s'.initDone = true ∧
    (s.Inv → s'.bus.pinClk = s.bus.pinClk ∧ s'.bus.pinDio = s.bus.pinDio ∧ s'.bus.pinStb = s.bus.pinStb)

/-- R9, R74: no step changes the parameters, SEG_TABLE and the configuration inputs among them. -/
def Obligations.StepKeepsParameters : Prop :=
  ∀ s s' : State, step s = .next s' → s'.cfg = s.cfg

/-- R98, R99: a request served from between two windows sends windows of the seven forms only: no reserved command byte, no
address outside the 16, no data window of another length. -/
def Obligations.OnlySevenWindowForms : Prop :=
  ∀ (s t : State) (i : Instr) (w : ReqWord), s.Ready → decodeRequest w = .ok i → exec i s = .next t →
    ∃ sent : List Window, t.bus.trace = sent ++ s.bus.trace ∧ ∀ x ∈ sent, ControllerWindow s.cfg x

/-- R7: the transaction trace in the state is the one the wire trace gives. Every instruction keeps that, and STB rising, and
a reserved byte, from every state; and so does every step: an execute step of the sequencer from every state that meets the
invariant, a turn of the wire from every state. -/
def Obligations.ExecKeepsTraceDerived : Prop :=
  (∀ (i : Instr) (s t : State), s.traceDerived → exec i s = .next t → t.traceDerived) ∧
  (∀ (s : State) (b : Byte), s.traceDerived → s.strobed.traceDerived ∧ (s.sentReserved b).traceDerived) ∧
  (∀ s s' : State, s.traceDerived → step s = .next s' →
    s.Inv ∨ (∃ (pos : WirePos) (b : Byte), (nextTurn s).1 = .wire pos b ∨ (nextTurn s).1 = .strobe) →
    s'.traceDerived)

/-- R340, over the events the model adds to the wire trace: `init` leaves CLK high, so the window that follows makes one
rising edge fewer than its bits, 8n - 1 for n bytes; a window leaves CLK low, and from CLK low it makes 8n. -/
def Obligations.FirstPulseAfterInitHasNoEdge : Prop :=
  (∀ s : State, s.initDone = false → s.bus.win = none → ∃ t, exec .init s = .next t ∧ t.bus.lvlClk = some true) ∧
  ∀ (s : State) (bytes : List Byte), s.Between → bytes ≠ [] →
    ∃ (t : State) (added : List Event), s.performAll (outWindow s.cfg bytes) = t ∧
      t.wireTrace = s.wireTrace ++ added ∧ t.bus.lvlClk = some false ∧
      (s.bus.lvlClk = some true → risingEdges s.bus.lvlClk added = 8 * bytes.length - 1) ∧
      (s.bus.lvlClk = some false → risingEdges s.bus.lvlClk added = 8 * bytes.length)

/-- R344, R135, over the events the model adds to the wire trace: the least time of a window of n bytes, and the lower bounds
of the timing table for a byte, `write_single`, `reset` and `get_buttons`. -/
def Obligations.TimingLowerBounds : Prop :=
  (∀ (s : State) (bits : List WireBit) (b : Byte), s.InOutWindow bits → s.cfg.admitted = true →
    ∃ added : List Event, (s.performAll (shiftOut s.cfg .lsb b)).wireTrace = s.wireTrace ++ added ∧
      minMicros added = 8 * (s.cfg.tHigh + s.cfg.tLow) ∧ 16 ≤ minMicros added) ∧
  ∀ s : State, s.Ready →
    (∀ bytes : List Byte, ∃ added : List Event,
      (s.performAll (outWindow s.cfg bytes)).wireTrace = s.wireTrace ++ added ∧
      minMicros added = s.cfg.tStbSetup + 8 * bytes.length * (s.cfg.tHigh + s.cfg.tLow) + s.cfg.tSettle) ∧
    (∀ (p : Nat) (v : Byte), ∃ added : List Event,
      (s.performAll (writeSingle s.cfg s.isOn s.brightness p v)).wireTrace = s.wireTrace ++ added ∧
      64 + 3 * s.cfg.tSettle ≤ minMicros added) ∧
    (s.initDone = true →
      (∃ (t : State) (added : List Event), exec .reset s = .next t ∧ t.wireTrace = s.wireTrace ++ added ∧
        304 + 3 * s.cfg.tSettle ≤ minMicros added) ∧
      (∃ (t : State) (added : List Event), exec .getButtons s = .next t ∧ t.wireTrace = s.wireTrace ++ added ∧
        80 + 2 * s.cfg.tSettle ≤ minMicros added))

/-! ### Reset and power -/

/-- R330: the power-up state, for every choice of the parameters; R37, R308: power loss returns block and chip to it. That
the parameters, the turns and the free-value counters stay, and that the marks stay sticky, is the model's choice (log
entry 11), and so are the values R330 leaves unspecified (log entry 5). -/
def Obligations.PowerUpAndPowerLoss : Prop :=
  (∀ (cfg : Config) (s : State), s = State.powerUp cfg →
    s.initDone = false ∧ s.lockOwner = none ∧ s.seq = .idle ∧ s.ports = List.replicate cfg.nCallers .idle ∧
    s.bus.pinClk = none ∧ s.bus.pinDio = none ∧ s.bus.pinStb = none ∧ s.bus.lvlClk = none ∧ s.bus.lvlDio = none ∧
    s.bus.lvlStb = none ∧ (∀ a : Nat, s.chip.ram.read a = none) ∧ s.chip.mode = none ∧ s.chip.dc = none ∧
    s.bus.misuse = false ∧ s.chip.undefined = false) ∧
  (∀ (s : State) (ts : List Turn), nextTurn s = (.powerLoss, ts) →
    ∃ t, step s = .next t ∧
      t = { State.powerUp s.cfg with
        bus := { Bus.powerUp with misuse := s.bus.misuse }, chip := { Chip.powerUp with undefined := s.chip.undefined },
        turns := ts, later := s.later, draws := s.draws, outs := s.outs, choices := s.choices })

/-- R333: `init` then `reset`, served one after the other from power-up, makes every display register known: 0. -/
def Obligations.InitThenResetKnowsAllCells : Prop :=
  ∀ (cfg : Config) (a : Nat), cfg.admitted = true → a ≤ 15 →
    ∃ t : State, Host.Core.run Sys2Proof.core 5 { State.powerUp cfg with
        turns := [.issue 0 0x010000, .serve 0, .collect 0, .issue 0 0x0A0000, .serve 0] } = .next t ∧
      t.chip.ram.read a = some 0x00 ∧ t.chip.mode = some .auto ∧ t.chip.dc = some (false, 0) ∧
      t.bus.lvlClk = some false ∧ t.bus.lvlDio = some false ∧ t.bus.lvlStb = some true ∧
      t.ports[0]? = some (.done ⟨.ok, 0⟩)
end

