-- ==== Sys2Proof/Laws/Decode.lean ====
section
/-! SUPPORT. The fields of a request word, of a display-control byte and of an address byte (R95, R96, R100, R105). -/

namespace Sys2Proof

/-- The bits of a request word, field by field (R100). -/
theorem getLsbD_requestWord (op a b : Byte) (i : Nat) :
    (requestWord op a b).getLsbD i =
      if i < 8 then b.getLsbD i else if i - 8 < 8 then a.getLsbD (i - 8) else op.getLsbD (i - 8 - 8) := by
  have h : (requestWord op a b).getLsbD i = ((op ++ a : BitVec (8 + 8)) ++ b : BitVec (8 + 8 + 8)).getLsbD i := rfl
  rw [h, BitVec.getLsbD_append, BitVec.getLsbD_append]

theorem opField_requestWord (op a b : Byte) : opField (requestWord op a b) = op := by
  ext i hi
  simp only [opField, BitVec.getElem_extractLsb', getLsbD_requestWord]
  rw [if_neg (by omega), if_neg (by omega), show 16 + i - 8 - 8 = i by omega, BitVec.getLsbD_eq_getElem]

theorem aField_requestWord (op a b : Byte) : aField (requestWord op a b) = a := by
  ext i hi
  simp only [aField, BitVec.getElem_extractLsb', getLsbD_requestWord]
  rw [if_neg (by omega), if_pos (by omega), show 8 + i - 8 = i by omega, BitVec.getLsbD_eq_getElem]

theorem bField_requestWord (op a b : Byte) : bField (requestWord op a b) = b := by
  ext i hi
  simp only [bField, BitVec.getElem_extractLsb', getLsbD_requestWord]
  rw [if_pos (by omega), show 0 + i = i by omega, BitVec.getLsbD_eq_getElem]

/-- A display-control byte is no data command, has high nibble 8, and carries its two fields (R95). -/
theorem dcByte_fields (on : Bool) (l : BitVec 3) :
    dcByte on l ≠ cmdAutoByte ∧ dcByte on l ≠ cmdReadByte ∧ dcByte on l ≠ cmdFixedByte ∧
    (dcByte on l).extractLsb' 4 4 = 0x8#4 ∧ (dcByte on l).getLsbD 3 = on ∧ (dcByte on l).extractLsb' 0 3 = l := by
  revert on l
  decide

/-- An admitted address byte does not wrap. -/
theorem addrByte_toNat {cfg : Config} {p : Nat} (h : cfg.addrBase.toNat + p ≤ 0xFF) :
    (addrByte cfg p).toNat = cfg.addrBase.toNat + p := by
  simp only [addrByte, BitVec.toNat_add, BitVec.toNat_ofNat]
  omega

theorem Config.addrOk_of_admitted {cfg : Config} (h : cfg.admitted = true) {p : Nat} (hp : p ≤ 15) :
    cfg.addrOk p = true := by
  simp only [Config.admitted, Config.baseOk, Bool.and_eq_true, List.all_eq_true] at h
  exact h.1.1.1.2 p (by simp; omega)

theorem Config.addr_le_of_admitted {cfg : Config} (h : cfg.admitted = true) {p : Nat} (hp : p ≤ 15) :
    cfg.addrBase.toNat + p ≤ 0xFF := by
  have := Config.addrOk_of_admitted h hp
  simp only [Config.addrOk, Bool.and_eq_true, decide_eq_true_eq] at this
  exact this.1

/-- An admitted address byte is recognised and gives its relative address back (R62, R96). -/
theorem addrByte_recognised {cfg : Config} (h : cfg.admitted = true) {p : Nat} (hp : p ≤ 15) :
    isAddrByte cfg (addrByte cfg p) = true ∧ relAddr cfg (addrByte cfg p) = p := by
  have h1 := addrByte_toNat (Config.addr_le_of_admitted h hp)
  simp only [isAddrByte, relAddr, h1, Bool.and_eq_true, decide_eq_true_eq]
  omega

/-- A byte with high nibble 8 lies in 0x80..0x8F. -/
theorem toNat_of_highNibble {b : Byte} (h : b.extractLsb' 4 4 = 0x8#4) : 0x80 ≤ b.toNat ∧ b.toNat ≤ 0x8F := by
  revert b
  decide

/-- An admitted address byte is no command byte (R9). -/
theorem addrByte_not_command {cfg : Config} {p : Nat} (h : cfg.addrOk p = true) :
    addrByte cfg p ≠ cmdAutoByte ∧ addrByte cfg p ≠ cmdReadByte ∧ addrByte cfg p ≠ cmdFixedByte ∧
    (addrByte cfg p).extractLsb' 4 4 ≠ 0x8#4 := by
  simp only [Config.addrOk, isCommandByte, Bool.and_eq_true, decide_eq_true_eq, Bool.not_eq_true', Bool.or_eq_false_iff,
    Bool.and_eq_false_iff, decide_eq_false_iff_not, beq_eq_false_iff_ne] at h
  have h1 := addrByte_toNat h.1
  refine ⟨fun e => ?_, fun e => ?_, fun e => ?_, fun e => ?_⟩
  · rw [e] at h1; simp [cmdAutoByte] at h1; omega
  · rw [e] at h1; simp [cmdReadByte] at h1; omega
  · rw [e] at h1; simp [cmdFixedByte] at h1; omega
  · have := toNat_of_highNibble e; omega

/-- The whole of what a request word decodes to (R101, R103). -/
theorem decodeRequest_requestWord (op a b : Byte) :
    decodeRequest (requestWord op a b) =
      match op.toNat with
      | 0x01 => .ok .init
      | 0x02 => .ok (.displayVal a b)
      | 0x03 => .ok (.displayDig a b)
      | 0x04 => .ok .displayClear
      | 0x05 => .ok (.writeLed a b)
      | 0x06 => .ok (.writeLeds b)
      | 0x07 => .ok .displayTurnOn
      | 0x08 => .ok .displayTurnOff
      | 0x09 => .ok (.displaySetBrightness b)
      | 0x0A => .ok .reset
      | 0x0B => .ok .test
      | 0x0C => .ok .getButtons
      | 0x0D => .ok (.getButton a)
      | _ => .error (.illegalOp op) := by
  simp only [decodeRequest, opField_requestWord, aField_requestWord, bField_requestWord] <;> rfl

end Sys2Proof
end

