-- ==== Sys2Proof/Laws/Memory.lean ====
section
/-! SUPPORT. The laws of the display-register memory: read after write, frame, canonical form. -/

namespace Sys2Proof.Machine

@[simp] theorem Memory.read_nil (a : Nat) : Memory.read [] a = none := rfl

theorem Memory.read_cons (b : Nat) (v : Byte) (m : Memory) (a : Nat) :
    Memory.read ((b, v) :: m) a = if a = b then some v else m.read a := rfl

/-- A rising list holds no address below its bound. -/
theorem Memory.read_below {m : Memory} {lo a : Nat} (h : m.rising lo = true) (ha : a < lo) : m.read a = none := by
  induction m generalizing lo with
  | nil => rfl
  | cons c m ih =>
    obtain ⟨b, v⟩ := c
    simp only [Memory.rising, Bool.and_eq_true, decide_eq_true_eq] at h
    rw [Memory.read_cons, if_neg (by omega), ih h.2 (by omega)]

/-- Reading after a write: the written byte there, the old one elsewhere. -/
theorem Memory.read_write (m : Memory) (a p : Nat) (v : Byte) :
    (m.write a v).read p = if p = a then some v else m.read p := by
  induction m with
  | nil => simp [Memory.write, Memory.read_cons]
  | cons c m ih =>
    obtain ⟨b, w⟩ := c
    simp only [Memory.write]
    split
    · simp [Memory.read_cons]
    · split
      · subst_vars
        by_cases h : p = b <;> simp [Memory.read_cons, h]
      · by_cases h : p = b
        · subst h
          simp [Memory.read_cons, show ¬ p = a by omega]
        · simp [Memory.read_cons, h, ih]

theorem Memory.rising_mono {m : Memory} {lo lo' : Nat} (h : m.rising lo = true) (hl : lo' ≤ lo) :
    m.rising lo' = true := by
  cases m with
  | nil => rfl
  | cons c m =>
    obtain ⟨b, v⟩ := c
    simp only [Memory.rising, Bool.and_eq_true, decide_eq_true_eq] at h ⊢
    exact ⟨by omega, h.2⟩

/-- A write keeps the addresses rising. -/
theorem Memory.rising_write {m : Memory} {lo a : Nat} (v : Byte) (h : m.rising lo = true) (ha : lo ≤ a) :
    (m.write a v).rising lo = true := by
  induction m generalizing lo with
  | nil => simp [Memory.write, Memory.rising, ha]
  | cons c m ih =>
    obtain ⟨b, w⟩ := c
    simp only [Memory.rising, Bool.and_eq_true, decide_eq_true_eq] at h
    simp only [Memory.write]
    split
    · simp only [Memory.rising, Bool.and_eq_true, decide_eq_true_eq]
      exact ⟨ha, by omega, h.2⟩
    · split
      · subst_vars
        simp only [Memory.rising, Bool.and_eq_true, decide_eq_true_eq]
        exact h
      · simp only [Memory.rising, Bool.and_eq_true, decide_eq_true_eq]
        exact ⟨h.1, ih h.2 (by omega)⟩

theorem Memory.all_write {m : Memory} {a : Nat} (v : Byte) (h : m.all (fun c => c.1 < 16) = true) (ha : a < 16) :
    (m.write a v).all (fun c => c.1 < 16) = true := by
  induction m with
  | nil => simp [Memory.write, ha]
  | cons c m ih =>
    obtain ⟨b, w⟩ := c
    simp only [List.all_cons, Bool.and_eq_true, decide_eq_true_eq] at h
    simp only [Memory.write]
    split
    · simp [ha, h.1, h.2]
    · split
      · simp [ha, h.2]
      · simp [h.1, ih h.2]

/-- A write within the registers keeps the canonical form. -/
theorem Memory.wf_write {m : Memory} {a : Nat} (v : Byte) (h : m.wf = true) (ha : a < 16) :
    (m.write a v).wf = true := by
  simp only [Memory.wf, Bool.and_eq_true] at h ⊢
  exact ⟨Memory.rising_write v h.1 (by omega), Memory.all_write v h.2 ha⟩

/-- Reading after a burst: its bytes at their addresses, the old bytes elsewhere. -/
theorem Memory.read_writeBurst (m : Memory) (a p : Nat) (vs : List Byte) :
    (m.writeBurst a vs).read p = if a ≤ p ∧ p < a + vs.length then vs[p - a]? else m.read p := by
  induction vs generalizing m a with
  | nil => simp [Memory.writeBurst, show ¬ (a ≤ p ∧ p < a) by omega]
  | cons v vs ih =>
    rw [Memory.writeBurst, ih, Memory.read_write]
    by_cases h1 : p = a
    · subst h1
      simp
    · by_cases h2 : a + 1 ≤ p ∧ p < a + 1 + vs.length
      · rw [if_pos h2, if_pos (by simp only [List.length_cons]; omega), show p - a = (p - (a + 1)) + 1 by omega,
          List.getElem?_cons_succ]
      · rw [if_neg h2, if_neg h1, if_neg (by simp only [List.length_cons]; omega)]

/-- A burst within the registers keeps the canonical form. -/
theorem Memory.wf_writeBurst {m : Memory} {a : Nat} (vs : List Byte) (h : m.wf = true) (ha : a + vs.length ≤ 16) :
    (m.writeBurst a vs).wf = true := by
  induction vs generalizing m a with
  | nil => exact h
  | cons v vs ih =>
    simp only [List.length_cons] at ha
    exact ih (Memory.wf_write v h (by omega)) (by omega)

/-- Every window keeps the canonical form. -/
theorem Chip.wf_dataWrite {c : Chip} {p : Nat} (vs : List Byte) (h : c.ram.wf = true) (hp : p ≤ 15) :
    (c.dataWrite p vs).ram.wf = true := by
  unfold Chip.dataWrite
  split
  · split
    · exact Memory.wf_write _ h (by omega)
    · rfl
  · split
    · exact Memory.wf_writeBurst vs h (by assumption)
    · rfl
  · rfl
  · rfl

theorem Chip.wf_command {c : Chip} (b : Byte) (h : c.ram.wf = true) : (c.command b).ram.wf = true := by
  unfold Chip.command
  repeat' split
  all_goals first | exact h | rfl

theorem Chip.wf_observe (cfg : Config) (w : Window) {c : Chip} (h : c.ram.wf = true) :
    (c.observe cfg w).ram.wf = true := by
  unfold Chip.observe
  split
  · exact h
  · split
    · exact Chip.wf_command _ h
    · split
      · exact h
      · rfl
    · rename_i a rest _
      split
      · rename_i h1 _
        simp only [isAddrByte, Bool.and_eq_true, decide_eq_true_eq] at h1
        exact Chip.wf_dataWrite _ h (by simp only [relAddr]; omega)
      · rfl
    · rfl

/-- Once the mark `WIRE_UNDEFINED` is set, no window changes the chip (R65, R309). -/
theorem Chip.observe_of_undefined (cfg : Config) (w : Window) {c : Chip} (h : c.undefined = true) :
    c.observe cfg w = c := by
  simp [Chip.observe, h]

end Sys2Proof.Machine
end

