-- ==== Sys2Proof/Laws/State.lean ====
section
/-! SUPPORT. The fields of the named state updates, and that performing actions commutes with what actions never read:
SEQ, the ports, the turns and the counter of choices. -/

namespace Sys2Proof.Machine

/-! ### The marks -/

@[simp] theorem State.misused_bus_misuse (s : State) : s.misused.bus.misuse = true := rfl
@[simp] theorem State.misused_cfg (s : State) : s.misused.cfg = s.cfg := rfl
@[simp] theorem State.misused_chip (s : State) : s.misused.chip = s.chip := rfl
@[simp] theorem State.misused_lockOwner (s : State) : s.misused.lockOwner = s.lockOwner := rfl
@[simp] theorem State.misused_initDone (s : State) : s.misused.initDone = s.initDone := rfl
@[simp] theorem State.misused_turns (s : State) : s.misused.turns = s.turns := rfl
@[simp] theorem State.misused_later (s : State) : s.misused.later = s.later := rfl
@[simp] theorem State.misused_seq (s : State) : s.misused.seq = s.seq := rfl
@[simp] theorem State.misusedIf_true (s : State) : s.misusedIf true = s.misused := rfl
@[simp] theorem State.misusedIf_false (s : State) : s.misusedIf false = s := rfl

/-- A wire action meets the mark exactly where the sequencer runs. -/
theorem State.intruded_idle {s : State} (h : s.seq = .idle) : s.intruded = s := by
  simp [State.intruded, Seq.running, h]

theorem State.intruded_running {s : State} (h : s.seq ≠ .idle) : s.intruded = s.misused := by
  unfold State.intruded
  cases hq : s.seq with
  | idle => exact absurd hq h
  | run c req k todo => rfl

/-! ### A pin set to output (R133, R346) -/

@[simp] theorem Bus.setDir_win (u : Bus) (l : Line) (p : Nat) (d : PinDir) (f : Bool) :
    (u.setDir l p d f).win = u.win := by cases l <;> cases d <;> rfl
@[simp] theorem Bus.setDir_trace (u : Bus) (l : Line) (p : Nat) (d : PinDir) (f : Bool) :
    (u.setDir l p d f).trace = u.trace := by cases l <;> cases d <;> rfl
@[simp] theorem Bus.setDir_misuse (u : Bus) (l : Line) (p : Nat) (d : PinDir) (f : Bool) :
    (u.setDir l p d f).misuse = u.misuse := by cases l <;> cases d <;> rfl
@[simp] theorem Bus.setDir_pin (u : Bus) (l : Line) (p : Nat) (d : PinDir) (f : Bool) :
    (u.setDir l p d f).pin = u.pin := by cases l <;> cases d <;> rfl

/-! ### The completion -/

@[simp] theorem State.completed_resp (s : State) (d : Byte) : (s.completed d).resp = ⟨.ok, d⟩ := rfl
@[simp] theorem State.completed_bus (s : State) (d : Byte) : (s.completed d).bus = s.bus := rfl
@[simp] theorem State.completed_chip (s : State) (d : Byte) : (s.completed d).chip = s.chip := rfl
@[simp] theorem State.raised_resp (s : State) (e : Status) : (s.raised e).resp = ⟨e, 0⟩ := rfl
@[simp] theorem State.raised_bus (s : State) (e : Status) : (s.raised e).bus = s.bus := rfl
@[simp] theorem State.raised_chip (s : State) (e : Status) : (s.raised e).chip = s.chip := rfl

/-! ### The ports -/

@[simp] theorem State.setPort_ports (s : State) (c : Nat) (p : Port) : (s.setPort c p).ports = s.ports.set c p := rfl
@[simp] theorem State.setPort_bus (s : State) (c : Nat) (p : Port) : (s.setPort c p).bus = s.bus := rfl
@[simp] theorem State.setPort_chip (s : State) (c : Nat) (p : Port) : (s.setPort c p).chip = s.chip := rfl
@[simp] theorem State.setPort_seq (s : State) (c : Nat) (p : Port) : (s.setPort c p).seq = s.seq := rfl
@[simp] theorem State.setPort_lockOwner (s : State) (c : Nat) (p : Port) : (s.setPort c p).lockOwner = s.lockOwner := rfl
@[simp] theorem State.setPort_cfg (s : State) (c : Nat) (p : Port) : (s.setPort c p).cfg = s.cfg := rfl
@[simp] theorem State.setPort_later (s : State) (c : Nat) (p : Port) : (s.setPort c p).later = s.later := rfl
@[simp] theorem State.setPort_turns (s : State) (c : Nat) (p : Port) : (s.setPort c p).turns = s.turns := rfl

/-! ### Lists of actions -/

@[simp] theorem State.performAll_nil (s : State) : s.performAll [] = s := rfl
@[simp] theorem State.performAll_cons (s : State) (a : Action) (l : List Action) :
    s.performAll (a :: l) = (s.perform a).performAll l := rfl

theorem State.performAll_append (s : State) (l r : List Action) :
    s.performAll (l ++ r) = (s.performAll l).performAll r := by
  induction l generalizing s with
  | nil => rfl
  | cons a l ih => exact ih _

/-! ### What no action reads -/

/-- The state with the fields no action reads replaced. -/
def State.withControl (s : State) (q : Seq) (ports : List Port) (turns : List Turn) (choices : Nat) : State :=
  { s with seq := q, ports := ports, turns := turns, choices := choices }

theorem State.prim_withControl (s : State) (q : Seq) (ps : List Port) (ts : List Turn) (g : Nat) (p : Prim) :
    (s.withControl q ps ts g).prim p = (s.prim p).withControl q ps ts g := by
  cases p <;> simp only [State.prim, State.withControl] <;> (try split) <;> rfl

theorem State.checked_withControl (s : State) (q : Seq) (ps : List Port) (ts : List Turn) (g : Nat) (chk : Check) :
    (s.withControl q ps ts g).checked chk = (s.checked chk).withControl q ps ts g := by
  have h : (s.withControl q ps ts g).meets chk = s.meets chk := by cases chk <;> rfl
  simp only [State.checked, h]
  split <;> rfl

theorem State.perform_withControl (s : State) (q : Seq) (ps : List Port) (ts : List Turn) (g : Nat) (a : Action) :
    (s.withControl q ps ts g).perform a = (s.perform a).withControl q ps ts g := by
  cases a with
  | wire chk p => simp only [State.perform, State.checked_withControl, State.prim_withControl]
  | complete r => cases r <;> rfl
  | _ => rfl

/-- An action list acts the same whatever SEQ, the ports, the turns and the counter of choices hold, and leaves
them alone. -/
theorem State.performAll_withControl (s : State) (q : Seq) (ps : List Port) (ts : List Turn) (g : Nat)
    (l : List Action) :
    (s.withControl q ps ts g).performAll l = (s.performAll l).withControl q ps ts g := by
  induction l generalizing s with
  | nil => rfl
  | cons a l ih => simp only [State.performAll_cons, State.perform_withControl, ih]

/-! ### What every action leaves alone -/

theorem State.prim_keeps (s : State) (p : Prim) :
    (s.prim p).cfg = s.cfg ∧ (s.prim p).lockOwner = s.lockOwner ∧ (s.prim p).seq = s.seq ∧
    (s.prim p).ports = s.ports ∧ (s.prim p).turns = s.turns ∧ (s.prim p).choices = s.choices := by
  cases p <;> simp only [State.prim] <;> (try split) <;> simp [State.misused]

theorem State.checked_keeps (s : State) (c : Check) :
    (s.checked c).cfg = s.cfg ∧ (s.checked c).lockOwner = s.lockOwner ∧ (s.checked c).seq = s.seq ∧
    (s.checked c).ports = s.ports ∧ (s.checked c).turns = s.turns ∧ (s.checked c).choices = s.choices := by
  simp only [State.checked]
  split <;> simp [State.misused]

theorem State.perform_keeps (s : State) (a : Action) :
    (s.perform a).cfg = s.cfg ∧ (s.perform a).lockOwner = s.lockOwner ∧ (s.perform a).seq = s.seq ∧
    (s.perform a).ports = s.ports ∧ (s.perform a).turns = s.turns ∧ (s.perform a).choices = s.choices := by
  cases a with
  | wire chk p =>
    have h1 := State.prim_keeps (s.checked chk) p
    have h2 := State.checked_keeps s chk
    simp only [State.perform]
    simp [h1, h2]
  | _ => exact ⟨rfl, rfl, rfl, rfl, rfl, rfl⟩

/-- An action list keeps the parameters, the lock owner, SEQ, the ports, the turns and the counter of choices. -/
theorem State.performAll_keeps (s : State) (l : List Action) :
    (s.performAll l).cfg = s.cfg ∧ (s.performAll l).lockOwner = s.lockOwner ∧ (s.performAll l).seq = s.seq ∧
    (s.performAll l).ports = s.ports ∧ (s.performAll l).turns = s.turns ∧ (s.performAll l).choices = s.choices := by
  induction l generalizing s with
  | nil => exact ⟨rfl, rfl, rfl, rfl, rfl, rfl⟩
  | cons a l ih =>
    have h1 := State.perform_keeps s a
    have h2 := ih (s.perform a)
    simp only [State.performAll_cons]
    simp [h1, h2]

/-- No action changes the turns that come when the listed ones are used up. -/
theorem State.perform_later (s : State) (a : Action) : (s.perform a).later = s.later := by
  cases a with
  | wire chk p =>
    have h : (s.checked chk).later = s.later := by simp only [State.checked]; split <;> rfl
    rw [← h]
    cases p <;> simp only [State.perform, State.prim] <;> (try split) <;> rfl
  | _ => rfl

theorem State.performAll_later (s : State) (l : List Action) : (s.performAll l).later = s.later := by
  induction l generalizing s with
  | nil => rfl
  | cons a l ih => exact (ih (s.perform a)).trans (s.perform_later a)

/-! ### The request-level run is the sequencer's steps, one after another (R7, R263) -/

/-- The meaning of a request is its action list, performed. -/
theorem exec_request (i : Instr) (s : State) (h : ∃ w, decodeRequest w = .ok i) :
    exec i s = runOperation (requestProgram i s) s := by
  obtain ⟨w, hw⟩ := h
  cases i <;> first | rfl | (unfold decodeRequest at hw; split at hw <;> cases hw)

end Sys2Proof.Machine
end

