-- ==== Sys2Proof/Laws/Wire.lean ====
section
/-! SUPPORT. The spec lemmas of the transport and the protocol encoder: what a byte, a window and a whole sequence do to
the state, said once (R130, R131, R160 to R164). -/

namespace Sys2Proof.Machine

/-! ### Bits and bytes (R90) -/

theorem byteOfBits_bits (b : Byte) :
    byteOfBits [b.getLsbD 0, b.getLsbD 1, b.getLsbD 2, b.getLsbD 3, b.getLsbD 4, b.getLsbD 5, b.getLsbD 6,
      b.getLsbD 7] = b := by
  revert b
  decide +kernel

theorem itemOf_bitsOut (b : Byte) : itemOf (bitsOut b) = .out b := by
  have h : (bitsOut b).mapM WireBit.outLevel =
      some [b.getLsbD 0, b.getLsbD 1, b.getLsbD 2, b.getLsbD 3, b.getLsbD 4, b.getLsbD 5, b.getLsbD 6, b.getLsbD 7] := by
    simp [bitsOut, bitTimes, WireBit.outLevel]
  simp only [itemOf, h, byteOfBits_bits]

/-- The bits of one byte shifted in. -/
def bitsIn (b : Byte) : List WireBit := bitTimes.map fun j => .inp (b.getLsbD j)

theorem itemOf_bitsIn (b : Byte) : itemOf (bitsIn b) = .inp b := by
  have h : (bitsIn b).mapM WireBit.inLevel =
      some [b.getLsbD 0, b.getLsbD 1, b.getLsbD 2, b.getLsbD 3, b.getLsbD 4, b.getLsbD 5, b.getLsbD 6, b.getLsbD 7] := by
    simp [bitsIn, bitTimes, WireBit.inLevel]
  have h' : (bitsIn b).mapM WireBit.outLevel = none := by simp [bitsIn, bitTimes, WireBit.outLevel]
  simp only [itemOf, h, h', byteOfBits_bits]

theorem itemsOf_bitsOut_append (b : Byte) (rest : List WireBit) :
    itemsOf (bitsOut b ++ rest) = .out b :: itemsOf rest := by
  rw [← itemOf_bitsOut b]
  rfl

theorem itemsOf_bitsIn_append (b : Byte) (rest : List WireBit) :
    itemsOf (bitsIn b ++ rest) = .inp b :: itemsOf rest := by
  rw [← itemOf_bitsIn b]
  rfl

theorem itemsOf_bitsOut_list (bytes : List Byte) : itemsOf (bytes.flatMap bitsOut) = outW bytes := by
  induction bytes with
  | nil => rfl
  | cons b bytes ih => rw [List.flatMap_cons, itemsOf_bitsOut_append, ih]; rfl

theorem itemsOf_bitsIn_list (bytes : List Byte) : itemsOf (bytes.flatMap bitsIn) = bytes.map .inp := by
  induction bytes with
  | nil => rfl
  | cons b bytes ih => rw [List.flatMap_cons, itemsOf_bitsIn_append, ih]; rfl

/-! ### One byte out (R130) -/

/-- The state after one bit has gone out in an open window. -/
def State.bitSent (s : State) (b : Bool) : State :=
  { s with bus := { s.bus with
      lvlDio := some b, lvlClk := some false, win := s.bus.win.map (· ++ [.out b]),
      log := (Event.setLevel .dio s.cfg.pinDio b :: pulseEvents s.cfg).reverse ++ s.bus.log } }

theorem State.performAll_shiftOutBit {s : State} {bits : List WireBit} (h : s.InOutWindow bits) (b : Bool) :
    s.performAll (shiftOutBit s.cfg b) = s.bitSent b := by
  obtain ⟨hl, ⟨hc, hd, hs⟩, hdir, hstb, hw⟩ := h
  obtain ⟨c, hl⟩ := Option.ne_none_iff_exists'.mp hl
  simp [shiftOutBit, clockPulse, State.perform, State.checked, State.meets, State.prim, Bus.pin, Bus.setLevel,
    Bus.clocked, Bus.outBit, Bus.delay, State.chipAfter, State.bitSent, pulseEvents, hl, hc, hd, hdir, hstb, hw]

theorem State.InOutWindow.bitSent {s : State} {bits : List WireBit} (h : s.InOutWindow bits) (b : Bool) :
    (s.bitSent b).InOutWindow (bits ++ [.out b]) := by
  obtain ⟨hl, hp, hdir, hstb, hw⟩ := h
  exact ⟨hl, hp, hdir, hstb, by simp [State.bitSent, hw]⟩

/-- The state after one byte has gone out in an open window. -/
def State.byteSent (s : State) (b : Byte) : State :=
  { s with bus := { s.bus with
      lvlDio := some (b.getLsbD 7), lvlClk := some false, win := s.bus.win.map (· ++ bitsOut b),
      log := (byteOutEvents s.cfg b).reverse ++ s.bus.log } }

theorem State.InOutWindow.byteSent {s : State} {bits : List WireBit} (h : s.InOutWindow bits) (b : Byte) :
    (s.byteSent b).InOutWindow (bits ++ bitsOut b) := by
  obtain ⟨hl, hp, hdir, hstb, hw⟩ := h
  exact ⟨hl, hp, hdir, hstb, by simp [State.byteSent, hw]⟩

/-- `shift_out(LSB, b)` in an open window: 40 actions, the byte's 8 bits, bit 0 first (R130). -/
theorem State.performAll_shiftOut {s : State} {bits : List WireBit} (h : s.InOutWindow bits) (b : Byte) :
    s.performAll (shiftOut s.cfg .lsb b) = s.byteSent b := by
  have step : ∀ (l : List Bool) (t : State) (tb : List WireBit), t.InOutWindow tb → t.cfg = s.cfg →
      t.performAll (l.flatMap (shiftOutBit s.cfg)) = l.foldl State.bitSent t := by
    intro l
    induction l with
    | nil => intros; rfl
    | cons x l ih =>
      intro t tb ht hcfg
      rw [List.flatMap_cons, State.performAll_append, ← hcfg, State.performAll_shiftOutBit ht, hcfg]
      exact ih _ _ (ht.bitSent x) hcfg
  have := step [b.getLsbD 0, b.getLsbD 1, b.getLsbD 2, b.getLsbD 3, b.getLsbD 4, b.getLsbD 5, b.getLsbD 6,
    b.getLsbD 7] s bits h rfl
  have hl : shiftOut s.cfg .lsb b = [b.getLsbD 0, b.getLsbD 1, b.getLsbD 2, b.getLsbD 3, b.getLsbD 4, b.getLsbD 5,
    b.getLsbD 6, b.getLsbD 7].flatMap (shiftOutBit s.cfg) := rfl
  rw [hl, this]
  simp [State.bitSent, State.byteSent, h.window, bitsOut, bitTimes, byteOutEvents, List.range, List.range.loop]

/-- The state after several bytes have gone out in an open window. -/
def State.bytesSent (s : State) (bytes : List Byte) : State := bytes.foldl State.byteSent s

theorem State.bytesSent_cfg (s : State) (bytes : List Byte) : (s.bytesSent bytes).cfg = s.cfg := by
  induction bytes generalizing s with
  | nil => rfl
  | cons b bytes ih => exact ih _

theorem State.InOutWindow.bytesSent {s : State} {bits : List WireBit} (h : s.InOutWindow bits) (bytes : List Byte) :
    (s.bytesSent bytes).InOutWindow (bits ++ bytes.flatMap bitsOut) := by
  induction bytes generalizing s bits with
  | nil => simpa [State.bytesSent] using h
  | cons b bytes ih =>
    have := ih (h.byteSent b)
    simpa [State.bytesSent] using this

theorem State.performAll_shiftOuts {s : State} {bits : List WireBit} (h : s.InOutWindow bits) (bytes : List Byte) :
    s.performAll (bytes.flatMap (shiftOut s.cfg .lsb)) = s.bytesSent bytes := by
  induction bytes generalizing s bits with
  | nil => rfl
  | cons b bytes ih =>
    rw [List.flatMap_cons, State.performAll_append, State.performAll_shiftOut h]
    exact ih (h.byteSent b)

/-- What bytes going out do to the state, in one record. -/
theorem State.bytesSent_eq {s : State} {bits : List WireBit} (h : s.InOutWindow bits) (bytes : List Byte) :
    s.bytesSent bytes = { s with bus := { s.bus with
      lvlDio := (bytes.getLast?.map (·.getLsbD 7)).or s.bus.lvlDio,
      lvlClk := if bytes = [] then s.bus.lvlClk else some false,
      win := some (bits ++ bytes.flatMap bitsOut),
      log := (bytes.flatMap (byteOutEvents s.cfg)).reverse ++ s.bus.log } } := by
  induction bytes generalizing s bits with
  | nil => simp [State.bytesSent, ← h.window]
  | cons b bytes ih =>
    have := ih (h.byteSent b)
    rw [show s.bytesSent (b :: bytes) = (s.byteSent b).bytesSent bytes from rfl, this]
    cases bytes with
    | nil => simp [State.byteSent]
    | cons b' bytes =>
      obtain ⟨x, hx⟩ : ∃ x, (b' :: bytes).getLast? = some x := ⟨_, List.getLast?_eq_some_getLast (by simp)⟩
      simp [State.byteSent, hx, List.getLast?_cons_cons]

/-! ### A window out (R160) -/

/-- The state just after STB has fallen between windows. -/
def State.windowOpened (s : State) : State :=
  { s with bus := { s.bus with lvlStb := some false, win := some [], log := (openEvents s.cfg).reverse ++ s.bus.log } }

theorem State.performAll_openWindow {s : State} (h : s.Between) : s.performAll (openWindow s.cfg) = s.windowOpened := by
  obtain ⟨hl, ⟨hc, hd, hs⟩, hdir, hstb, hw⟩ := h
  obtain ⟨c, hl⟩ := Option.ne_none_iff_exists'.mp hl
  unfold openWindow
  split <;> simp [State.perform, State.checked, State.meets, State.prim, Bus.pin, Bus.setLevel, Bus.delay,
    State.chipAfter, State.windowOpened, openEvents, *]

theorem State.Between.windowOpened {s : State} (h : s.Between) : s.windowOpened.InOutWindow [] :=
  ⟨h.locked, h.pins, h.driving, rfl, rfl⟩

/-- The state after STB has risen and the settle delay has passed. -/
def State.windowClosed (s : State) (bits : List WireBit) : State :=
  { s with
      bus := { s.bus with lvlStb := some true, win := none, trace := itemsOf bits :: s.bus.trace,
                          log := (closeEvents s.cfg).reverse ++ s.bus.log }
      chip := s.chip.observe s.cfg (itemsOf bits) }

theorem State.performAll_closeWindow {s : State} {bits : List WireBit} (hp : s.pinsBound) (hw : s.bus.win = some bits) :
    s.performAll (closeWindow s.cfg) = s.windowClosed bits := by
  obtain ⟨hc, hd, hs⟩ := hp
  simp [closeWindow, State.perform, State.checked, State.meets, State.prim, Bus.pin, Bus.setLevel, Bus.delay,
    State.chipAfter, State.windowClosed, closeEvents, hs, hw]

/-- The state after an all-`Out` window: the window is on the transaction trace, its events on the wire trace, its
effect on the chip; between windows again. -/
def State.sent (s : State) (bytes : List Byte) : State :=
  { s with
      bus := { s.bus with
        lvlDio := (bytes.getLast?.map (·.getLsbD 7)).or s.bus.lvlDio
        lvlClk := if bytes = [] then s.bus.lvlClk else some false
        lvlStb := some true
        win := none
        log := (outWindowEvents s.cfg bytes).reverse ++ s.bus.log
        trace := outW bytes :: s.bus.trace }
      chip := s.chip.observe s.cfg (outW bytes) }

/-- `window(items)` for an all-`Out` window (R160). -/
theorem State.performAll_outWindow {s : State} (h : s.Between) (bytes : List Byte) :
    s.performAll (outWindow s.cfg bytes) = s.sent bytes := by
  have h1 := h.windowOpened
  have h2 : s.performAll (openWindow s.cfg ++ bytes.flatMap (shiftOut s.cfg .lsb)) = s.windowOpened.bytesSent bytes := by
    rw [State.performAll_append, State.performAll_openWindow h]
    exact State.performAll_shiftOuts h1 bytes
  have h3 := h1.bytesSent bytes
  rw [outWindow, State.performAll_append, h2, ← show (s.windowOpened.bytesSent bytes).cfg = s.cfg from
    State.bytesSent_cfg _ _, State.performAll_closeWindow h3.pins h3.window, State.bytesSent_eq h1]
  simp [State.windowClosed, State.windowOpened, State.sent, itemsOf_bitsOut_list, outWindowEvents]

/-- A window leaves the block between windows. -/
theorem State.Between.sent {s : State} (h : s.Between) (bytes : List Byte) : (s.sent bytes).Between :=
  ⟨h.locked, h.pins, h.driving, rfl, rfl⟩

/-! ### Several windows out -/

/-- The state after several all-`Out` windows. -/
def State.sentAll (s : State) (ws : List (List Byte)) : State := ws.foldl State.sent s

/-- The chip after several all-`Out` windows. -/
def Chip.observeAll (cfg : Config) (ws : List (List Byte)) (c : Chip) : Chip :=
  ws.foldl (fun c w => c.observe cfg (outW w)) c

theorem State.Between.sentAll {s : State} (h : s.Between) (ws : List (List Byte)) : (s.sentAll ws).Between := by
  induction ws generalizing s with
  | nil => exact h
  | cons w ws ih => exact ih (h.sent w)

theorem State.sentAll_append (s : State) (l r : List (List Byte)) : s.sentAll (l ++ r) = (s.sentAll l).sentAll r := by
  simp [State.sentAll]

theorem State.performAll_outWindows {s : State} (h : s.Between) (ws : List (List Byte)) :
    s.performAll (ws.flatMap (outWindow s.cfg)) = s.sentAll ws := by
  induction ws generalizing s with
  | nil => rfl
  | cons w ws ih =>
    rw [List.flatMap_cons, State.performAll_append, State.performAll_outWindow h]
    exact ih (h.sent w)

/-- The last bit of a list of windows, as DIO carries it (R332). -/
def lastBit (ws : List (List Byte)) (dio : Option Bool) : Option Bool :=
  ws.foldl (fun d w => (w.getLast?.map (·.getLsbD 7)).or d) dio

/-- What windows of at least one byte do to the state, in one record. -/
theorem State.sentAll_eq {s : State} (h : s.Between) (ws : List (List Byte)) (hne : ∀ w ∈ ws, w ≠ []) :
    s.sentAll ws = { s with
      bus := { s.bus with
        lvlDio := lastBit ws s.bus.lvlDio
        lvlClk := if ws = [] then s.bus.lvlClk else some false
        log := (ws.flatMap (outWindowEvents s.cfg)).reverse ++ s.bus.log
        trace := (ws.map outW).reverse ++ s.bus.trace }
      chip := s.chip.observeAll s.cfg ws } := by
  induction ws generalizing s with
  | nil => rfl
  | cons w ws ih =>
    rw [show s.sentAll (w :: ws) = (s.sent w).sentAll ws from rfl,
      ih (h.sent w) (fun x hx => hne x (List.mem_cons_of_mem _ hx))]
    have hw : w ≠ [] := hne w (List.mem_cons_self ..)
    simp [State.sent, lastBit, Chip.observeAll, hw, h.strobeHigh, h.noWindow]

/-! ### The windows of the internal sequences (R161 to R163) -/

theorem emitDc_eq (cfg : Config) (on : Bool) (l : BitVec 3) :
    emitDc cfg on l = [[dcByte on l]].flatMap (outWindow cfg) := by simp [emitDc]

theorem writeSingle_eq (cfg : Config) (on : Bool) (l : BitVec 3) (p : Nat) (v : Byte) :
    writeSingle cfg on l p v = (singleWindows cfg on l p v).flatMap (outWindow cfg) := by
  simp [writeSingle, singleWindows, emitDc, cmdFixedByte]

theorem writeBurst_eq (cfg : Config) (on : Bool) (l : BitVec 3) (p : Nat) (vs : List Byte) :
    writeBurst cfg on l p vs = (burstWindows cfg on l p vs).flatMap (outWindow cfg) := by
  simp [writeBurst, burstWindows, emitDc, cmdAutoByte]

/-! ### The read window (R131, R164) -/

/-- The state after one bit has come in. -/
def State.bitRead (s : State) (given : Option Bool) (byte bit : Nat) (clears : Bool) : State :=
  { s with
      bus := { s.bus with
        lvlClk := some false, win := s.bus.win.map (· ++ [.inp (s.sampled given)]),
        log := (Event.getLevel .dio s.cfg.pinDio (s.sampled given) :: pulseEvents s.cfg).reverse ++ s.bus.log }
      scan := s.scan.sample byte bit clears (s.sampled given)
      draws := s.draws + drawsTaken given }

theorem State.performAll_shiftInBit {s : State} {bits : List WireBit} (h : s.InReadWindow bits) (given : Option Bool)
    (byte bit : Nat) (clears : Bool) :
    s.performAll (shiftInBit s.cfg given byte bit clears) = s.bitRead given byte bit clears := by
  obtain ⟨hl, ⟨hc, hd, hs⟩, hdir, hstb, hw⟩ := h
  obtain ⟨c, hl⟩ := Option.ne_none_iff_exists'.mp hl
  simp [shiftInBit, clockPulse, State.perform, State.checked, State.meets, State.prim, Bus.pin, Bus.setLevel,
    Bus.getLevel, Bus.clocked, Bus.delay, State.chipAfter, State.bitRead, pulseEvents,
    hl, hc, hd, hdir, hstb, hw]

theorem State.InReadWindow.bitRead {s : State} {bits : List WireBit} (h : s.InReadWindow bits) (given : Option Bool)
    (byte bit : Nat) (clears : Bool) :
    (s.bitRead given byte bit clears).InReadWindow (bits ++ [.inp (s.sampled given)]) := by
  obtain ⟨hl, hp, hdir, hstb, hw⟩ := h
  exact ⟨hl, hp, hdir, hstb, by simp [State.bitRead, hw]⟩

/-- A byte sampled bit by bit, the first sample clearing it, is the byte of the samples (R131). -/
theorem sampleInto_byte (v : Byte) (b0 b1 b2 b3 b4 b5 b6 b7 : Bool) :
    sampleInto (sampleInto (sampleInto (sampleInto (sampleInto (sampleInto (sampleInto (sampleInto v 0 true b0)
      1 false b1) 2 false b2) 3 false b3) 4 false b4) 5 false b5) 6 false b6) 7 false b7 =
    byteOfBits [b0, b1, b2, b3, b4, b5, b6, b7] := by
  have h : sampleInto v 0 true b0 = sampleInto 0 0 true b0 := by simp [sampleInto]
  rw [h]
  clear h
  revert b0 b1 b2 b3 b4 b5 b6 b7
  decide +kernel

/-- `SCAN[byte] <- v`; there are four (R33). -/
def Scan.set (s : Scan) (byte : Nat) (v : Byte) : Scan :=
  match byte with
  | 0 => { s with b0 := v }
  | 1 => { s with b1 := v }
  | 2 => { s with b2 := v }
  | 3 => { s with b3 := v }
  | _ => s

theorem Scan.sample_byte (s : Scan) (i : Nat) (b0 b1 b2 b3 b4 b5 b6 b7 : Bool) :
    (((((((s.sample i 0 true b0).sample i 1 false b1).sample i 2 false b2).sample i 3 false b3).sample i 4 false
      b4).sample i 5 false b5).sample i 6 false b6).sample i 7 false b7 =
    s.set i (byteOfBits [b0, b1, b2, b3, b4, b5, b6, b7]) := by
  match i with
  | 0 => simp only [Scan.sample, Scan.set, sampleInto_byte]
  | 1 => simp only [Scan.sample, Scan.set, sampleInto_byte]
  | 2 => simp only [Scan.sample, Scan.set, sampleInto_byte]
  | 3 => simp only [Scan.sample, Scan.set, sampleInto_byte]
  | n + 4 => rfl

theorem getLsbD_byteOfBits (b0 b1 b2 b3 b4 b5 b6 b7 : Bool) :
    bitTimes.map (byteOfBits [b0, b1, b2, b3, b4, b5, b6, b7]).getLsbD = [b0, b1, b2, b3, b4, b5, b6, b7] := by
  revert b0 b1 b2 b3 b4 b5 b6 b7
  decide +kernel

/-- The state after the oracle has given one byte in an open read window. -/
def State.byteRead (s : State) (byte : Nat) : State :=
  { s with
      bus := { s.bus with
        lvlClk := some false, win := s.bus.win.map (· ++ bitsIn (drawnByte s.draws)),
        log := (byteInEvents s.cfg (drawnByte s.draws)).reverse ++ s.bus.log }
      scan := s.scan.set byte (drawnByte s.draws)
      draws := s.draws + 8 }

theorem State.InReadWindow.byteRead {s : State} {bits : List WireBit} (h : s.InReadWindow bits) (byte : Nat) :
    (s.byteRead byte).InReadWindow (bits ++ bitsIn (drawnByte s.draws)) := by
  obtain ⟨hl, hp, hdir, hstb, hw⟩ := h
  exact ⟨hl, hp, hdir, hstb, by simp [State.byteRead, hw]⟩

theorem drawnByte_eq (n : Nat) : drawnByte n = byteOfBits [Config.scanLevel n, Config.scanLevel (n + 1),
    Config.scanLevel (n + 2), Config.scanLevel (n + 3), Config.scanLevel (n + 4), Config.scanLevel (n + 5),
    Config.scanLevel (n + 6), Config.scanLevel (n + 7)] := rfl

theorem bitsIn_drawnByte (n : Nat) : bitsIn (drawnByte n) = [.inp (Config.scanLevel n), .inp (Config.scanLevel (n + 1)),
    .inp (Config.scanLevel (n + 2)), .inp (Config.scanLevel (n + 3)), .inp (Config.scanLevel (n + 4)),
    .inp (Config.scanLevel (n + 5)), .inp (Config.scanLevel (n + 6)), .inp (Config.scanLevel (n + 7))] := by
  have h : bitsIn (drawnByte n) = (bitTimes.map (drawnByte n).getLsbD).map WireBit.inp := by
    simp [bitsIn, bitTimes]
  rw [h, drawnByte_eq, getLsbD_byteOfBits]
  rfl

theorem byteInEvents_eq (cfg : Config) (b : Byte) :
    byteInEvents cfg b = (bitTimes.map b.getLsbD).flatMap
      (fun x => Event.getLevel .dio cfg.pinDio x :: pulseEvents cfg) := by
  simp [byteInEvents, bitTimes, List.range, List.range.loop]

/-- The samples of one byte, one after another. -/
theorem State.performAll_shiftInBits {s : State} {bits : List WireBit} (h : s.InReadWindow bits) (byte : Nat)
    (l : List (Option Bool × Nat × Bool)) :
    s.performAll (l.flatMap fun x => shiftInBit s.cfg x.1 byte x.2.1 x.2.2) =
      l.foldl (fun t x => t.bitRead x.1 byte x.2.1 x.2.2) s := by
  induction l generalizing s bits with
  | nil => rfl
  | cons x l ih =>
    rw [List.flatMap_cons, State.performAll_append, State.performAll_shiftInBit h]
    exact ih (h.bitRead x.1 byte x.2.1 x.2.2)

/-- `shift_in(LSB)` from the oracle in an open read window (R131, R66). -/
theorem State.performAll_shiftIn {s : State} {bits : List WireBit} (h : s.InReadWindow bits) (byte : Nat) :
    s.performAll (shiftIn s.cfg .lsb none byte) = s.byteRead byte := by
  have := State.performAll_shiftInBits h byte [(none, 0, true), (none, 1, false), (none, 2, false), (none, 3, false),
    (none, 4, false), (none, 5, false), (none, 6, false), (none, 7, false)]
  rw [show shiftIn s.cfg .lsb none byte = [(none, 0, true), (none, 1, false), (none, 2, false), (none, 3, false),
    (none, 4, false), (none, 5, false), (none, 6, false), (none, 7, false)].flatMap
    (fun x => shiftInBit s.cfg x.1 byte x.2.1 x.2.2) from rfl, this]
  simp only [List.foldl_cons, List.foldl_nil, State.bitRead, State.byteRead, State.sampled, drawsTaken,
    Option.getD_none, Option.isSome_none, Bool.false_eq_true, if_false, Scan.sample_byte, byteInEvents_eq]
  rw [bitsIn_drawnByte, drawnByte_eq, getLsbD_byteOfBits]
  simp [h.window, Nat.add_assoc]

/-- The state after another driver of the wire has given the byte `v` in an open read window. -/
def State.byteGiven (s : State) (byte : Nat) (v : Byte) : State :=
  { s with
      bus := { s.bus with
        lvlClk := some false, win := s.bus.win.map (· ++ bitsIn v),
        log := (byteInEvents s.cfg v).reverse ++ s.bus.log }
      scan := s.scan.set byte v }

/-- `shift_in(LSB)` of a given byte in an open read window (R131). -/
theorem State.performAll_shiftInGiven {s : State} {bits : List WireBit} (h : s.InReadWindow bits) (byte : Nat)
    (v : Byte) : s.performAll (shiftIn s.cfg .lsb (some v) byte) = s.byteGiven byte v := by
  have := State.performAll_shiftInBits h byte [(some (v.getLsbD 0), 0, true), (some (v.getLsbD 1), 1, false),
    (some (v.getLsbD 2), 2, false), (some (v.getLsbD 3), 3, false), (some (v.getLsbD 4), 4, false),
    (some (v.getLsbD 5), 5, false), (some (v.getLsbD 6), 6, false), (some (v.getLsbD 7), 7, false)]
  rw [show shiftIn s.cfg .lsb (some v) byte = [(some (v.getLsbD 0), 0, true), (some (v.getLsbD 1), 1, false),
    (some (v.getLsbD 2), 2, false), (some (v.getLsbD 3), 3, false), (some (v.getLsbD 4), 4, false),
    (some (v.getLsbD 5), 5, false), (some (v.getLsbD 6), 6, false), (some (v.getLsbD 7), 7, false)].flatMap
    (fun x => shiftInBit s.cfg x.1 byte x.2.1 x.2.2) from rfl, this]
  simp only [List.foldl_cons, List.foldl_nil, State.bitRead, State.byteGiven, State.sampled, drawsTaken,
    Option.getD_some, Option.isSome_some, if_true, Scan.sample_byte, byteInEvents_eq, byteOfBits_bits]
  simp [h.window, bitsIn, bitTimes]

theorem State.InReadWindow.byteGiven {s : State} {bits : List WireBit} (h : s.InReadWindow bits) (byte : Nat)
    (v : Byte) : (s.byteGiven byte v).InReadWindow (bits ++ bitsIn v) := by
  obtain ⟨hl, hp, hdir, hstb, hw⟩ := h
  exact ⟨hl, hp, hdir, hstb, by simp [State.byteGiven, hw]⟩

/-- The state after the read window has closed: DIO drives again, its level unknown (R133, R164). -/
def State.readClosed (s : State) (bits : List WireBit) : State :=
  { s with
      bus := { s.bus with dioDir := .driving, lvlDio := none, freshDio := some (Config.freshLevel s.outs),
                          lvlStb := some true, win := none,
                          trace := itemsOf bits :: s.bus.trace,
                          log := (.setDir .dio s.cfg.pinDio .out :: closeEvents s.cfg).reverse ++ s.bus.log }
      chip := s.chip.observe s.cfg (itemsOf bits)
      outs := s.outs + 1 }

theorem State.performAll_closeReadWindow {s : State} {bits : List WireBit} (h : s.InReadWindow bits) :
    s.performAll (closeReadWindow s.cfg) = s.readClosed bits := by
  obtain ⟨hl, ⟨hc, hd, hs⟩, hdir, hstb, hw⟩ := h
  simp [closeReadWindow, closeWindow, State.perform, State.checked, State.meets, State.prim, Bus.pin, Bus.setLevel,
    Bus.setDir, freshTaken, Bus.delay, State.chipAfter, State.readClosed, closeEvents, hd, hs, hw]

/-- The state after `read_scan`: the command window and the read window are on the traces, `SCAN` holds the 32
draws, DIO drives again with its level unknown (R164, R133). -/
def State.scanned (s : State) : State :=
  { s with
      bus := { s.bus with
        lvlDio := none, freshDio := some (Config.freshLevel s.outs), lvlClk := some false, dioDir := .driving,
        lvlStb := some true, win := none,
        trace := [(.inp (drawnScan s.draws).b0), (.inp (drawnScan s.draws).b1), (.inp (drawnScan s.draws).b2),
          (.inp (drawnScan s.draws).b3)] :: outW [0x42] :: s.bus.trace,
        log := (outWindowEvents s.cfg [0x42] ++ readWindowEvents s.cfg [(drawnScan s.draws).b0,
          (drawnScan s.draws).b1, (drawnScan s.draws).b2, (drawnScan s.draws).b3]).reverse ++ s.bus.log }
      chip := (s.chip.observe s.cfg (outW [0x42])).observe s.cfg
        [(.inp (drawnScan s.draws).b0), (.inp (drawnScan s.draws).b1), (.inp (drawnScan s.draws).b2),
          (.inp (drawnScan s.draws).b3)]
      scan := drawnScan s.draws
      draws := s.draws + 32
      outs := s.outs + 1 }

/-- The state just after the read window has opened. -/
def State.readOpened (s : State) : State :=
  { s with bus := { s.bus with dioDir := .listening, lvlStb := some false, win := some [],
                               log := .setDir .dio s.cfg.pinDio .inp :: ((openEvents s.cfg).reverse ++ s.bus.log) } }

theorem State.performAll_openReadWindow {s : State} (h : s.Between) :
    s.performAll (openReadWindow s.cfg) = s.readOpened := by
  rw [openReadWindow, State.performAll_append, State.performAll_openWindow h]
  simp [State.perform, State.checked, State.meets, State.prim, Bus.pin, Bus.setDir, freshTaken, State.windowOpened,
    State.readOpened, h.pins.2.1]

theorem State.Between.readOpened {s : State} (h : s.Between) : s.readOpened.InReadWindow [] :=
  ⟨h.locked, h.pins, rfl, rfl, rfl⟩

/-- `read_scan()` (R164). -/
theorem State.performAll_readScan {s : State} (h : s.Between) : s.performAll (readScan s.cfg) = s.scanned := by
  have h0 := h.sent [cmdReadByte]
  have w0 := h0.readOpened
  have w1 := w0.byteRead 0
  have w2 := w1.byteRead 1
  have w3 := w2.byteRead 2
  have w4 := w3.byteRead 3
  have e := State.performAll_openReadWindow h0
  have r0 := State.performAll_shiftIn w0 0
  have r1 := State.performAll_shiftIn w1 1
  have r2 := State.performAll_shiftIn w2 2
  have r3 := State.performAll_shiftIn w3 3
  have c := State.performAll_closeReadWindow w4
  have hitems := itemsOf_bitsIn_list [drawnByte s.draws, drawnByte (s.draws + 8), drawnByte (s.draws + 8 + 8),
    drawnByte (s.draws + 8 + 8 + 8)]
  simp only [State.byteRead, State.readOpened, State.sent] at e r0 r1 r2 r3 c
  rw [readScan, State.performAll_append, State.performAll_append, State.performAll_append,
    State.performAll_outWindow h]
  simp only [List.flatMap_cons, List.flatMap_nil, State.performAll_append, State.performAll_nil]
  simp only [State.sent]
  rw [e, r0, r1, r2, r3, c]
  simp only [List.flatMap_cons, List.flatMap_nil, List.append_nil, List.map_cons, List.map_nil] at hitems
  simp [State.readClosed, State.scanned, drawnScan, Scan.set, readWindowEvents, closeEvents, cmdReadByte, hitems,
    Nat.add_assoc]

theorem State.Between.scanned {s : State} (h : s.Between) : s.scanned.Between :=
  ⟨h.locked, h.pins, rfl, rfl, rfl⟩

end Sys2Proof.Machine
end

