-- ==== Sys2Proof/Laws/Chip.lean ====
section
/-! SUPPORT. What each window of the controller does to the chip (R62 to R66), and what the windows of each internal
sequence do together (R161 to R164). -/

namespace Sys2Proof.Machine

theorem outBytes_outW (vs : List Byte) : outBytes (outW vs) = some vs := by
  induction vs with
  | nil => rfl
  | cons v vs ih => simp only [outW, List.map_cons, outBytes]; simp only [outW] at ih; rw [ih]; rfl

theorem Chip.observe_auto (cfg : Config) {c : Chip} (h : c.undefined = false) :
    c.observe cfg (outW [0x40]) = { c with mode := some .auto } := by
  simp [Chip.observe, Chip.command, outW, h, cmdAutoByte]

theorem Chip.observe_fixed (cfg : Config) {c : Chip} (h : c.undefined = false) :
    c.observe cfg (outW [0x44]) = { c with mode := some .fixed } := by
  simp [Chip.observe, Chip.command, outW, h, cmdAutoByte, cmdFixedByte]

theorem Chip.observe_readCommand (cfg : Config) {c : Chip} (h : c.undefined = false) :
    c.observe cfg (outW [0x42]) = { c with mode := some .read } := by
  simp [Chip.observe, Chip.command, outW, h, cmdAutoByte, cmdFixedByte, cmdReadByte]

theorem Chip.observe_dc (cfg : Config) {c : Chip} (h : c.undefined = false) (on : Bool) (l : BitVec 3) :
    c.observe cfg (outW [dcByte on l]) = { c with dc := some (on, l) } := by
  obtain ⟨h1, h2, h3, h4, h5, h6⟩ := dcByte_fields on l
  simp only [Chip.observe, h, outW, List.map_cons, List.map_nil, Chip.command, if_neg h1, if_neg h2, if_neg h3,
    if_pos h4, h5, h6]
  rfl

/-- A data window of at least one byte at an admitted address is a data write (R62). -/
theorem Chip.observe_data {cfg : Config} (hcfg : cfg.admitted = true) {c : Chip} (h : c.undefined = false) {p : Nat}
    (hp : p ≤ 15) {vs : List Byte} (hvs : vs ≠ []) :
    c.observe cfg (outW (addrByte cfg p :: vs)) = c.dataWrite p vs := by
  obtain ⟨h1, h2⟩ := addrByte_recognised hcfg hp
  obtain ⟨v, vs, rfl⟩ := List.exists_cons_of_ne_nil hvs
  have h3 := outBytes_outW (v :: vs)
  simp only [outW, List.map_cons] at h3 ⊢
  simp only [Chip.observe, h, h1, h2, h3]
  rfl

/-- The read window in read mode changes nothing (R62, R66). -/
theorem Chip.observe_read (cfg : Config) {c : Chip} (hm : c.mode = some .read) (b0 b1 b2 b3 : Byte) :
    c.observe cfg [.inp b0, .inp b1, .inp b2, .inp b3] = c := by
  simp only [Chip.observe, hm, if_true]
  split <;> rfl

theorem Chip.observeAll_append (cfg : Config) (l r : List (List Byte)) (c : Chip) :
    c.observeAll cfg (l ++ r) = (c.observeAll cfg l).observeAll cfg r := by
  simp [Chip.observeAll]

/-- The chip after `write_single(p, v)` (R162). -/
theorem Chip.observeAll_single {cfg : Config} (hcfg : cfg.admitted = true) {c : Chip} (h : c.undefined = false)
    (on : Bool) (l : BitVec 3) {p : Nat} (hp : p ≤ 15) (v : Byte) :
    c.observeAll cfg (singleWindows cfg on l p v) = ⟨c.ram.write p v, some .fixed, some (on, l), false⟩ := by
  simp only [Chip.observeAll, singleWindows, List.foldl_cons, List.foldl_nil]
  rw [Chip.observe_dc cfg h, Chip.observe_fixed cfg (c := { c with dc := some (on, l) }) h,
    Chip.observe_data hcfg (c := { c with dc := some (on, l), mode := some .fixed }) h hp (by simp)]
  simp [Chip.dataWrite, h]

/-- The chip after `write_burst(p, vs)` (R163). -/
theorem Chip.observeAll_burst {cfg : Config} (hcfg : cfg.admitted = true) {c : Chip} (h : c.undefined = false)
    (on : Bool) (l : BitVec 3) {p : Nat} {vs : List Byte} (hvs : vs ≠ []) (hp : p + vs.length ≤ 16) :
    c.observeAll cfg (burstWindows cfg on l p vs) = ⟨c.ram.writeBurst p vs, some .auto, some (on, l), false⟩ := by
  have h1 : 0 < vs.length := List.length_pos_iff.mpr hvs
  simp only [Chip.observeAll, burstWindows, List.foldl_cons, List.foldl_nil]
  rw [Chip.observe_dc cfg h, Chip.observe_auto cfg (c := { c with dc := some (on, l) }) h,
    Chip.observe_data hcfg (c := { c with dc := some (on, l), mode := some .auto }) h (by omega) hvs]
  simp [Chip.dataWrite, h, hp]

/-- The chip after `read_scan` (R164, R66). -/
theorem State.scanned_chip {s : State} (h : s.chip.undefined = false) :
    s.scanned.chip = { s.chip with mode := some .read } := by
  simp only [State.scanned]
  rw [Chip.observe_readCommand s.cfg h]
  exact Chip.observe_read s.cfg rfl _ _ _ _

end Sys2Proof.Machine
end

