-- ==== Sys2Proof/Laws/Operations.lean ====
section
/-! SUPPORT. What the action list of a whole operation does, said once: lists of windows, of single writes and of frames,
and what an operation leaves of the invariant (R193 to R203, R241, R242, R264). -/

namespace Sys2Proof.Machine

/-! ### Windows, then the completion -/

/-- The bus after windows of at least one byte, at least one of them, with `last` the last byte. -/
theorem Sent.of_bus {s t : State} (h : s.Between) {ws : List (List Byte)} (hws : ws ≠ []) (hne : ∀ w ∈ ws, w ≠ [])
    {last : Byte} (hl : lastBit ws s.bus.lvlDio = some (last.getLsbD 7)) (ht : t.bus = (s.sentAll ws).bus) :
    Sent s t ws last := by
  rw [State.sentAll_eq h ws hne] at ht
  simp only [hl, if_neg hws] at ht
  exact ⟨by rw [ht], by simp [State.wireTrace, ht]⟩

theorem lastBit_append (l r : List (List Byte)) (d : Option Bool) : lastBit (l ++ r) d = lastBit r (lastBit l d) := by
  simp [lastBit]

/-- The last bit is that of the last window's last byte. -/
theorem lastBit_concat (l : List (List Byte)) (w : List Byte) (b : Byte) (d : Option Bool) :
    lastBit (l ++ [w ++ [b]]) d = some (b.getLsbD 7) := by
  simp [lastBit]

/-- Windows and the completion `(OK, 0)`, in one record. -/
theorem State.performAll_windows {s : State} (h : s.Between) (ws : List (List Byte)) :
    s.performAll (ws.flatMap (outWindow s.cfg) ++ [.complete .zero]) =
      { s.sentAll ws with resp := ⟨.ok, 0⟩ } := by
  rw [State.performAll_append, State.performAll_outWindows h]
  rfl

/-- Windows change the bus and the chip only. -/
theorem State.sentAll_keeps (s : State) (ws : List (List Byte)) :
    s.sentAll ws = { s with bus := (s.sentAll ws).bus, chip := (s.sentAll ws).chip } := by
  induction ws generalizing s with
  | nil => rfl
  | cons w ws ih =>
    rw [show s.sentAll (w :: ws) = (s.sent w).sentAll ws from rfl, ih (s.sent w)]
    rfl

theorem State.sentAll_chip (s : State) (ws : List (List Byte)) :
    (s.sentAll ws).chip = s.chip.observeAll s.cfg ws := by
  induction ws generalizing s with
  | nil => rfl
  | cons w ws ih => exact ih (s.sent w)

/-! ### Lists of single writes (R196, R198) -/

/-- The windows of several single writes, in order. -/
def pairWindows (cfg : Config) (on : Bool) (level : BitVec 3) (pairs : List (Nat × Byte)) : List (List Byte) :=
  pairs.flatMap fun x => singleWindows cfg on level x.1 x.2

/-- The registers after several single writes. -/
def Memory.writeAll (m : Memory) (pairs : List (Nat × Byte)) : Memory := pairs.foldl (fun m x => m.write x.1 x.2) m

theorem Memory.wf_writeAll {m : Memory} (pairs : List (Nat × Byte)) (h : m.wf = true) (hp : ∀ x ∈ pairs, x.1 ≤ 15) :
    (m.writeAll pairs).wf = true := by
  induction pairs generalizing m with
  | nil => exact h
  | cons x pairs ih =>
    have hx := hp x (List.mem_cons_self ..)
    exact ih (Memory.wf_write _ h (by omega)) (fun y hy => hp y (List.mem_cons_of_mem _ hy))

theorem pairWindows_flatMap (cfg : Config) (on : Bool) (l : BitVec 3) (pairs : List (Nat × Byte)) :
    (pairs.flatMap fun x => writeSingle cfg on l x.1 x.2) = (pairWindows cfg on l pairs).flatMap (outWindow cfg) := by
  induction pairs with
  | nil => rfl
  | cons x pairs ih =>
    simp only [pairWindows, List.flatMap_cons, List.flatMap_append] at ih ⊢
    rw [ih, writeSingle_eq]

theorem pairWindows_ne (cfg : Config) (on : Bool) (l : BitVec 3) (pairs : List (Nat × Byte)) :
    ∀ w ∈ pairWindows cfg on l pairs, w ≠ [] := by
  intro w hw
  simp only [pairWindows, List.mem_flatMap, singleWindows, List.mem_cons, List.not_mem_nil, or_false] at hw
  obtain ⟨x, -, rfl | rfl | rfl⟩ := hw <;> simp

/-- The chip after several single writes (R162). -/
theorem Chip.observeAll_pairs {cfg : Config} (hcfg : cfg.admitted = true) {c : Chip} (h : c.undefined = false)
    (on : Bool) (l : BitVec 3) {pairs : List (Nat × Byte)} (hne : pairs ≠ []) (hp : ∀ x ∈ pairs, x.1 ≤ 15) :
    c.observeAll cfg (pairWindows cfg on l pairs) = ⟨c.ram.writeAll pairs, some .fixed, some (on, l), false⟩ := by
  induction pairs generalizing c with
  | nil => exact absurd rfl hne
  | cons x pairs ih =>
    simp only [pairWindows, List.flatMap_cons] at ih ⊢
    rw [Chip.observeAll_append, Chip.observeAll_single hcfg h on l (hp x (List.mem_cons_self ..))]
    cases pairs with
    | nil => rfl
    | cons y pairs =>
      rw [ih (c := ⟨c.ram.write x.1 x.2, some .fixed, some (on, l), false⟩) rfl (by simp)
        (fun z hz => hp z (List.mem_cons_of_mem _ hz))]
      rfl

/-- The eight writes of `display_clear` (R196). -/
def clearPairs : List (Nat × Byte) := [0, 1, 2, 3, 4, 5, 6, 7].map fun d => (digitAddr d, 0x00)

/-- The eight writes of `write_leds` (R198). -/
def ledPairs (m : Byte) : List (Nat × Byte) :=
  [0, 1, 2, 3, 4, 5, 6, 7].map fun i => (ledAddr (i + 1), boolByte (m.getLsbD i))

/-! ### Frames (R203) -/

theorem burstWindows_ne (cfg : Config) (on : Bool) (l : BitVec 3) (p : Nat) (vs : List Byte) :
    ∀ w ∈ burstWindows cfg on l p vs, w ≠ [] := by
  intro w hw
  simp only [burstWindows, List.mem_cons, List.not_mem_nil, or_false] at hw
  obtain rfl | rfl | rfl := hw <;> simp

/-- The state after one frame of `test` and its hold. -/
def State.frameShown (s : State) (f : List Byte) : State :=
  { s.sentAll (burstWindows s.cfg s.isOn s.brightness 0 f) with
    bus := (s.sentAll (burstWindows s.cfg s.isOn s.brightness 0 f)).bus.delay s.cfg.tTestHold }

theorem State.Between.frameShown {s : State} (h : s.Between) (f : List Byte) : (s.frameShown f).Between := by
  have h' := h.sentAll (burstWindows s.cfg s.isOn s.brightness 0 f)
  have k := State.sentAll_keeps s (burstWindows s.cfg s.isOn s.brightness 0 f)
  exact ⟨h'.locked, h'.pins, h'.driving, h'.strobeHigh, h'.noWindow⟩

theorem State.frameShown_keeps (s : State) (f : List Byte) :
    s.frameShown f = { s with bus := (s.frameShown f).bus, chip := (s.frameShown f).chip } := by
  have k := State.sentAll_keeps s (burstWindows s.cfg s.isOn s.brightness 0 f)
  simp only [State.frameShown]
  rw [k]

/-- The frames of `test`, one after another. -/
theorem State.performAll_frames {s : State} (h : s.Between) (frames : List (List Byte)) :
    s.performAll (frames.flatMap fun f =>
      writeBurst s.cfg s.isOn s.brightness 0 f ++ [.wire .none (.delayUs s.cfg.tTestHold)]) =
      frames.foldl State.frameShown s := by
  induction frames generalizing s with
  | nil => rfl
  | cons f frames ih =>
    have e : s.performAll (writeBurst s.cfg s.isOn s.brightness 0 f ++ [.wire .none (.delayUs s.cfg.tTestHold)]) =
        s.frameShown f := by
      rw [writeBurst_eq, State.performAll_append, State.performAll_outWindows h]
      rfl
    rw [List.flatMap_cons, State.performAll_append, e]
    have hk := State.frameShown_keeps s f
    have := ih (h.frameShown f)
    rw [show (s.frameShown f).cfg = s.cfg by rw [hk], show (s.frameShown f).isOn = s.isOn by rw [hk],
      show (s.frameShown f).brightness = s.brightness by rw [hk]] at this
    exact this

/-- The chip after one frame of 16 bytes. -/
theorem State.frameShown_chip {s : State} (hcfg : s.cfg.admitted = true) (hu : s.chip.undefined = false)
    {f : List Byte} (hf : f.length = 16) :
    (s.frameShown f).chip = ⟨s.chip.ram.writeBurst 0 f, some .auto, some (s.isOn, s.brightness), false⟩ := by
  rw [show (s.frameShown f).chip = (s.sentAll (burstWindows s.cfg s.isOn s.brightness 0 f)).chip from rfl,
    State.sentAll_chip, Chip.observeAll_burst hcfg hu _ _ (by intro e; simp [e] at hf) (by omega)]

theorem Config.frame_length {cfg : Config} (h : cfg.admitted = true) {f : List Byte} (hf : f ∈ cfg.selfTestFrames) :
    f.length = 16 := by
  simp only [Config.admitted, Config.framesOk, Bool.and_eq_true, List.all_eq_true, beq_iff_eq] at h
  exact h.2 f hf

/-! ### The marks stay (R309) -/

theorem Chip.undefined_observe (cfg : Config) (w : Window) {c : Chip} (h : c.undefined = true) :
    (c.observe cfg w).undefined = true := by rw [Chip.observe_of_undefined cfg w h, h]

theorem State.prim_marks (s : State) (p : Prim) :
    (s.bus.misuse = true → (s.prim p).bus.misuse = true) ∧
    (s.chip.undefined = true → (s.prim p).chip.undefined = true) := by
  cases p with
  | setLevel line b =>
    simp only [State.prim]
    split
    · refine ⟨fun h => ?_, fun h => ?_⟩
      · cases line <;> cases b <;> simpa [Bus.setLevel] using h
      · simp only [State.chipAfter]
        split
        · exact Chip.undefined_observe _ _ h
        · exact h
    · exact ⟨fun _ => rfl, id⟩
  | setDir line d =>
    simp only [State.prim]
    split
    · exact ⟨fun h => by simpa using h, id⟩
    · exact ⟨fun _ => rfl, id⟩
  | delayUs t => exact ⟨id, id⟩
  | sample given byte bit clears =>
    simp only [State.prim]
    split
    · exact ⟨id, id⟩
    · exact ⟨fun _ => rfl, id⟩

theorem State.checked_marks (s : State) (c : Check) :
    (s.bus.misuse = true → (s.checked c).bus.misuse = true) ∧ (s.checked c).chip = s.chip := by
  simp only [State.checked]
  split
  · exact ⟨id, rfl⟩
  · exact ⟨fun _ => rfl, rfl⟩

/-- No action clears a mark. -/
theorem State.perform_marks (s : State) (a : Action) :
    (s.bus.misuse = true → (s.perform a).bus.misuse = true) ∧
    (s.chip.undefined = true → (s.perform a).chip.undefined = true) := by
  cases a with
  | wire chk p =>
    have h1 := State.prim_marks (s.checked chk) p
    have h2 := State.checked_marks s chk
    exact ⟨fun h => h1.1 (h2.1 h), fun h => h1.2 (by rw [h2.2]; exact h)⟩
  | _ => exact ⟨id, id⟩

theorem State.performAll_marks (s : State) (l : List Action) :
    (s.bus.misuse = true → (s.performAll l).bus.misuse = true) ∧
    (s.chip.undefined = true → (s.performAll l).chip.undefined = true) := by
  induction l generalizing s with
  | nil => exact ⟨id, id⟩
  | cons a l ih =>
    have h1 := State.perform_marks s a
    have h2 := ih (s.perform a)
    exact ⟨fun h => h2.1 (h1.1 h), fun h => h2.2 (h1.2 h)⟩

/-- The one place an operation can set INIT_DONE is `init`; no action clears it (R22). -/
theorem State.performAll_initDone (s : State) (l : List Action) (h : s.initDone = true) :
    (s.performAll l).initDone = true := by
  induction l generalizing s with
  | nil => exact h
  | cons a l ih =>
    refine ih (s.perform a) ?_
    cases a with
    | wire chk p =>
      have h2 : (s.checked chk).initDone = true := by simp only [State.checked]; split <;> exact h
      cases p <;> simp only [State.perform, State.prim] <;> (try split) <;> exact h2
    | writeInitDone => rfl
    | _ => exact h

/-! ### The display registers stay canonical (R60) -/

theorem State.perform_wf (s : State) (a : Action) (h : s.chip.ram.wf = true) : (s.perform a).chip.ram.wf = true := by
  cases a with
  | wire chk p =>
    have h2 : (s.checked chk).chip.ram.wf = true := by rw [(State.checked_marks s chk).2]; exact h
    cases p with
    | setLevel line b =>
      simp only [State.perform, State.prim]
      split
      · simp only [State.chipAfter]
        split
        · exact Chip.wf_observe _ _ h2
        · exact h2
      · exact h2
    | delayUs t => exact h2
    | setDir line d => simp only [State.perform, State.prim]; split <;> exact h2
    | sample given byte bit clears => simp only [State.perform, State.prim]; split <;> exact h2
  | _ => exact h

theorem State.performAll_wf (s : State) (l : List Action) (h : s.chip.ram.wf = true) :
    (s.performAll l).chip.ram.wf = true := by
  induction l generalizing s with
  | nil => exact h
  | cons a l ih => exact ih _ (State.perform_wf s a h)

end Sys2Proof.Machine
end

