-- ==== Sys2Proof/Laws/Allowed.lean ====
section
/-! SUPPORT. Which actions a list may hold, said once: every meaning is an action list whose actions are allowed when their
turn comes (R21, R193), and what allowed actions keep: the pins once `init` is done (R21), and the transaction trace as the
wire trace gives it (R7). -/

namespace Sys2Proof.Machine

/-! ### Lists that ask nothing of the state -/

/-- An action every state allows. -/
def Action.free : Action → Bool
  | .bindPins | .writeDioDriving => false
  | .wire _ _ | .writeBrightness _ | .writeIsOn _ | .writeInitDone | .foldMask | .complete _ | .raise _ => true

theorem Action.allowed_of_free {a : Action} (h : a.free = true) (s : State) : a.allowed s := by
  cases a with
  | bindPins => exact absurd h (by decide)
  | writeDioDriving => exact absurd h (by decide)
  | _ => trivial

theorem State.allows_of_free {l : List Action} (h : l.all Action.free = true) (s : State) : s.allows l := by
  induction l generalizing s with
  | nil => trivial
  | cons a l ih =>
    simp only [List.all_cons, Bool.and_eq_true] at h
    exact ⟨Action.allowed_of_free h.1 s, ih h.2 _⟩

theorem free_shiftOut (cfg : Config) (o : BitOrder) (b : Byte) : (shiftOut cfg o b).all Action.free = true := rfl

theorem free_shiftIn (cfg : Config) (o : BitOrder) (given : Option Byte) (byte : Nat) :
    (shiftIn cfg o given byte).all Action.free = true := by cases given <;> rfl

theorem free_openWindow (cfg : Config) : (openWindow cfg).all Action.free = true := by
  unfold openWindow
  split <;> rfl

theorem free_closeWindow (cfg : Config) : (closeWindow cfg).all Action.free = true := rfl

theorem free_openReadWindow (cfg : Config) : (openReadWindow cfg).all Action.free = true := by
  simp only [openReadWindow, List.all_append, free_openWindow]
  rfl

theorem free_flatMap {α : Type} (f : α → List Action) (l : List α) (h : ∀ x, (f x).all Action.free = true) :
    (l.flatMap f).all Action.free = true := by
  induction l with
  | nil => rfl
  | cons x l ih => simp only [List.flatMap_cons, List.all_append, h, ih, Bool.and_true]

theorem free_outWindow (cfg : Config) (bytes : List Byte) : (outWindow cfg bytes).all Action.free = true := by
  simp only [outWindow, List.all_append, free_openWindow, free_closeWindow, free_flatMap _ _ (free_shiftOut cfg .lsb),
    Bool.and_true]

theorem free_emitDc (cfg : Config) (on : Bool) (l : BitVec 3) : (emitDc cfg on l).all Action.free = true :=
  free_outWindow _ _

theorem free_writeSingle (cfg : Config) (on : Bool) (l : BitVec 3) (p : Nat) (v : Byte) :
    (writeSingle cfg on l p v).all Action.free = true := by
  simp only [writeSingle, List.all_append, free_emitDc, free_outWindow, Bool.and_true]

theorem free_writeBurst (cfg : Config) (on : Bool) (l : BitVec 3) (p : Nat) (vs : List Byte) :
    (writeBurst cfg on l p vs).all Action.free = true := by
  simp only [writeBurst, List.all_append, free_emitDc, free_outWindow, Bool.and_true]

theorem free_readScan (cfg : Config) : (readScan cfg).all Action.free = true := by
  simp only [readScan, List.all_append, free_outWindow, free_openReadWindow, free_flatMap _ _ (free_shiftIn cfg .lsb none)]
  rfl

theorem free_requireInit {l : List Action} (s : State) (h : l.all Action.free = true) :
    (requireInit s l).all Action.free = true := by
  unfold requireInit
  split
  · exact h
  · rfl

theorem free_requireRange {l : List Action} (b : Bool) (h : l.all Action.free = true) :
    (requireRange b l).all Action.free = true := by
  unfold requireRange
  split
  · exact h
  · rfl

theorem free_append {l r : List Action} (h : l.all Action.free = true) (h' : r.all Action.free = true) :
    (l ++ r).all Action.free = true := by rw [List.all_append, h, h']; rfl

/-- What an action asks does not depend on SEQ, the ports, the turns or the counter of choices. -/
theorem State.allows_withControl (s : State) (q : Seq) (ps : List Port) (ts : List Turn) (g : Nat) (l : List Action) :
    (s.withControl q ps ts g).allows l ↔ s.allows l := by
  induction l generalizing s with
  | nil => exact Iff.rfl
  | cons a l ih =>
    simp only [State.allows, State.perform_withControl, ih]
    cases a <;> exact Iff.rfl

/-! ### The lists of the meanings -/

/-- `init` binds the pins before INIT_DONE is set, and writes DIO_DIR after `SetDir` (R193). -/
theorem State.allows_initActions (s : State) : s.allows (initActions s) := by
  unfold initActions
  split
  · exact ⟨trivial, trivial⟩
  · rename_i h
    have h : s.initDone = false := by simpa using h
    exact ⟨h, trivial, trivial, trivial, trivial, trivial, trivial, rfl, trivial, trivial, trivial, trivial, trivial⟩

/-- Every operation's list holds allowed actions only. -/
theorem State.allows_requestProgram (i : Instr) (s : State) : s.allows (requestProgram i s) := by
  have single : ∀ p v, (writeSingleNow s p v).all Action.free = true := fun p v => free_writeSingle _ _ _ _ _
  have dcOnly : ∀ a on l, a.free = true →
      (a :: (emitDc s.cfg on l ++ [.complete .zero])).all Action.free = true := fun a on l ha => by
    rw [List.all_cons, ha, free_append (free_emitDc s.cfg on l) rfl]; rfl
  cases i with
  | init => exact s.allows_initActions
  | displayVal d h =>
    exact State.allows_of_free (free_requireInit _ (free_requireRange _ (free_append (single _ _) rfl))) s
  | displayDig d v =>
    exact State.allows_of_free (free_requireInit _ (free_requireRange _ (free_append (single _ _) rfl))) s
  | displayClear =>
    exact State.allows_of_free (free_requireInit _ (free_append (free_flatMap _ _ fun _ => single _ _) rfl)) s
  | writeLed n st =>
    exact State.allows_of_free (free_requireInit _ (free_requireRange _ (free_append (single _ _) rfl))) s
  | writeLeds m =>
    exact State.allows_of_free (free_requireInit _ (free_append (free_flatMap _ _ fun _ => single _ _) rfl)) s
  | displayTurnOn => exact State.allows_of_free (free_requireInit _ (dcOnly _ _ _ rfl)) s
  | displayTurnOff => exact State.allows_of_free (free_requireInit _ (dcOnly _ _ _ rfl)) s
  | displaySetBrightness l =>
    exact State.allows_of_free (free_requireInit _ (free_requireRange _ (dcOnly _ _ _ rfl))) s
  | reset => exact State.allows_of_free (free_requireInit _ (free_append (free_writeBurst _ _ _ _ _) rfl)) s
  | test =>
    exact State.allows_of_free (free_requireInit _ (free_append (free_flatMap _ _ fun _ =>
      free_append (free_writeBurst _ _ _ _ _) rfl) rfl)) s
  | getButtons => exact State.allows_of_free (free_requireInit _ (free_append (free_readScan _) rfl)) s
  | getButton k =>
    exact State.allows_of_free (free_requireInit _ (free_requireRange _ (free_append (free_readScan _) rfl))) s
  | cmdAuto | cmdRead | cmdFixed | dctl _ _ | addr _ | data _ | scanb _ => exact trivial

/-- A request's list holds allowed actions only, whatever its word. -/
theorem State.allows_requestActions (req : ReqWord) (s : State) : s.allows (requestActions req s) := by
  unfold requestActions
  split
  · exact State.allows_requestProgram _ s
  · exact ⟨trivial, trivial⟩

theorem State.allows_strobeActions (s t : State) : s.allows (strobeActions t) := by
  unfold strobeActions
  split <;> exact State.allows_of_free rfl s

/-! ### Every meaning is an action list (R27, R263) -/

/-- Whatever the instruction, its meaning performs a list of allowed actions and at most moves SEQ. -/
theorem exec_performs (i : Instr) (s : State) :
    ∃ (l : List Action) (q : Seq), s.allows l ∧ exec i s = .next { s.performAll l with seq := q } := by
  have onWire : ∀ l : List Action, l.all Action.free = true →
      ∃ (l' : List Action) (q : Seq), s.allows l' ∧ runOnWire l s = .next { s.performAll l' with seq := q } := by
    intro l hl
    obtain ⟨-, -, h, -⟩ := State.performAll_keeps s l
    exact ⟨l, s.seq, State.allows_of_free hl s, by simp only [runOnWire, ← h]⟩
  have request : ∀ w, decodeRequest w = .ok i →
      ∃ (l : List Action) (q : Seq), s.allows l ∧ exec i s = .next { s.performAll l with seq := q } := fun w hw =>
    ⟨_, _, State.allows_requestProgram i s, exec_request i s ⟨w, hw⟩⟩
  cases i with
  | cmdAuto => exact onWire _ (free_outWindow _ _)
  | cmdRead => exact onWire _ (free_outWindow _ _)
  | cmdFixed => exact onWire _ (free_outWindow _ _)
  | dctl on level => exact onWire _ (free_emitDc _ _ _)
  | addr p => exact onWire _ (free_append (free_openWindow _) (free_shiftOut _ _ _))
  | data v => exact onWire _ (free_shiftOut _ _ _)
  | scanb v =>
    refine onWire _ (free_append ?_ (free_shiftIn _ _ _ _))
    split
    · exact free_openReadWindow _
    · rfl
  | init => exact ⟨_, _, State.allows_requestProgram .init s, rfl⟩
  | displayVal d h => exact ⟨_, _, State.allows_requestProgram (.displayVal d h) s, rfl⟩
  | displayDig d v => exact ⟨_, _, State.allows_requestProgram (.displayDig d v) s, rfl⟩
  | displayClear => exact ⟨_, _, State.allows_requestProgram .displayClear s, rfl⟩
  | writeLed n st => exact ⟨_, _, State.allows_requestProgram (.writeLed n st) s, rfl⟩
  | writeLeds m => exact ⟨_, _, State.allows_requestProgram (.writeLeds m) s, rfl⟩
  | displayTurnOn => exact ⟨_, _, State.allows_requestProgram .displayTurnOn s, rfl⟩
  | displayTurnOff => exact ⟨_, _, State.allows_requestProgram .displayTurnOff s, rfl⟩
  | displaySetBrightness l => exact ⟨_, _, State.allows_requestProgram (.displaySetBrightness l) s, rfl⟩
  | reset => exact ⟨_, _, State.allows_requestProgram .reset s, rfl⟩
  | test => exact ⟨_, _, State.allows_requestProgram .test s, rfl⟩
  | getButtons => exact ⟨_, _, State.allows_requestProgram .getButtons s, rfl⟩
  | getButton k => exact ⟨_, _, State.allows_requestProgram (.getButton k) s, rfl⟩

/-- A request word's meaning is its action list, performed, legal or not (R262, R293). -/
theorem runRequest_eq (req : ReqWord) (s : State) : runRequest req s = runOperation (requestActions req s) s := by
  unfold runRequest requestActions
  cases hd : decodeRequest req with
  | ok i => exact exec_request i s ⟨req, hd⟩
  | error e => rfl

/-- A request word, legal or not, performs a list of allowed actions and at most moves SEQ. -/
theorem runRequest_performs (req : ReqWord) (s : State) :
    ∃ (l : List Action) (q : Seq), s.allows l ∧ runRequest req s = .next { s.performAll l with seq := q } :=
  ⟨_, _, State.allows_requestActions req s, runRequest_eq req s⟩

/-! ### What an allowed action keeps -/

theorem Bus.setLevel_pin (u : Bus) (l : Line) (p : Nat) (b : Bool) : (u.setLevel l p b).pin = u.pin := by
  cases l <;> cases b <;> rfl

/-- No wire primitive binds a pin. -/
theorem State.prim_pin (s : State) (p : Prim) : (s.prim p).bus.pin = s.bus.pin := by
  cases p <;> simp only [State.prim] <;> (try split) <;>
    first | rfl | exact Bus.setLevel_pin _ _ _ _ | exact Bus.setDir_pin _ _ _ _ _

/-- Once `init` is done no allowed action changes a pin (R21). -/
theorem State.perform_pin {s : State} {a : Action} (ha : a.allowed s) (hi : s.initDone = true) :
    (s.perform a).bus.pin = s.bus.pin := by
  cases a with
  | wire chk p =>
    have h : (s.checked chk).bus.pin = s.bus.pin := by simp only [State.checked]; split <;> rfl
    exact (State.prim_pin _ p).trans h
  | bindPins => exact absurd (hi.symm.trans ha) (by decide)
  | _ => rfl

theorem State.performAll_pin {s : State} {l : List Action} (h : s.allows l) (hi : s.initDone = true) :
    (s.performAll l).bus.pin = s.bus.pin := by
  induction l generalizing s with
  | nil => rfl
  | cons a l ih =>
    exact (ih h.2 (State.performAll_initDone s [a] hi)).trans (State.perform_pin h.1 hi)

end Sys2Proof.Machine
end

