-- ==== Sys2Proof/Laws/PerInstr.lean ====
section
/-! SUPPORT. Laws stated once per instruction: the encoding of each is the one its row of spec/opcode_table.json gives. -/

namespace Sys2Proof.Laws.EncodingMatchesTable

/-- The row of spec/opcode_table.json: its width in bits, its match and its mask. -/
def row (i : Instr) : Nat × Nat × Nat :=
  match i with
  | .init => (24, 0x010000, 0xFF0000)
  | .displayVal _ _ => (24, 0x020000, 0xFF0000)
  | .displayDig _ _ => (24, 0x030000, 0xFF0000)
  | .displayClear => (24, 0x040000, 0xFF0000)
  | .writeLed _ _ => (24, 0x050000, 0xFF0000)
  | .writeLeds _ => (24, 0x060000, 0xFF0000)
  | .displayTurnOn => (24, 0x070000, 0xFF0000)
  | .displayTurnOff => (24, 0x080000, 0xFF0000)
  | .displaySetBrightness _ => (24, 0x090000, 0xFF0000)
  | .reset => (24, 0x0A0000, 0xFF0000)
  | .test => (24, 0x0B0000, 0xFF0000)
  | .getButtons => (24, 0x0C0000, 0xFF0000)
  | .getButton _ => (24, 0x0D0000, 0xFF0000)
  | .cmdAuto => (8, 0x40, 0xFF)
  | .cmdRead => (8, 0x42, 0xFF)
  | .cmdFixed => (8, 0x44, 0xFF)
  | .dctl _ _ => (8, 0x80, 0xF0)
  | .addr _ => (8, 0xC0, 0xF0)
  | .data _ => (8, 0x00, 0x00)
  | .scanb _ => (8, 0x00, 0x00)

/-- An encoded form has the row's width and, under the row's mask, the row's match. -/
def fits (e : Encoded) (r : Nat × Nat × Nat) : Prop :=
  match e with
  | .request w => r.1 = 24 ∧ w &&& BitVec.ofNat 24 r.2.2 = BitVec.ofNat 24 r.2.1
  | .wire _ b => r.1 = 8 ∧ b &&& BitVec.ofNat 8 r.2.2 = BitVec.ofNat 8 r.2.1

/-- The encoding of an instruction fits its row; the table shows the address byte for the default parameters. -/
def Statement (i : Instr) : Prop := fits (encode Config.default i) (row i)

/-- The operation field alone decides what a request word has under the table's mask (R100). -/
theorem requestWord_masked (op a b : Byte) : requestWord op a b &&& 0xFF0000#24 = requestWord op 0 0 := by
  apply BitVec.eq_of_getLsbD_eq
  intro i hi
  have h : (0xFF0000#24).getLsbD i = decide (16 ≤ i) := by
    interval_cases i <;> rfl
  rw [BitVec.getLsbD_and, getLsbD_requestWord, getLsbD_requestWord, h]
  by_cases h1 : i < 8
  · simp [h1, show ¬ 16 ≤ i by omega]
  · by_cases h2 : i - 8 < 8
    · simp [h1, h2, show ¬ 16 ≤ i by omega]
    · simp [h1, h2, show 16 ≤ i by omega]

theorem init : Statement .init := ⟨rfl, by decide⟩
theorem displayVal (d h : Byte) : Statement (.displayVal d h) := ⟨rfl, (requestWord_masked 0x02 d h).trans (by show _ = BitVec.ofNat 24 _; simp only [row]; decide)⟩
theorem displayDig (d v : Byte) : Statement (.displayDig d v) := ⟨rfl, (requestWord_masked 0x03 d v).trans (by show _ = BitVec.ofNat 24 _; simp only [row]; decide)⟩
theorem displayClear : Statement .displayClear := ⟨rfl, by decide⟩
theorem writeLed (n s : Byte) : Statement (.writeLed n s) := ⟨rfl, (requestWord_masked 0x05 n s).trans (by show _ = BitVec.ofNat 24 _; simp only [row]; decide)⟩
theorem writeLeds (m : Byte) : Statement (.writeLeds m) := ⟨rfl, (requestWord_masked 0x06 0 m).trans (by show _ = BitVec.ofNat 24 _; simp only [row]; decide)⟩
theorem displayTurnOn : Statement .displayTurnOn := ⟨rfl, by decide⟩
theorem displayTurnOff : Statement .displayTurnOff := ⟨rfl, by decide⟩
theorem displaySetBrightness (l : Byte) : Statement (.displaySetBrightness l) := ⟨rfl, (requestWord_masked 0x09 0 l).trans (by show _ = BitVec.ofNat 24 _; simp only [row]; decide)⟩
theorem reset : Statement .reset := ⟨rfl, by decide⟩
theorem test : Statement .test := ⟨rfl, by decide⟩
theorem getButtons : Statement .getButtons := ⟨rfl, by decide⟩
theorem getButton (k : Byte) : Statement (.getButton k) := ⟨rfl, (requestWord_masked 0x0D k 0).trans (by show _ = BitVec.ofNat 24 _; simp only [row]; decide)⟩
theorem cmdAuto : Statement .cmdAuto := ⟨rfl, by decide⟩
theorem cmdRead : Statement .cmdRead := ⟨rfl, by decide⟩
theorem cmdFixed : Statement .cmdFixed := ⟨rfl, by decide⟩
theorem dctl (on : Bool) (level : BitVec 3) : Statement (.dctl on level) :=
  ⟨rfl, by show dcByte on level &&& 0xF0 = 0x80; revert on level; decide⟩
theorem addr (p : BitVec 4) : Statement (.addr p) :=
  ⟨rfl, by show addrByte Config.default p.toNat &&& 0xF0 = 0xC0; revert p; decide⟩
theorem data (v : Byte) : Statement (.data v) := ⟨rfl, by show v &&& 0x00#8 = 0x00#8; simp⟩
theorem scanb (v : Byte) : Statement (.scanb v) := ⟨rfl, by show v &&& 0x00#8 = 0x00#8; simp⟩

end Sys2Proof.Laws.EncodingMatchesTable
end

