-- ==== Sys2Proof/Laws/Rest.lean ====
section
/-! SUPPORT. The transaction trace follows the wire trace action by action (R7), and every request operation starts and
ends between windows with the block at rest (R25, R36, R166, R264, R309). -/

namespace Sys2Proof.Machine

/-! ### The transaction trace (R7) -/

theorem readTrace_concat (l : List Event) (e : Event) : readTrace (l ++ [e]) = (readTrace l).read e := by
  simp [readTrace]

theorem State.checked_traceDerived (s : State) (c : Check) (h : s.traceDerived) : (s.checked c).traceDerived := by
  simp only [State.checked]
  split <;> exact h

theorem State.prim_traceDerived (s : State) (p : Prim) (h : s.traceDerived) : (s.prim p).traceDerived := by
  have hl : ∀ e : Event, readTrace ((e :: s.bus.log).reverse) =
      Reader.read ⟨s.bus.lvlDio, s.bus.dioDir, s.bus.win, s.bus.trace⟩ e := by
    intro e
    rw [List.reverse_cons, readTrace_concat, show readTrace s.bus.log.reverse = _ from h]
  cases p with
  | setLevel line b =>
    simp only [State.prim]
    split
    · simp only [State.traceDerived, State.wireTrace]
      cases line <;> cases b <;> simp only [Bus.setLevel, hl, Reader.read, Bus.clocked]
      split <;> simp_all [Bus.outBit]
    · exact h
  | setDir line d =>
    simp only [State.prim]
    split
    · simp only [State.traceDerived, State.wireTrace]
      cases line <;> cases d <;> simp only [Bus.setDir, hl, Reader.read]
    · exact h
  | delayUs t => simp only [State.prim, State.traceDerived, State.wireTrace, Bus.delay, hl, Reader.read]
  | sample given byte bit clears =>
    simp only [State.prim]
    split
    · simp only [State.traceDerived, State.wireTrace, Bus.getLevel, hl, Reader.read]
    · exact h

/-- An allowed action keeps the transaction trace the one of the wire trace. -/
theorem State.perform_traceDerived {s : State} {a : Action} (ha : a.allowed s) (h : s.traceDerived) :
    (s.perform a).traceDerived := by
  cases a with
  | wire chk p => exact State.prim_traceDerived _ p (State.checked_traceDerived s chk h)
  | writeDioDriving =>
    have ha : s.bus.dioDir = .driving := ha
    unfold State.traceDerived at h ⊢
    rw [ha] at h
    exact h
  | _ => exact h

theorem State.performAll_traceDerived {s : State} {l : List Action} (ha : s.allows l) (h : s.traceDerived) :
    (s.performAll l).traceDerived := by
  induction l generalizing s with
  | nil => exact h
  | cons a l ih => exact ih ha.2 (State.perform_traceDerived ha.1 h)

/-! ### At rest, and ready (R25, R166, R264) -/

/-- A block at rest, under a held lock, after `init`, is ready for any operation. -/
theorem State.AtRest.ready {s : State} (h : s.AtRest) (hi : s.initDone = true) (hl : s.lockOwner ≠ none)
    (hc : s.cfg.admitted = true) : s.Ready := by
  obtain ⟨h1, h3⟩ := h.afterInit hi
  exact ⟨⟨hl, h1, h.driving, h3, h.noWindow⟩, hc, h.unmarked⟩

/-- Recording a response leaves the block at rest. -/
theorem State.AtRest.withResp {s : State} (h : s.AtRest) (r : Response) : ({ s with resp := r } : State).AtRest :=
  ⟨h.unmarked, h.canonical, h.noWindow, h.driving, h.afterInit, h.beforeInit, h.shadow⟩

/-- Windows that leave the chip unmarked, canonical and with the latch of the display state leave the block at rest. -/
theorem State.Between.restAfterWindows {s : State} (hb : s.Between) (hm : s.bus.misuse = false) (hi : s.initDone = true)
    (ws : List (List Byte)) (hne : ∀ w ∈ ws, w ≠ []) (hu : (s.chip.observeAll s.cfg ws).undefined = false)
    (hw : (s.chip.observeAll s.cfg ws).ram.wf = true)
    (hd : (s.chip.observeAll s.cfg ws).dc = some (s.isOn, s.brightness)) :
    (s.performAll (ws.flatMap (outWindow s.cfg) ++ [.complete .zero])).AtRest := by
  rw [State.performAll_windows hb]
  refine State.AtRest.withResp ?_ _
  rw [State.sentAll_eq hb ws hne]
  exact ⟨⟨hm, hu⟩, hw, hb.noWindow, hb.driving, fun _ => ⟨hb.pins, hb.strobeHigh⟩,
    fun hf => absurd (hi.symm.trans hf) (by decide), .inr hd⟩

/-- Single writes leave the block at rest. -/
theorem State.AtRest.afterPairs {s : State} (h : s.AtRest) (hi : s.initDone = true) (hl : s.lockOwner ≠ none)
    (hc : s.cfg.admitted = true) {pairs : List (Nat × Byte)} (hne : pairs ≠ []) (hp : ∀ x ∈ pairs, x.1 ≤ 15) :
    (s.performAll ((pairs.flatMap fun x => writeSingle s.cfg s.isOn s.brightness x.1 x.2) ++ [.complete .zero])).AtRest := by
  have hr := h.ready hi hl hc
  have e := Chip.observeAll_pairs hc h.unmarked.2 s.isOn s.brightness hne hp
  rw [pairWindows_flatMap]
  refine hr.toBetween.restAfterWindows h.unmarked.1 hi _ (pairWindows_ne _ _ _ _) ?_ ?_ ?_ <;> rw [e]
  exact Memory.wf_writeAll _ h.canonical hp

/-- A burst leaves the block at rest. -/
theorem State.AtRest.afterBurst {s : State} (h : s.AtRest) (hi : s.initDone = true) (hl : s.lockOwner ≠ none)
    (hc : s.cfg.admitted = true) {vs : List Byte} (hv : vs.length = 16) :
    (s.performAll (writeBurst s.cfg s.isOn s.brightness 0 vs ++ [.complete .zero])).AtRest := by
  have hr := h.ready hi hl hc
  have hvs : vs ≠ [] := by intro e; simp [e] at hv
  have e := Chip.observeAll_burst hc h.unmarked.2 s.isOn s.brightness (p := 0) hvs (by omega)
  rw [writeBurst_eq]
  refine hr.toBetween.restAfterWindows h.unmarked.1 hi _ (burstWindows_ne _ _ _ _ _) ?_ ?_ ?_ <;> rw [e]
  exact Memory.wf_writeBurst _ h.canonical (by omega)

/-- A display-control window, sent after the display state took the value it carries, leaves the block at rest. -/
theorem State.AtRest.afterControl {s : State} (h : s.AtRest) (hi : s.initDone = true) (hl : s.lockOwner ≠ none)
    (hc : s.cfg.admitted = true) (on : Bool) (level : BitVec 3) :
    (({ s with isOn := on, brightness := level } : State).performAll
      (emitDc s.cfg on level ++ [.complete .zero])).AtRest := by
  have hr := h.ready hi hl hc
  have hb : ({ s with isOn := on, brightness := level } : State).Between :=
    ⟨hr.locked, hr.pins, hr.driving, hr.strobeHigh, hr.noWindow⟩
  have e : s.chip.observeAll s.cfg [[dcByte on level]] = { s.chip with dc := some (on, level) } :=
    Chip.observe_dc s.cfg h.unmarked.2 on level
  rw [emitDc_eq]
  refine hb.restAfterWindows h.unmarked.1 hi [[dcByte on level]] (by simp) ?_ ?_ ?_ <;> simp only [e]
  · exact h.unmarked.2
  · exact h.canonical

/-- A key scan leaves the block at rest. -/
theorem State.AtRest.scanned {s : State} (h : s.AtRest) (hi : s.initDone = true) (hl : s.lockOwner ≠ none)
    (hc : s.cfg.admitted = true) : s.scanned.AtRest := by
  have hr := h.ready hi hl hc
  have e := State.scanned_chip h.unmarked.2
  refine ⟨⟨h.unmarked.1, ?_⟩, ?_, rfl, rfl, fun _ => ⟨hr.pins, rfl⟩, fun hf => absurd (hi.symm.trans hf) (by decide), ?_⟩
    <;> rw [e]
  · exact h.unmarked.2
  · exact h.canonical
  · exact h.shadow

/-- A frame of `test` and its hold leave the block at rest. -/
theorem State.AtRest.frameShown {s : State} (h : s.AtRest) (hi : s.initDone = true) (hl : s.lockOwner ≠ none)
    (hc : s.cfg.admitted = true) {f : List Byte} (hf : f.length = 16) : (s.frameShown f).AtRest := by
  have hr := h.ready hi hl hc
  have e := State.frameShown_chip hc h.unmarked.2 hf
  have k := State.frameShown_keeps s f
  have hb := hr.toBetween.frameShown f
  have hm : (s.frameShown f).bus.misuse = false := by
    have hne : f ≠ [] := by intro e'; simp [e'] at hf
    simp only [State.frameShown, Bus.delay]
    rw [State.sentAll_eq hr.toBetween _ (burstWindows_ne _ _ _ _ _)]
    exact h.unmarked.1
  have hi' : (s.frameShown f).initDone = true := by rw [k]; exact hi
  refine ⟨⟨hm, by rw [e]⟩, ?_, hb.noWindow, hb.driving, fun _ => ⟨hb.pins, hb.strobeHigh⟩,
    fun hf' => absurd (hi'.symm.trans hf') (by decide), .inr ?_⟩
  · rw [e]; exact Memory.wf_writeBurst _ h.canonical (by omega)
  · rw [e, k]

theorem State.AtRest.framesShown {s : State} (h : s.AtRest) (hi : s.initDone = true) (hl : s.lockOwner ≠ none)
    (hc : s.cfg.admitted = true) (frames : List (List Byte)) (hf : ∀ f ∈ frames, f.length = 16) :
    (frames.foldl State.frameShown s).AtRest := by
  induction frames generalizing s with
  | nil => exact h
  | cons f frames ih =>
    have k := State.frameShown_keeps s f
    exact ih (h.frameShown hi hl hc (hf f (List.mem_cons_self ..))) (by rw [k]; exact hi) (by rw [k]; exact hl)
      (by rw [k]; exact hc) (fun x hx => hf x (List.mem_cons_of_mem _ hx))

/-- The first `init` leaves the block at rest (R193, R332). -/
theorem State.AtRest.initialised {s : State} (h : s.AtRest) : (s.performAll (initActions s)).AtRest := by
  unfold initActions
  split
  · exact h.withResp _
  · rename_i hi
    have hi : s.initDone = false := by simpa using hi
    have hc := (h.beforeInit hi).1
    have hw := h.noWindow
    simp only [State.performAll_cons, State.performAll_nil, State.perform, State.checked, State.meets, if_true,
      State.prim, Bus.pin, Bus.setDir, Bus.setLevel, State.chipAfter, State.completed, State.result, Bus.clocked, hw,
      Option.map_none]
    exact ⟨⟨h.unmarked.1, h.unmarked.2⟩, h.canonical, rfl, rfl, fun _ => ⟨⟨rfl, rfl, rfl⟩, rfl⟩,
      fun hf => by simp at hf, .inl (by rw [hc]; rfl)⟩

/-- A refusal leaves the block at rest. -/
theorem State.AtRest.required {s : State} (h : s.AtRest) {l : List Action}
    (hl : s.initDone = true → (s.performAll l).AtRest) : (s.performAll (requireInit s l)).AtRest := by
  unfold requireInit
  split
  · exact hl ‹_›
  · exact h.withResp _

theorem State.AtRest.ranged {s : State} (h : s.AtRest) {b : Bool} {l : List Action}
    (hl : b = true → (s.performAll l).AtRest) : (s.performAll (requireRange b l)).AtRest := by
  unfold requireRange
  split
  · exact hl ‹_›
  · exact h.withResp _

/-- Every request leaves the block at rest, whatever its word (R264, R297, R309). -/
theorem State.AtRest.afterRequest {s : State} (h : s.AtRest) (hl : s.lockOwner ≠ none) (hc : s.cfg.admitted = true)
    (req : ReqWord) : (s.performAll (requestActions req s)).AtRest := by
  have one : ∀ (p : Nat) (v : Byte), p ≤ 15 → s.initDone = true →
      (s.performAll (writeSingleNow s p v ++ [.complete .zero])).AtRest := by
    intro p v hp hi
    have := h.afterPairs hi hl hc (pairs := [(p, v)]) (by simp) (by simpa using hp)
    simpa [writeSingleNow] using this
  unfold requestActions
  split
  · rename_i i _
    cases i with
    | init => exact h.initialised
    | displayVal d x =>
      exact h.required fun hi => h.ranged fun hr => one _ _ (by simp only [digitAddr]; omega) hi
    | displayDig d v =>
      exact h.required fun hi => h.ranged fun hr => one _ _ (by simp only [digitAddr]; omega) hi
    | displayClear =>
      refine h.required fun hi => ?_
      have := h.afterPairs hi hl hc (pairs := clearPairs) (by simp [clearPairs]) (by decide)
      simpa only [clearPairs, List.flatMap_map, writeSingleNow] using this
    | writeLed n st =>
      refine h.required fun hi => h.ranged fun hr => one _ _ ?_ hi
      simp only [ledInRange, Bool.and_eq_true, decide_eq_true_eq] at hr
      simp only [ledAddr]
      omega
    | writeLeds m =>
      refine h.required fun hi => ?_
      have := h.afterPairs hi hl hc (pairs := ledPairs m) (by simp [ledPairs]) (by simp [ledPairs, ledAddr])
      simpa only [ledPairs, List.flatMap_map, writeSingleNow] using this
    | displayTurnOn => exact h.required fun hi => h.afterControl hi hl hc true s.brightness
    | displayTurnOff => exact h.required fun hi => h.afterControl hi hl hc false s.brightness
    | displaySetBrightness l =>
      exact h.required fun hi => h.ranged fun hr => h.afterControl hi hl hc s.isOn (levelBits l)
    | reset => exact h.required fun hi => h.afterBurst hi hl hc (by simp)
    | test =>
      refine h.required fun hi => ?_
      simp only [writeBurstNow]
      rw [State.performAll_append, State.performAll_frames (h.ready hi hl hc).toBetween]
      exact (h.framesShown hi hl hc _ fun f hf => Config.frame_length hc hf).withResp _
    | getButtons =>
      refine h.required fun hi => ?_
      rw [State.performAll_append, State.performAll_readScan (h.ready hi hl hc).toBetween]
      have := h.scanned hi hl hc
      exact ⟨this.unmarked, this.canonical, this.noWindow, this.driving, this.afterInit, this.beforeInit, this.shadow⟩
    | getButton k =>
      refine h.required fun hi => h.ranged fun hr => ?_
      rw [State.performAll_append, State.performAll_readScan (h.ready hi hl hc).toBetween]
      have := h.scanned hi hl hc
      exact ⟨this.unmarked, this.canonical, this.noWindow, this.driving, this.afterInit, this.beforeInit, this.shadow⟩
    | _ => exact h
  · exact h.withResp _

end Sys2Proof.Machine
end

