-- ==== Sys2Proof/Laws/Step.lean ====
section
/-! SUPPORT. What one step can do, said once: it performs a list of actions around a change of the control state, a release
may set the mark, or power is lost (R261 to R265, R37). -/

namespace Sys2Proof.Machine

/-- The state with the control state replaced: SEQ, the lock, the ports, the turns and the counter of choices. -/
def State.controlled (s : State) (q : Seq) (lo : Option Nat) (ps : List Port) (ts : List Turn) (g : Nat) : State :=
  { s with seq := q, lockOwner := lo, ports := ps, turns := ts, choices := g }

/-- The action a step of the sequencer would perform next is allowed, where the next turn may be its. -/
def State.nextAllowed (s : State) : Prop :=
  ∀ (c : Nat) (req : ReqWord) (k : Nat) (a : Action) (rest : List Action),
    (nextTurn s).1 = .block ∨ (nextTurn s).1 = .agent → s.seq = .run c req k (a :: rest) → a.allowed s

/-- What a step other than power loss leaves: actions performed under some control state and possibly a mark, then
possibly the mark of a failed release check, then some control state. The actions are allowed, a step of the sequencer
where its next action is. -/
def State.Advanced (s t : State) : Prop :=
  ∃ (q q' : Seq) (lo lo' : Option Nat) (ps ps' : List Port) (ts ts' : List Turn) (g g' : Nat) (b b' : Bool)
    (l : List Action),
    (s.nextAllowed → ((s.controlled q lo ps ts g).misusedIf b).allows l) ∧
    t = ((((s.controlled q lo ps ts g).misusedIf b).performAll l).misusedIf b').controlled q' lo' ps' ts' g'

/-- A change of the control state alone. -/
theorem State.Advanced.control (s : State) (q : Seq) (lo : Option Nat) (ps : List Port) (ts : List Turn) (g : Nat) :
    s.Advanced (s.controlled q lo ps ts g) :=
  ⟨s.seq, q, s.lockOwner, lo, s.ports, ps, s.turns, ts, s.choices, g, false, false, [], fun _ => trivial, rfl⟩

/-- Actions performed under some control state and possibly a mark. -/
theorem State.Advanced.acted {s : State} (q : Seq) (lo : Option Nat) (ps : List Port) (ts : List Turn) (g : Nat)
    (b : Bool) {l : List Action} (h : s.nextAllowed → ((s.controlled q lo ps ts g).misusedIf b).allows l) (q' : Seq) :
    s.Advanced { ((s.controlled q lo ps ts g).misusedIf b).performAll l with seq := q' } := by
  generalize hu : ((s.controlled q lo ps ts g).misusedIf b).performAll l = u
  exact ⟨q, q', lo, u.lockOwner, ps, u.ports, ts, u.turns, g, u.choices, b, false, l, h, by rw [hu]; rfl⟩

/-- The same, SEQ left where it was. -/
theorem State.Advanced.performed {s : State} (q : Seq) (lo : Option Nat) (ps : List Port) (ts : List Turn) (g : Nat)
    (b : Bool) {l : List Action} (h : s.nextAllowed → ((s.controlled q lo ps ts g).misusedIf b).allows l) :
    s.Advanced (((s.controlled q lo ps ts g).misusedIf b).performAll l) :=
  State.Advanced.acted q lo ps ts g b h (((s.controlled q lo ps ts g).misusedIf b).performAll l).seq

/-- Actions performed under some control state, then the release. -/
theorem State.Advanced.acted_released {s : State} (q : Seq) (lo : Option Nat) (ps : List Port) (ts : List Turn) (g : Nat)
    {l : List Action} (h : s.nextAllowed → (s.controlled q lo ps ts g).allows l) (q' : Seq) (c : Nat) :
    s.Advanced (({ (s.controlled q lo ps ts g).performAll l with seq := q' } : State).released c) := by
  generalize hu : (s.controlled q lo ps ts g).performAll l = u
  simp only [State.released]
  split
  · exact ⟨q, .idle, lo, none, ps, u.ports.set c (.done u.resp), ts, u.turns, g, u.choices, false, false, l, h,
      by subst hu; rfl⟩
  · exact ⟨q, .idle, lo, none, ps, u.ports.set c (.done u.resp), ts, u.turns, g, u.choices, false, true, l, h,
      by subst hu; rfl⟩

/-! ### The guard (R262, R264) -/

/-- The waiters are exactly the callers whose port waits. -/
theorem mem_waitersFrom (ports : List Port) (n c : Nat) :
    c ∈ waitersFrom n ports ↔ ∃ (k : Nat) (req : ReqWord), c = n + k ∧ ports[k]? = some (.waiting req) := by
  induction ports generalizing n with
  | nil => simp [waitersFrom]
  | cons p ps ih =>
    have tail : (∃ (k : Nat) (req : ReqWord), c = n + 1 + k ∧ ps[k]? = some (.waiting req)) ↔
        ∃ (k : Nat) (req : ReqWord), c = n + (k + 1) ∧ (p :: ps)[k + 1]? = some (.waiting req) := by
      simp [Nat.add_assoc, Nat.add_comm 1]
    have split : (∃ (k : Nat) (req : ReqWord), c = n + k ∧ (p :: ps)[k]? = some (.waiting req)) ↔
        (∃ req : ReqWord, c = n ∧ p = .waiting req) ∨
        ∃ (k : Nat) (req : ReqWord), c = n + (k + 1) ∧ (p :: ps)[k + 1]? = some (.waiting req) := by
      constructor
      · rintro ⟨k, req, h1, h2⟩
        cases k with
        | zero => exact .inl ⟨req, by simpa using h1, by simpa using h2⟩
        | succ k => exact .inr ⟨k, req, h1, h2⟩
      · rintro (⟨req, h1, h2⟩ | ⟨k, req, h1, h2⟩)
        · exact ⟨0, req, by simpa using h1, by simpa using h2⟩
        · exact ⟨k + 1, req, h1, h2⟩
    rw [split, ← tail, ← ih]
    cases p <;> simp [waitersFrom]

theorem State.mem_waiters (s : State) (c : Nat) :
    c ∈ s.waiters ↔ ∃ req : ReqWord, s.ports[c]? = some (.waiting req) := by
  rw [State.waiters, mem_waitersFrom]
  simp

/-- The arbiter chooses one of the waiters, whatever the free value is. -/
theorem State.arbitrated_mem (s : State) (first : Nat) (rest : List Nat) : s.arbitrated first rest ∈ first :: rest := by
  have h : Config.arbiter s.choices % (rest.length + 1) < (first :: rest).length := by
    simpa using Nat.mod_lt _ (Nat.succ_pos _)
  rw [State.arbitrated, List.getD_eq_getElem?_getD, List.getElem?_eq_getElem h]
  exact List.getElem_mem h

theorem State.AtRest.controlled {s : State} (h : s.AtRest) (q : Seq) (lo : Option Nat) (ps : List Port) (ts : List Turn)
    (g : Nat) : (s.controlled q lo ps ts g).AtRest :=
  ⟨h.unmarked, h.canonical, h.noWindow, h.driving, h.afterInit, h.beforeInit, h.shadow⟩

/-- At rest the release check holds, so a release changes the control state only (R264). -/
theorem State.AtRest.released {s : State} (h : s.AtRest) (c : Nat) :
    s.released c = s.controlled .idle none (s.ports.set c (.done s.resp)) s.turns s.choices := by
  have hr : s.releaseOk = true := by
    cases h' : s.initDone
    · simp [State.releaseOk, h.driving, h', (h.beforeInit h').2]
    · simp [State.releaseOk, h.driving, (h.afterInit h').2]
  simp only [State.released, hr, if_true, State.controlled]

/-! ### The agents' choice (R6, R269) -/

/-- A caller's step is among those that can be made exactly where its port allows it (R261, R265). -/
theorem mem_movesFrom (ports : List Port) (n : Nat) (m : Move) (h : m ∈ movesFrom n ports) :
    (∃ k, m = .issue (n + k) ∧ ports[k]? = some .idle) ∨
    ∃ (k : Nat) (r : Response), m = .collect (n + k) ∧ ports[k]? = some (.done r) := by
  induction ports generalizing n with
  | nil => cases h
  | cons p ps ih =>
    have tail : m ∈ movesFrom (n + 1) ps → (∃ k, m = .issue (n + k) ∧ (p :: ps)[k]? = some .idle) ∨
        ∃ (k : Nat) (r : Response), m = .collect (n + k) ∧ (p :: ps)[k]? = some (.done r) := by
      intro hm
      obtain ⟨k, h1, h2⟩ | ⟨k, r, h1, h2⟩ := ih (n + 1) hm
      · exact .inl ⟨k + 1, by rw [h1, Nat.add_assoc, Nat.add_comm 1], by simpa using h2⟩
      · exact .inr ⟨k + 1, r, by rw [h1, Nat.add_assoc, Nat.add_comm 1], by simpa using h2⟩
    cases p with
    | idle =>
      obtain rfl | hm := List.mem_cons.mp h
      · exact .inl ⟨0, rfl, rfl⟩
      · exact tail hm
    | done r =>
      obtain rfl | hm := List.mem_cons.mp h
      · exact .inr ⟨0, r, rfl, rfl⟩
      · exact tail hm
    | waiting _ => exact tail h
    | active _ => exact tail h

/-- The chosen step is one that can be made, whatever the free value is. -/
theorem State.chosen_mem (s : State) : s.chosen ∈ s.moves := by
  have h : Config.agent s.choices % s.moves.length < s.moves.length := Nat.mod_lt _ (Nat.succ_pos _)
  rw [State.chosen, List.getD_eq_getElem?_getD, List.getElem?_eq_getElem h]
  exact List.getElem_mem h

theorem issue_of_idle {s : State} {c : Nat} {req : ReqWord} (h : s.ports[c]? = some .idle) :
    issue c req s = .next (s.setPort c (.waiting req)) := by simp only [issue, h]

theorem collect_of_done {s : State} {c : Nat} {r : Response} (h : s.ports[c]? = some (.done r)) :
    collect c s = .next (s.setPort c .idle) := by simp only [collect, h]

theorem acquire_of_waiter {s : State} {c : Nat} (hl : s.lockOwner = none) (hs : s.seq = .idle) (hc : c ∈ s.waiters) :
    ∃ req : ReqWord, acquire c s = .next (s.accepted c req) := by
  obtain ⟨req, hr⟩ := (s.mem_waiters c).mp hc
  exact ⟨req, by simp only [acquire, State.grantable, hl, hs, hr]⟩

/-- The block's own step is never stuck. -/
theorem blockStep_answers (s : State) : ∃ t, blockStep s = .next t := by
  unfold blockStep
  split
  · exact ⟨_, rfl⟩
  · exact ⟨_, rfl⟩
  · rename_i hs
    split
    · exact ⟨_, rfl⟩
    · exact ⟨_, rfl⟩
    · rename_i hl hw
      obtain ⟨req, e⟩ := acquire_of_waiter hl hs (hw ▸ List.mem_cons_self ..)
      exact ⟨_, e⟩
    · rename_i c d rest hl hw
      obtain ⟨req, e⟩ := acquire_of_waiter (s := { s with choices := s.choices + 1 }) hl hs
        (show s.arbitrated c (d :: rest) ∈ s.waiters from hw ▸ s.arbitrated_mem c (d :: rest))
      exact ⟨_, e⟩

/-- Some agent always has a step (R269). -/
theorem agentStep_answers (s : State) : ∃ t, agentStep s = .next t := by
  have hm := s.chosen_mem
  unfold agentStep
  split
  · exact blockStep_answers _
  all_goals
    rename_i c hc
    rw [hc] at hm
    obtain h | hm := List.mem_cons.mp hm
    · cases h
    obtain ⟨k, h1, h2⟩ | ⟨k, r, h1, h2⟩ := mem_movesFrom _ _ _ hm <;> cases h1
  · exact ⟨_, issue_of_idle (by rw [Nat.zero_add]; exact h2)⟩
  · exact ⟨_, collect_of_done (r := r) (by rw [Nat.zero_add]; exact h2)⟩

/-! ### One step -/

theorem acquire_advances {c : Nat} {s t : State} (h : acquire c s = .next t) :
    ∃ req, t = s.accepted c req ∧ s.grantable c = some req := by
  unfold acquire at h
  split at h <;> cases h
  exact ⟨_, rfl, by assumption⟩

/-- What an issue can do (R261). -/
theorem issue_advances {c : Nat} {req : ReqWord} {s t : State} (h : issue c req s = .next t) :
    t = s.setPort c (.waiting req) := by
  unfold issue at h
  split at h <;> cases h
  rfl

/-- What a collection can do (R265). -/
theorem collect_advances {c : Nat} {s t : State} (h : collect c s = .next t) : t = s.setPort c .idle := by
  unfold collect at h
  split at h <;> cases h
  rfl

/-- What the block's own step can do. -/
theorem blockStep_advances {s t : State} (ts : List Turn) (g : Nat)
    (h : blockStep (s.controlled s.seq s.lockOwner s.ports ts g) = .next t)
    (hn : (nextTurn s).1 = .block ∨ (nextTurn s).1 = .agent) : s.Advanced t := by
  unfold blockStep at h
  split at h
  · rename_i c req k a rest hq
    cases h
    exact State.Advanced.acted s.seq s.lockOwner s.ports ts g false (l := [a])
      (fun ha => ⟨by have := ha c req k a rest hn hq; cases a <;> exact this, trivial⟩) (.run c req (k + 1) rest)
  · cases h
    exact State.Advanced.acted_released s.seq s.lockOwner s.ports ts g (l := []) (fun _ => trivial) s.seq _
  · split at h
    · cases h
      exact State.Advanced.control s s.seq s.lockOwner s.ports ts g
    · cases h
      exact State.Advanced.control s s.seq s.lockOwner s.ports ts g
    · obtain ⟨req, rfl, -⟩ := acquire_advances h
      exact State.Advanced.control s _ _ _ ts g
    · obtain ⟨req, rfl, -⟩ := acquire_advances h
      exact State.Advanced.control s _ _ _ ts _

/-- A step takes the turn that comes next. -/
theorem step_of_turn {s : State} {u : Turn} {ts : List Turn} (h : nextTurn s = (u, ts)) :
    step s = takeTurn u { s with turns := ts } := by simp only [step, h]

/-- The step relation, inverted: every step advances, or power is lost. -/
theorem step_next {s t : State} (h : step s = .next t) :
    s.Advanced t ∨ ((nextTurn s).1 = .powerLoss ∧ t = ({ s with turns := (nextTurn s).2 } : State).powerLost) := by
  unfold step at h
  generalize (nextTurn s).2 = ts at h ⊢
  cases hn : (nextTurn s).1 with
  | issue c req =>
    rw [hn] at h
    rw [issue_advances h]
    exact .inl (State.Advanced.control s s.seq s.lockOwner _ ts s.choices)
  | acquire c =>
    rw [hn] at h
    obtain ⟨req, rfl, -⟩ := acquire_advances h
    exact .inl (State.Advanced.control s _ _ _ ts s.choices)
  | collect c =>
    rw [hn] at h
    rw [collect_advances h]
    exact .inl (State.Advanced.control s s.seq s.lockOwner _ ts s.choices)
  | block =>
    rw [hn] at h
    exact .inl (blockStep_advances ts s.choices h (.inl hn))
  | agent =>
    rw [hn] at h
    simp only [takeTurn, agentStep] at h
    left
    split at h
    · exact blockStep_advances ts (s.choices + 1) h (.inr hn)
    · rw [issue_advances h]
      exact State.Advanced.control s s.seq s.lockOwner _ ts _
    · rw [collect_advances h]
      exact State.Advanced.control s s.seq s.lockOwner _ ts _
  | serve c =>
    rw [hn] at h
    simp only [takeTurn, serve] at h
    left
    split at h
    · rename_i req _
      obtain ⟨l, q, ha, e⟩ := runRequest_performs req (({ s with turns := ts } : State).accepted c req)
      rw [e] at h
      cases h
      exact State.Advanced.acted_released (s := s) _ (some c) _ ts s.choices (fun _ => ha) q c
    · cases h
  | wire pos b =>
    rw [hn] at h
    simp only [takeTurn, putOnWire] at h
    left
    split at h
    · rename_i i _
      obtain ⟨l, q, ha, e⟩ := exec_performs i ({ s with turns := ts } : State).intruded
      rw [e] at h
      cases h
      exact State.Advanced.acted s.seq s.lockOwner s.ports ts s.choices s.seq.running (fun _ => ha) q
    · cases h
      exact State.Advanced.performed s.seq s.lockOwner s.ports ts s.choices s.seq.running
        fun _ => State.allows_of_free (free_outWindow _ [b]) _
  | strobe =>
    rw [hn] at h
    cases h
    exact .inl (State.Advanced.performed s.seq s.lockOwner s.ports ts s.choices s.seq.running
      fun _ => State.allows_strobeActions _ _)
  | powerLoss =>
    rw [hn] at h
    cases h
    exact .inr ⟨rfl, rfl⟩

/-! ### Runs of several steps -/

theorem run_next (M : Host.Core) (n : Nat) (s t : M.State) (h : M.step s = .next t) : M.run (n + 1) s = M.run n t := by
  show Host.Core.run M (n + 1) s = Host.Core.run M n t
  rw [Host.Core.run, h]

/-- No step is the state itself. -/
theorem core_run_zero (s : State) : Host.Core.run Sys2Proof.core 0 s = .next s := rfl

/-- A first step, then the rest of the run. -/
theorem core_run_next {n : Nat} {s t : State} (h : step s = .next t) :
    Host.Core.run Sys2Proof.core (n + 1) s = Host.Core.run Sys2Proof.core n t := run_next Sys2Proof.core n s t h

end Sys2Proof.Machine
end

