-- ==== Sys2Proof/Tests/Slice0.lean ====
section
/-! SUPPORT. The model's own tests, and a witness for the hypotheses of every statement. Expected values are the spec's test
vectors (95_test_vectors.md), named at each test, or its worked examples. -/

namespace Sys2Proof.Tests

open Sys2Proof Sys2Proof.Machine

/-! ### Small states -/

/-- What a next state shows, if there is one. -/
def seen {α : Type} (o : Host.Outcome State Fault Refusal) (f : State → α) : Option α :=
  match o with
  | .next t => some (f t)
  | .fault _ => none
  | .refused _ => none

theorem seen_some {α : Type} {o : Host.Outcome State Fault Refusal} {f : State → α} {x : α} (h : seen o f = some x) :
    ∃ t, o = .next t ∧ f t = x := by
  cases o with
  | next t => exact ⟨t, rfl, Option.some.inj h⟩
  | fault _ => cases h
  | refused _ => cases h

/-- The block after one `init` from power-up ("After init" of 95_test_vectors.md); the draws of its fresh outputs, which no
level shows any more, are left out. -/
def initState : State :=
  { State.reset with
    bus := { Bus.powerUp with pinClk := some 0, pinDio := some 1, pinStb := some 2, lvlClk := some true,
                              lvlDio := some true, lvlStb := some true }
    initDone := true }

/-- The same with caller 0 holding the lock. -/
def readyState : State := { initState with lockOwner := some 0 }

/-- The same with every display register 0, as `reset` leaves it ("after init followed by reset"). -/
def clearState : State :=
  { readyState with chip := ⟨(List.range 16).map fun p => (p, 0), some .auto, some (false, 0), false⟩ }

/-- Caller 0 waits with a request, nothing else happens. -/
def waitingState (req : ReqWord) : State := { initState with ports := [.waiting req, .idle] }

/-- Inside a data-write window that an address byte has opened. -/
def windowState : State :=
  { readyState with bus := { readyState.bus with lvlStb := some false, win := some (bitsOut 0xC0) } }

/-- Inside a read window that holds one byte. -/
def scanState : State :=
  { readyState with bus := { readyState.bus with lvlStb := some false, dioDir := .listening,
                                                 win := some (List.replicate 8 (.inp false)) } }

/-- In the middle of an operation: the last action is still to come. -/
def runningState : State :=
  { readyState with ports := [.active 0x070000, .idle], seq := .run 0 0x070000 44 [.complete .zero] }

/-- The default parameters with one on/off iteration of the self-test, so that a test of it stays small. -/
def shortTestState : State :=
  { readyState with cfg := { Config.default with selfTestFrames := Config.onOffFrames, tTestHold := 7 } }

/-! ### WellFormed refuses what rule R9 refuses -/

theorem smoke_default_admitted : Config.default.admitted = true := by decide
theorem smoke_other_base_admitted : ({ Config.default with addrBase := 0xD0 } : Config).admitted = true := by decide
theorem smoke_no_callers : ({ Config.default with nCallers := 0 } : Config).callersOk = false := by decide
theorem smoke_pins_equal : ({ Config.default with pinStb := 0 } : Config).pinsOk = false := by decide
theorem smoke_base_overflows : ({ Config.default with addrBase := 0xF1 } : Config).baseOk = false := by decide
theorem smoke_base_is_command : ({ Config.default with addrBase := 0x35 } : Config).baseOk = false := by decide
theorem smoke_seg_bit7 : ({ Config.default with segTable := List.replicate 16 0x80 } : Config).segOk = false := by decide
theorem smoke_seg_short : ({ Config.default with segTable := [0x3F] } : Config).segOk = false := by decide
theorem smoke_clock_zero : ({ Config.default with tLow := 0 } : Config).timesOk = false := by decide
theorem smoke_frame_short : ({ Config.default with selfTestFrames := [[0xFF]] } : Config).framesOk = false := by decide
theorem smoke_addr_refused :
    (Instr.addr 15).wellFormed { Config.default with addrBase := 0xF1 } = false ∧
    (Instr.addr 11).wellFormed { Config.default with addrBase := 0x35 } = false ∧
    (Instr.addr 15).wellFormed Config.default = true := by decide

/-! ### Decoding: words written out from the encodings -/

/-- V-E3: one request word per operation, `OP` in bits 23:16, `A` in 15:8, `B` in 7:0. -/
theorem decode_requests :
    [0x010000, 0x02030F, 0x030780, 0x040000, 0x050801, 0x0600A5, 0x070000].map (decodeTableWord 24) =
      [some .init, some (.displayVal 3 0x0F), some (.displayDig 7 0x80), some .displayClear, some (.writeLed 8 1),
       some (.writeLeds 0xA5), some .displayTurnOn] ∧
    [0x080000, 0x090003, 0x0A0000, 0x0B0000, 0x0C0000, 0x0D0500].map (decodeTableWord 24) =
      [some .displayTurnOff, some (.displaySetBrightness 3), some .reset, some .test, some .getButtons,
       some (.getButton 5)] := by decide

/-- V-E4: unused operands are ignored. -/
theorem decode_unused : decodeTableWord 24 0x07FFFF = some .displayTurnOn ∧
    decodeTableWord 24 0x06FF05 = some (.writeLeds 0x05) := by decide

/-- V-E5: illegal selectors. -/
theorem decode_illegal : [0x000000, 0x0E0000, 0x0F1234, 0x800000, 0xFFFFFF].map (decodeTableWord 24) =
    [none, none, none, none, none] := by decide

/-- R92 to R96 written out bit by bit: `01000000`, `01000010`, `01000100`, `1000 1 010`, `1100 1110`. -/
theorem decode_wire :
    [0b01000000, 0b01000010, 0b01000100, 0b10001010, 0b11001110].map (fun b => decodeWire Config.default .first b) =
      [.ok .cmdAuto, .ok .cmdRead, .ok .cmdFixed, .ok (.dctl true 2), .ok (.addr 14)] ∧
    decodeWire Config.default .later 0b01110111 = .ok (.data 0x77) ∧
    decodeWire Config.default .scan 0b00010001 = .ok (.scanb 0x11) ∧
    decodeWire Config.default .first 0x48 = .error (.reservedWireByte 0x48) := by decide

/-- R105: the assembler's two examples, an alias, a hexadecimal operand out of range, an operand too many. -/
theorem assemble_examples :
    assembleLine "display_val 0, 10" = some 0x02000A ∧ assembleLine "write_leds 0xA5" = some 0x0600A5 ∧
    assembleLine "set_all_leds   0xa5 " = some 0x0600A5 ∧ assembleLine "init" = some 0x010000 ∧
    assembleLine "get_button 0x100" = none ∧ assembleLine "display_turn_on 1" = none := by decide +kernel

/-! ### The fold and the operand forms -/

/-- V-B1. -/
theorem fold_vectors :
    [⟨0x01, 0, 0, 0⟩, ⟨0x01, 0x01, 0, 0⟩, ⟨0, 0, 0, 0x10⟩, ⟨0x11, 0, 0x01, 0x10⟩, ⟨0x22, 0x11, 0, 0⟩, ⟨0, 0x80, 0, 0⟩,
      ⟨0, 0, 0x40, 0⟩, ⟨0, 0, 0, 0x20⟩, ⟨0xFF, 0xFF, 0xFF, 0xFF⟩].map fold =
      [0x01, 0x03, 0x80, 0x95, 0x22, 0x00, 0x00, 0x00, 0xFF] ∧ foldAcc ⟨0xFF, 0xFF, 0xFF, 0xFF⟩ = 0x7FF := by decide

/-- V-E1, R104: a display-control byte, a response word. -/
theorem byte_vectors : dcByte true 5 = 0x8D ∧ dcByte false 7 = 0x87 ∧
    Response.word ⟨.eRange, 0⟩ = 0x0100 ∧ Response.word ⟨.ok, 0x95⟩ = 0x0095 := by decide

/-- V-T1: the levels `shift_out(LSB, 0xCE)` and V-T3's MSB order put on DIO. -/
theorem shift_vectors :
    (bitsOut 0xCE).map WireBit.outLevel =
      [some false, some true, some true, some true, some false, some false, some true, some true] ∧
    (List.range 8).map (fun j => (0x80 : Byte).getLsbD (bitIndex .msb j)) =
      [true, false, false, false, false, false, false, false] := by decide

/-! ### The wire observer (V-P5) -/

theorem observer_corners :
    (Chip.powerUp.observe Config.default [.out 0xC0, .out 0x01]).undefined = true ∧
    (({ Chip.powerUp with mode := some .fixed } : Chip).observe Config.default [.out 0xC0, .out 1, .out 2]).undefined = true ∧
    (({ Chip.powerUp with mode := some .auto } : Chip).observe Config.default
      (.out 0xC8 :: List.replicate 9 (.out 1))).undefined = true ∧
    (({ Chip.powerUp with mode := some .auto } : Chip).observe Config.default
      (.out 0xC8 :: List.replicate 8 (.out 1))).ram = (List.range 8).map (fun p => (p + 8, 1)) ∧
    (Chip.powerUp.observe Config.default [.out 0x48]).undefined = true := by decide

/-! ### One step of each instruction -/

/-- V-D23: `init` from power-up: six wire actions, no window. -/
theorem test_init :
    seen (step (State.reset.withFetchWord 24 0x010000))
      (fun t => (t.wireTrace, t.transactions, t.initDone, t.ports.head?)) =
    some ([.setDir .clk 0 .out, .setDir .dio 1 .out, .setDir .stb 2 .out, .setLevel .clk 0 true, .setLevel .dio 1 true,
           .setLevel .stb 2 true], [], true, some (.done ⟨.ok, 0⟩)) := by decide +kernel

/-- Section 2.7: a second `init`. -/
theorem test_init_again :
    seen (step (initState.withFetchWord 24 0x010000)) (fun t => (t.ports.head?, t.bus == initState.bus)) =
    some (some (.done ⟨.eReinit, 0⟩), true) := by decide +kernel

/-- V-D3: `display_val 3, 10`. -/
theorem test_display_val :
    seen (exec (.displayVal 3 10) clearState) (fun t => (t.transactions, t.chip.ram.read 8, t.resp)) =
    some ([[.out 0x80], [.out 0x44], [.out 0xC8, .out 0x77]], some 0x77, ⟨.ok, 0⟩) := by decide +kernel

/-- Section 2.7: the init check comes before the range check. -/
theorem test_display_val_before_init :
    seen (step (State.reset.withFetchWord 24 0x020810)) (fun t => (t.ports.head?, t.bus == Bus.powerUp)) =
    some (some (.done ⟨.eNoinit, 0⟩), true) := by decide +kernel

/-- V-D7: `display_dig 0, 0x80`. -/
theorem test_display_dig :
    seen (exec (.displayDig 0 0x80) clearState) (fun t => (t.transactions, t.chip.ram.read 14)) =
    some ([[.out 0x80], [.out 0x44], [.out 0xCE, .out 0x80]], some 0x80) := by decide +kernel

/-- V-D8. -/
theorem test_display_dig_range :
    seen (exec (.displayDig 8 0) clearState) (fun t => (t.transactions, t.resp)) = some ([], ⟨.eRange, 0⟩) := by
  decide +kernel

/-- The levels an action list puts on DIO as it shifts out. -/
def levelsOut (l : List Action) : List Bool :=
  l.filterMap fun a => match a with
    | .wire .shiftOut (.setLevel .dio b) => some b
    | _ => none

/-- Bytes as levels, bit 0 first (R67). -/
def levelsOf (bytes : List Byte) : List Bool := bytes.flatMap fun b => (List.range 8).map b.getLsbD

/-- V-D9: the bytes in order; no LED address is among them. -/
theorem test_display_clear :
    levelsOut (displayClearActions readyState) = levelsOf
      [0x80, 0x44, 0xCE, 0, 0x80, 0x44, 0xCC, 0, 0x80, 0x44, 0xCA, 0, 0x80, 0x44, 0xC8, 0, 0x80, 0x44, 0xC6, 0,
       0x80, 0x44, 0xC4, 0, 0x80, 0x44, 0xC2, 0, 0x80, 0x44, 0xC0, 0] := by decide +kernel

/-- V-D11: any nonzero state is true. -/
theorem test_write_led :
    seen (exec (.writeLed 8 2) clearState) (fun t => (t.transactions, t.chip.ram.read 15)) =
    some ([[.out 0x80], [.out 0x44], [.out 0xCF, .out 0x01]], some 0x01) := by decide +kernel

/-- V-D13. -/
theorem test_write_led_zero :
    seen (exec (.writeLed 0 1) clearState) (fun t => (t.transactions, t.resp)) = some ([], ⟨.eRange, 0⟩) := by
  decide +kernel

/-- V-D15. -/
theorem test_write_leds :
    levelsOut (writeLedsActions 0xA5 readyState) = levelsOf
      [0x80, 0x44, 0xC1, 1, 0x80, 0x44, 0xC3, 0, 0x80, 0x44, 0xC5, 1, 0x80, 0x44, 0xC7, 0, 0x80, 0x44, 0xC9, 0,
       0x80, 0x44, 0xCB, 1, 0x80, 0x44, 0xCD, 0, 0x80, 0x44, 0xCF, 1] := by decide +kernel

/-- P7: the 43 wire actions of `display_turn_on` after `init`, the first seven and the last two by name. -/
theorem test_turn_on :
    seen (exec .displayTurnOn readyState)
      (fun t => ((t.wireTrace.length, t.wireTrace.take 7, t.wireTrace.drop 41), (t.transactions, t.chip.dc))) =
    some ((43, [.setLevel .stb 2 false, .setLevel .dio 1 false, .setLevel .clk 0 true, .delayUs 1,
                .setLevel .clk 0 false, .delayUs 1, .setLevel .dio 1 false], [.setLevel .stb 2 true, .delayUs 1]),
          ([[.out 0x88]], some (true, 0))) := by decide +kernel

/-- P7: the first pulse after `init` makes no rising edge: 7 of 8. -/
theorem test_turn_on_edges :
    seen (exec .displayTurnOn readyState) (fun t => risingEdges (some true) t.wireTrace) = some 7 := by decide +kernel

/-- R200's example: with BRIGHTNESS = 7 it sends 0x87. -/
theorem test_turn_off :
    seen (exec .displayTurnOff { readyState with brightness := 7, isOn := true }) (fun t => (t.transactions, t.isOn)) =
    some ([[.out 0x87]], false) := by decide +kernel

/-- R201's example: with IS_ON = 1, level 3 sends 0x8B. -/
theorem test_set_brightness :
    seen (exec (.displaySetBrightness 3) { readyState with isOn := true }) (fun t => (t.transactions, t.brightness)) =
    some ([[.out 0x8B]], 3) := by decide +kernel

/-- V-D20. -/
theorem test_set_brightness_range :
    seen (exec (.displaySetBrightness 8) clearState) (fun t => (t.transactions, t.brightness, t.resp)) =
    some ([], 0, ⟨.eRange, 0⟩) := by decide +kernel

/-- V-D21, V-R3. -/
theorem test_reset :
    seen (exec .reset readyState) (fun t => (t.transactions, t.chip.ram, t.chip.mode)) =
    some ([[.out 0x80], [.out 0x40], .out 0xC0 :: List.replicate 16 (.out 0)], (List.range 16).map (fun p => (p, 0)),
          some .auto) := by decide +kernel

/-- V-D22, with one frame: display control, mode select, the burst, and the hold last. -/
theorem test_test :
    seen (exec .test { readyState with cfg := { Config.default with selfTestFrames := [List.replicate 16 0xFF] } })
      (fun t => (t.transactions, t.wireTrace.getLast?, t.chip.ram)) =
    some ([[.out 0x80], [.out 0x40], .out 0xC0 :: List.replicate 16 (.out 0xFF)], some (.delayUs 1000000),
      (List.range 16).map (fun p => (p, 0xFF))) := by decide +kernel

/-- V-P4, R241: what `get_buttons` does apart from the bits the oracle answers. -/
theorem test_get_buttons :
    seen (exec .getButtons readyState) (fun t => ((t.transactions.head?, t.transactions.length, t.bus.dioDir),
      (t.bus.lvlDio, t.chip.mode, t.draws))) = some ((some [.out 0x42], 2, .driving), (none, some .read, 32)) := by decide +kernel

/-- V-B3: `get_button 8`: no window, nothing drawn. -/
theorem test_get_button_range :
    seen (exec (.getButton 8) readyState) (fun t => (t.transactions, t.draws, t.resp)) = some ([], 0, ⟨.eRange, 0⟩) := by
  decide +kernel

/-- R92 to R95: the command bytes as wire instructions. -/
theorem test_commands :
    [Instr.cmdAuto, .cmdRead, .cmdFixed, .dctl true 2].map (fun i => seen (exec i readyState) fun t => t.transactions) =
      [some [[.out 0x40]], some [[.out 0x42]], some [[.out 0x44]], some [[.out 0x8A]]] := by decide +kernel

/-- R96: the address byte opens a window. -/
theorem test_addr : seen (exec (.addr 14) readyState) (fun t => t.bus.win) = some (some (bitsOut 0xCE)) := by
  decide +kernel

/-- R97, R63: a data byte, and the write it makes when STB rises. -/
theorem test_data :
    seen (exec (.data 0x77) { windowState with chip := { Chip.powerUp with mode := some .fixed } })
      (fun t => (t.bus.win, t.strobed.chip.ram)) =
    some (some (bitsOut 0xC0 ++ bitsOut 0x77), [(0, 0x77)]) := by decide +kernel

/-- V-T3: the samples 0,0,0,0,1,0,0,0 give 0x10. -/
theorem test_scanb :
    seen (exec (.scanb 0x10) readyState) (fun t => (t.bus.win, t.scan.b0)) =
    some (some [.inp false, .inp false, .inp false, .inp false, .inp true, .inp false, .inp false, .inp false], 0x10) := by
  decide +kernel

/-- V-G2, V-G4: no acquire while the lock is held; a refused request still takes and releases it. -/
theorem test_guard :
    seen (step { readyState with ports := [.waiting 0x070000, .active 0x0B0000], lockOwner := some 1,
                                 turns := [.acquire 0] }) (fun t => t.lockOwner) = none ∧
    seen (step { waitingState 0x020800 with turns := [.serve 0] }) (fun t => (t.ports, t.lockOwner, t.transactions)) =
      some ([.done ⟨.eRange, 0⟩, .idle], none, []) := by decide +kernel

/-- R267: a byte from outside the sequencer marks while it runs an operation, and does not while it is idle. -/
theorem test_foreign_byte :
    [runningState, readyState].map (fun s => seen (step { s with turns := [.wire .first 0x40] }) fun t => t.bus.misuse) =
      [some true, some false] := by decide +kernel

/-- R309: a release that finds STB low marks, before `init` as after it. -/
theorem test_release_before_init :
    seen (step { windowState with initDone := false, seq := .run 0 0x070000 1 [] }) (fun t => t.bus.misuse) = some true ∧
    seen (step { State.reset with seq := .run 0 0x070000 1 [] }) (fun t => t.bus.misuse) = some false := by decide +kernel

/-- R269: the later turns come in a circle; the steps some agent can make, by the ports. -/
theorem test_later_turns :
    nextTurn { initState with turns := [], later := [.collect 0, .issue 0 0] } = (.collect 0, [.issue 0 0]) ∧
    nextTurn { initState with turns := [.issue 0 0], later := [.collect 0, .issue 0 0] } = (.issue 0 0, []) ∧
    ({ initState with ports := [.idle, .waiting 0, .active 0, .done ⟨.ok, 0⟩] } : State).moves =
      [.block, .issue 0, .collect 3] := by decide

/-- R346: `init` draws a level for each of the three fresh outputs, and `read_scan` one for DIO. -/
theorem test_fresh_outputs :
    seen (exec .init State.reset) (fun t => t.outs) = some 3 ∧
    seen (exec .getButtons readyState) (fun t => t.outs) = some 1 := by decide +kernel

/-! ### Witnesses: a state and operands that meet the hypotheses of each statement -/

theorem ready_readyState : readyState.Ready :=
  ⟨⟨by decide, ⟨rfl, rfl, rfl⟩, rfl, rfl, rfl⟩, by decide, ⟨rfl, rfl⟩⟩

/-- A ready block that holds other parameters than the default. -/
theorem ready_shortTestState : shortTestState.Ready :=
  ⟨⟨by decide, ⟨rfl, rfl, rfl⟩, rfl, rfl, rfl⟩, by decide, ⟨rfl, rfl⟩⟩

theorem witness_DecodeEncodeAgree : (Instr.addr 15).wellFormed Config.default = true := by decide
theorem witness_RequestDecodesByOpcode : ((0 : Byte) = 0 ∨ 0x0E ≤ (0 : Byte).toNat) ∧
    ((0x0E : Byte) = 0 ∨ 0x0E ≤ (0x0E : Byte).toNat) ∧ ((0xFF : Byte) = 0 ∨ 0x0E ≤ (0xFF : Byte).toNat) := by decide

/-- Each clause at a boundary value: the last display-control byte, the last address byte, a reserved byte beside each. -/
theorem witness_WireByteDecodesByPosition :
    Config.default.admitted = true ∧
    ((0x8F : Byte) = 0x80 + BitVec.ofNat 8 (8 * true.toNat + (7 : BitVec 3).toNat)) ∧
    (0xCF : Byte).toNat = Config.default.addrBase.toNat + (15 : BitVec 4).toNat ∧
    (∀ b ∈ [0xD0, 0xBF, 0x90, 0x7F, 0x48], b ≠ (0x40 : Byte) ∧ b ≠ 0x42 ∧ b ≠ 0x44 ∧ b.toNat / 16 ≠ 8 ∧
      ¬ (Config.default.addrBase.toNat ≤ b.toNat ∧ b.toNat ≤ Config.default.addrBase.toNat + 15)) := by decide

theorem witness_AddressMapCoversRegistersOnce : (7 ≤ 7) ∧ (1 ≤ 8 ∧ 8 ≤ 8) ∧ digitAddr 7 = digitAddr 7 ∧
    ledAddr 8 = ledAddr 8 ∧ 15 ≤ 15 := by decide
theorem witness_FoldBitFormula : 7 < 8 ∧ (decide (3 ≤ 7)) = true := by decide
theorem witness_FoldLaws : (0x01 : Byte) ||| 0x03 = 0x03 ∧ (0 : Byte) ||| 0 = 0 := by decide

theorem witness_InOutWindow : windowState.InOutWindow (bitsOut 0xC0) :=
  ⟨by decide, ⟨rfl, rfl, rfl⟩, rfl, rfl, rfl⟩
theorem witness_InReadWindow : scanState.InReadWindow (List.replicate 8 (.inp false)) ∧
    (List.replicate 8 (WireBit.inp false)).length = 8 * 1 := ⟨⟨by decide, ⟨rfl, rfl, rfl⟩, rfl, rfl, rfl⟩, rfl⟩

/-- Both bit orders. -/
theorem witness_ShiftOutDrivesEachBit : windowState.InOutWindow (bitsOut 0xC0) ∧
    ∀ order : BitOrder, ∃ sent : List Bool, sent = (match order with
      | .lsb => (List.range 8).map (0x44 : Byte).getLsbD
      | .msb => (List.range 8).map fun j => (0x44 : Byte).getLsbD (7 - j)) := ⟨witness_InOutWindow, fun _ => ⟨_, rfl⟩⟩

/-- The byte is the one the draws make, whatever they are. -/
theorem witness_ShiftInSamplesEachBit : scanState.InReadWindow (List.replicate 8 (.inp false)) ∧ 3 ≤ 3 ∧
    ∃ v : Byte, ∀ j : Nat, j < 8 → v.getLsbD j = Config.scanLevel (scanState.draws + j) := by
  refine ⟨witness_InReadWindow.1, by decide, drawnByte 0, fun j hj => ?_⟩
  show (drawnByte 0).getLsbD j = Config.scanLevel (0 + j)
  have h : ∀ b0 b1 b2 b3 b4 b5 b6 b7 : Bool, ((List.range 8).map (byteOfBits [b0, b1, b2, b3, b4, b5, b6, b7]).getLsbD) =
      [b0, b1, b2, b3, b4, b5, b6, b7] := by decide +kernel
  have h' := congrArg (fun l => l[j]?) (h (Config.scanLevel 0) (Config.scanLevel 1) (Config.scanLevel 2)
    (Config.scanLevel 3) (Config.scanLevel 4) (Config.scanLevel 5) (Config.scanLevel 6) (Config.scanLevel 7))
  interval_cases j <;> simpa [drawnByte, List.range, List.range.loop] using h'

theorem witness_OutWindowSendsItsBytes : readyState.Between ∧ [(0x44 : Byte)].getLast? = some 0x44 :=
  ⟨ready_readyState.toBetween, rfl⟩

/-- Each clause of each disjunct: no lock, STB at the wrong level, DIO in the wrong direction; a byte and a strobe from
outside in the middle of an operation. -/
theorem witness_BrokenPreconditionsMark :
    (State.reset.lockOwner = none ∧ windowState.bus.lvlStb ≠ some true ∧ scanState.bus.dioDir ≠ .driving ∧
      readyState.bus.lvlStb ≠ some false ∧ windowState.bus.dioDir ≠ .listening) ∧
    ∀ t ∈ [Turn.wire .later 0x77, .strobe], ∃ s : State, (nextTurn s).1 = t ∧ s.seq ≠ .idle :=
  ⟨by decide, fun t _ => ⟨{ runningState with turns := [t] }, rfl, (fun h => by cases h)⟩⟩

/-- With a setup delay and without. -/
theorem witness_ActionCounts : (0 = if 0 < Config.default.tStbSetup then 1 else 0) ∧
    (1 = if 0 < ({ Config.default with tStbSetup := 3 } : Config).tStbSetup then 1 else 0) := by decide

theorem witness_ReadScanTwoWindows : readyState.Ready := ready_readyState
theorem witness_InitBindsAndDefaults : State.reset.initDone = false ∧ State.reset.bus.win = none ∧
    State.reset.bus.lvlClk = none ∧ State.reset.bus.lvlStb = none := by decide
theorem witness_SecondInitRefused : initState.initDone = true := by decide
theorem witness_BeforeInitRefused : State.reset.initDone = false ∧ decodeRequest 0x02FFFF = .ok (.displayVal 0xFF 0xFF) ∧
    Instr.displayVal 0xFF 0xFF ≠ .init := by decide

/-- Each clause at the first value out of range. -/
theorem witness_OutOfRangeRefused : initState.initDone = true ∧ 7 < (8 : Byte).toNat ∧ 15 < (16 : Byte).toNat ∧
    (0 : Byte).toNat < 1 ∧ 8 < (9 : Byte).toNat := by decide

/-- Before `init` and after. -/
theorem witness_IllegalOpRefused : (∀ op ∈ [0x00, 0x0E, 0xFF], op = (0 : Byte) ∨ 0x0E ≤ op.toNat) ∧
    (∀ s ∈ [({ State.reset with ports := [.waiting (requestWord 0x0E 0 0)] } : State),
            waitingState (requestWord 0x0E 0 0)],
      s.lockOwner = none ∧ s.seq = .idle ∧ s.ports[0]? = some (.waiting (requestWord 0x0E 0 0)) ∧
      s.bus.dioDir = .driving ∧ (s.bus.lvlStb = some true ∨ (s.initDone = false ∧ s.bus.lvlStb = none))) := by decide

theorem witness_DisplayValWritesDigit : readyState.Ready ∧ readyState.initDone = true ∧ (7 : Byte).toNat ≤ 7 ∧
    (15 : Byte).toNat ≤ 15 := ⟨ready_readyState, by decide⟩
theorem witness_DisplayDigWritesRawPattern : readyState.Ready ∧ readyState.initDone = true ∧ (7 : Byte).toNat ≤ 7 :=
  ⟨ready_readyState, by decide⟩
theorem witness_DisplayClearBlanksDigits : readyState.Ready ∧ readyState.initDone = true := ⟨ready_readyState, rfl⟩
theorem witness_WriteLedWritesOneBit : readyState.Ready ∧ readyState.initDone = true ∧ 1 ≤ (1 : Byte).toNat ∧
    (8 : Byte).toNat ≤ 8 ∧ (0x01 : Byte) = (if (2 : Byte) = 0 then 0x00 else 0x01) := ⟨ready_readyState, by decide⟩
theorem witness_WriteLedsWritesMask : readyState.Ready ∧ readyState.initDone = true ∧ 7 < 8 ∧
    (0 % 2 = 0 ∨ 15 < 0) ∧ (17 % 2 = 0 ∨ 15 < 17) := ⟨ready_readyState, by decide⟩
theorem witness_TurnOnAndOffSendControl : readyState.Ready ∧ readyState.initDone = true := ⟨ready_readyState, rfl⟩
theorem witness_SetBrightnessSendsControl : readyState.Ready ∧ readyState.initDone = true ∧
    (7 : Byte).toNat = (7 : BitVec 3).toNat := ⟨ready_readyState, by decide⟩
theorem witness_BrightnessSurvivesToggling : readyState.Ready ∧ readyState.initDone = true ∧
    (7 : Byte).toNat = (7 : BitVec 3).toNat := ⟨ready_readyState, by decide⟩
theorem witness_ResetClearsAllRegisters : readyState.Ready ∧ readyState.initDone = true := ⟨ready_readyState, rfl⟩

/-- With frames and with none. -/
theorem witness_TestShowsEachFrame : shortTestState.Ready ∧ shortTestState.initDone = true ∧
    shortTestState.cfg.selfTestFrames = [List.replicate 16 0xFF] ++ [List.replicate 16 0x00] ∧
    ∃ s : State, s.Ready ∧ s.initDone = true ∧ s.cfg.selfTestFrames = [] :=
  ⟨ready_shortTestState, rfl, rfl, { readyState with cfg := { Config.default with selfTestFrames := [] } },
    ⟨⟨by decide, ⟨rfl, rfl, rfl⟩, rfl, rfl, rfl⟩, by decide, ⟨rfl, rfl⟩⟩, rfl, rfl⟩

theorem witness_GetButtonsAnswersFold : readyState.Ready ∧ readyState.initDone = true := ⟨ready_readyState, rfl⟩
theorem witness_GetButtonAnswersOneBit : readyState.Ready ∧ readyState.initDone = true ∧ (7 : Byte).toNat ≤ 7 :=
  ⟨ready_readyState, by decide⟩
theorem witness_CommandBytesReachChip : readyState.Ready := ready_readyState
theorem witness_AddressByteOpensWindow : readyState.Ready ∧
    (0xCF : Byte) = readyState.cfg.addrBase + BitVec.ofNat 8 (15 : BitVec 4).toNat := ⟨ready_readyState, by decide⟩
theorem witness_DataByteExtendsWindow : windowState.InOutWindow (bitsOut 0xC0) := witness_InOutWindow

/-- The first byte of a window and a later one. -/
theorem witness_ScanByteFillsScan : readyState.Ready ∧ scanState.InReadWindow (List.replicate 8 (.inp false)) ∧
    (List.replicate 8 (WireBit.inp false)).length = 8 * 1 ∧ 1 ≤ 1 := ⟨ready_readyState, witness_InReadWindow.1, rfl, by decide⟩
theorem witness_WriteSingleIsItsWireBytes : readyState.Between := ready_readyState.toBetween

/-- Each clause at the edge of its range: the last register, a burst that ends at the last register. -/
theorem witness_ObserverTakesMeaningfulWindows : Chip.powerUp.undefined = false ∧ (0x8F : Byte).toNat / 16 = 8 ∧
    (0xCF : Byte).toNat = Config.default.addrBase.toNat + 15 ∧
    (∃ c : Chip, c.undefined = false ∧ c.mode = some .fixed) ∧
    (∃ c : Chip, c.undefined = false ∧ c.mode = some .auto ∧ 8 + ((1 : Byte) :: List.replicate 7 2).length ≤ 16) ∧
    (∃ c : Chip, c.undefined = false ∧ c.mode = some .read) :=
  ⟨rfl, by decide, by decide, ⟨{ Chip.powerUp with mode := some .fixed }, rfl, rfl⟩,
    ⟨{ Chip.powerUp with mode := some .auto }, rfl, rfl, by decide⟩, ⟨{ Chip.powerUp with mode := some .read }, rfl, rfl⟩⟩

/-- A data window with no mode command before it (U9). -/
theorem witness_OtherWindowsUndefined : Chip.powerUp.undefined = false ∧
    ¬ Meaningful Config.default Chip.powerUp.mode [.out 0xC0, .out 0x01] := by
  refine ⟨rfl, fun h => ?_⟩
  generalize hw : ([.out 0xC0, .out 0x01] : Window) = w at h
  cases h <;> simp_all [Chip.powerUp]

theorem witness_DisplayWritesIdempotent : [(0x77 : Byte)] ≠ [] := by decide

theorem witness_StepKeepsMemoryCanonical : clearState.chip.ram.wf = true ∧
    (∃ t, step clearState = .next t) := ⟨by decide, _, rfl⟩

/-- A port that may issue, one that may not, and a caller that does not exist. -/
theorem witness_IssueMovesIdlePortToWaiting :
    ∃ s : State, nextTurn s = (.issue 1 0x070000, []) ∧ s.ports[1]? = some .idle ∧ s.ports[0]? ≠ some .idle ∧
      s.ports[2]? ≠ some .idle := ⟨{ waitingState 0x070000 with turns := [.issue 1 0x070000] }, by decide⟩

/-- A lock that can be taken; then the lock held, SEQ running, the port not waiting. -/
theorem witness_AcquireTakesFreeLock :
    (∃ s : State, nextTurn s = (.acquire 0, []) ∧ s.lockOwner = none ∧ s.seq = .idle ∧
      s.ports[0]? = some (.waiting 0x070000)) ∧
    (∃ s : State, nextTurn s = (.acquire 0, []) ∧ s.lockOwner ≠ none) ∧
    (∃ s : State, nextTurn s = (.acquire 0, []) ∧ s.seq ≠ .idle) ∧
    (∃ s : State, nextTurn s = (.acquire 0, []) ∧ ∀ req : ReqWord, s.ports[0]? ≠ some (.waiting req)) :=
  ⟨⟨{ waitingState 0x070000 with turns := [.acquire 0] }, by decide⟩,
   ⟨{ readyState with turns := [.acquire 0] }, by decide⟩,
   ⟨{ readyState with turns := [.acquire 0], seq := .run 0 0 0 [] }, by decide⟩,
   ⟨{ initState with turns := [.acquire 0] }, rfl, (fun _ h => by cases h)⟩⟩

/-- Two callers wait at the block's turn; a turn that some agent takes; parameters with two callers. -/
theorem witness_GuardGrantsSomeWaiter :
    (∃ s : State, nextTurn s = (.block, []) ∧ s.lockOwner = none ∧ s.seq = .idle ∧
      s.ports[0]? = some (.waiting 0x060001) ∧ s.ports[1]? = some (.waiting 0x0C0000)) ∧
    (∃ s : State, (nextTurn s).1 = .agent) ∧ (Config.default.admitted = true ∧ 2 ≤ Config.default.nCallers) :=
  ⟨⟨{ initState with ports := [.waiting 0x060001, .waiting 0x0C0000] }, by decide⟩,
   ⟨{ initState with turns := [], later := [.agent] }, rfl⟩, by decide⟩

/-- An action to perform; a list at its end in good order, after `init` and before it; and not: DIO listening, STB low
before `init`, STB not high after it. -/
theorem witness_ExecuteThenRelease :
    (∃ s : State, nextTurn s = (.block, []) ∧ s.seq = .run 0 0 0 [.complete .zero]) ∧
    (∃ s : State, nextTurn s = (.block, []) ∧ s.seq = .run 0 0 1 [] ∧ s.bus.dioDir = .driving ∧ s.bus.lvlStb = some true) ∧
    (∃ s : State, nextTurn s = (.block, []) ∧ s.seq = .run 0 0 1 [] ∧ s.bus.dioDir = .driving ∧ s.initDone = false ∧
      s.bus.lvlStb = none) ∧
    (∃ s : State, nextTurn s = (.block, []) ∧ s.seq = .run 0 0 1 [] ∧ s.bus.dioDir ≠ .driving) ∧
    (∃ s : State, nextTurn s = (.block, []) ∧ s.seq = .run 0 0 1 [] ∧ s.initDone = false ∧ s.bus.lvlStb = some false) ∧
    (∃ s : State, nextTurn s = (.block, []) ∧ s.seq = .run 0 0 1 [] ∧ s.initDone = true ∧ s.bus.lvlStb ≠ some true) :=
  ⟨⟨{ readyState with seq := .run 0 0 0 [.complete .zero] }, by decide⟩, ⟨{ readyState with seq := .run 0 0 1 [] }, by decide⟩,
   ⟨{ State.reset with seq := .run 0 0 1 [] }, by decide⟩, ⟨{ scanState with seq := .run 0 0 1 [] }, by decide⟩,
   ⟨{ windowState with seq := .run 0 0 1 [], initDone := false }, by decide⟩,
   ⟨{ windowState with seq := .run 0 0 1 [] }, by decide⟩⟩

theorem witness_CollectFreesDonePort :
    (∃ s : State, nextTurn s = (.collect 0, []) ∧ s.ports[0]? = some (.done ⟨.ok, 0⟩)) ∧
    (∃ s : State, nextTurn s = (.collect 0, []) ∧ ∀ r : Response, s.ports[0]? ≠ some (.done r)) :=
  ⟨⟨{ initState with turns := [.collect 0], ports := [.done ⟨.ok, 0⟩] }, by decide⟩,
   ⟨{ initState with turns := [.collect 0] }, rfl, (fun _ h => by cases h)⟩⟩

theorem witness_StepRunsDecodedInstruction :
    (∃ s : State, nextTurn s = (.serve 0, []) ∧ s.lockOwner = none ∧ s.seq = .idle ∧ s.ports[0]? = some (.waiting 0x02000A) ∧
      decodeRequest 0x02000A = .ok (.displayVal 0 10)) ∧
    (∃ s : State, nextTurn s = (.wire .first 0xCE, []) ∧ decodeWire s.cfg .first 0xCE = .ok (.addr 14) ∧ s.seq = .idle) ∧
    (∃ s : State, nextTurn s = (.wire .first 0xCE, []) ∧ decodeWire s.cfg .first 0xCE = .ok (.addr 14) ∧ s.seq ≠ .idle) :=
  ⟨⟨{ waitingState 0x02000A with turns := [.serve 0] }, by decide⟩,
   ⟨{ readyState with turns := [.wire .first 0xCE] }, by decide⟩,
   ⟨{ runningState with turns := [.wire .first 0xCE] }, by decide⟩⟩

theorem witness_RequestLevelIsWireLevel : (waitingState 0x070000).lockOwner = none ∧ (waitingState 0x070000).seq = .idle ∧
    (waitingState 0x070000).ports[0]? = some (.waiting 0x070000) := by decide

/-- Callers that wait and are served, in a state that is not the reset state. -/
theorem inv_waitingState (req : ReqWord) (ts : List Turn) (h : ts.all Turn.ofRequests = true) :
    ({ waitingState req with turns := ts } : State).Inv := by
  refine ⟨by show Config.default.admitted = true; decide, rfl, h, rfl, rfl, fun c r => ?_,
    ⟨⟨rfl, rfl⟩, rfl, rfl, rfl, fun _ => ⟨⟨rfl, rfl, rfl⟩, rfl⟩, (fun hf => by cases hf), .inl rfl⟩⟩
  show ([Port.waiting req, .idle] : List Port)[c]? ≠ some (.active r)
  match c with
  | 0 => simp
  | 1 => simp
  | n + 2 => simp

theorem inv_running : runningState.Inv := by
  refine ⟨by show Config.default.admitted = true; decide, rfl, rfl, rfl, rfl, rfl, fun c r h => ?_, ⟨trivial, trivial⟩,
    ⟨⟨rfl, rfl⟩, rfl, rfl, rfl, fun _ => ⟨⟨rfl, rfl, rfl⟩, rfl⟩, (fun hf => by cases hf), .inl rfl⟩⟩
  match c with
  | 0 => rfl
  | 1 => cases h
  | n + 2 => cases h

theorem witness_StepKeepsBlockInvariant :
    ∃ s s' : State, s.Inv ∧ step s = .next s' := ⟨_, _, inv_waitingState 0x070000 [.serve 0] rfl, rfl⟩
theorem witness_PowerUpMeetsBlockInvariant : ({ Config.default with addrBase := 0xD0 } : Config).admitted = true := by decide
theorem witness_RequestsNeverMark : ∃ s : State, s.Inv ∧ s.seq ≠ .idle := ⟨_, inv_running, by decide⟩
/-- A serving step that sends a display-control window; each premise of the three clauses holds of what it leaves. -/
theorem witness_FreeLockMeansQuietBus :
    ∃ s s' : State, s.Inv ∧ step s = .next s' ∧ s'.lockOwner = none ∧ s'.initDone = true ∧ s'.chip.dc ≠ none := by
  have h : seen (step { waitingState 0x070000 with turns := [.serve 0] }) (fun t => (t.lockOwner, t.initDone, t.chip.dc)) =
      some (none, true, some (true, 0)) := by decide +kernel
  obtain ⟨t, ht, he⟩ := seen_some h
  obtain ⟨h1, h2, h3⟩ : t.lockOwner = none ∧ t.initDone = true ∧ t.chip.dc = some (true, 0) := by simpa using he
  exact ⟨_, t, inv_waitingState 0x070000 [.serve 0] rfl, ht, h1, h2, h3 ▸ (fun hd => by cases hd)⟩

theorem witness_MarksAreSticky : ∃ s s' : State, s.bus.misuse = true ∧ s.chip.undefined = true ∧ step s = .next s' :=
  ⟨{ readyState.misused with chip := Chip.powerUp.markUndefined }, _, rfl, rfl, rfl⟩

/-- Between operations and in the middle of one. -/
theorem witness_InitDoneNeverCleared :
    (∃ s s' : State, (nextTurn s).1 ≠ .powerLoss ∧ s.initDone = true ∧ step s = .next s' ∧ s.Inv ∧ s.seq = .idle) ∧
    ∃ s s' : State, (nextTurn s).1 ≠ .powerLoss ∧ s.initDone = true ∧ step s = .next s' ∧ s.Inv ∧ s.seq ≠ .idle :=
  ⟨⟨{ waitingState 0x010000 with turns := [.serve 0] }, _, by decide, rfl, rfl, inv_waitingState 0x010000 [.serve 0] rfl, rfl⟩,
   ⟨runningState, _, by decide, rfl, rfl, inv_running, by decide⟩⟩
theorem witness_StepKeepsParameters : ∃ t, step State.reset = .next t := ⟨_, rfl⟩
theorem witness_OnlySevenWindowForms : readyState.Ready ∧ decodeRequest 0x0A0000 = .ok .reset ∧
    (∃ t, exec .reset readyState = .next t) := ⟨ready_readyState, by decide, _, rfl⟩

/-- The trace of power-up, of a state in the middle of an operation, and of one whose next turn is on the wire. -/
theorem witness_ExecKeepsTraceDerived :
    (State.reset.traceDerived ∧ ∃ t, exec .init State.reset = .next t) ∧
    (∃ s s' : State, s.traceDerived ∧ step s = .next s' ∧ s.Inv ∧ s.seq ≠ .idle) ∧
    ∃ s s' : State, s.traceDerived ∧ step s = .next s' ∧ nextTurn s = (.wire .first 0xCE, []) :=
  ⟨⟨rfl, _, rfl⟩,
   ⟨{ runningState with bus := { readyState.bus with log := [.setLevel .dio 1 true] } }, _, rfl, rfl,
    ⟨inv_running.admitted, inv_running.ports, inv_running.requests, inv_running.laterRequests, inv_running.sequenced.1, inv_running.sequenced.2.1,
      inv_running.sequenced.2.2.1, ⟨trivial, trivial⟩,
      ⟨⟨rfl, rfl⟩, rfl, rfl, rfl, fun _ => ⟨⟨rfl, rfl, rfl⟩, rfl⟩, (fun hf => by cases hf), .inl rfl⟩⟩, by decide⟩,
   ⟨{ State.reset with turns := [.wire .first 0xCE] }, _, rfl, rfl, rfl⟩⟩

/-- CLK high, as `init` leaves it, and CLK low. -/
theorem witness_FirstPulseAfterInitHasNoEdge : (State.reset.initDone = false ∧ State.reset.bus.win = none) ∧
    (∃ s : State, s.Between ∧ s.bus.lvlClk = some true) ∧ (∃ s : State, s.Between ∧ s.bus.lvlClk = some false) ∧
    [(0x44 : Byte)] ≠ [] :=
  ⟨by decide, ⟨readyState, ready_readyState.toBetween, rfl⟩,
   ⟨{ readyState with bus := { readyState.bus with lvlClk := some false } }, ⟨by decide, ⟨rfl, rfl, rfl⟩, rfl, rfl, rfl⟩, rfl⟩,
   by decide⟩
theorem witness_TimingLowerBounds : windowState.InOutWindow (bitsOut 0xC0) ∧ windowState.cfg.admitted = true ∧
    readyState.Ready ∧ readyState.initDone = true := ⟨witness_InOutWindow, by decide, ready_readyState, rfl⟩
theorem witness_PowerUpAndPowerLoss : ∃ s : State, nextTurn s = (.powerLoss, []) ∧ s.initDone = true :=
  ⟨{ initState with turns := [.powerLoss] }, rfl, rfl⟩
theorem witness_InitThenResetKnowsAllCells : Config.default.admitted = true ∧ 15 ≤ 15 := by decide

end Sys2Proof.Tests
end

section
/-! PROOFS. O56: the transaction trace stays the one the wire trace gives (R7), a corollary of what each action keeps
(`State.performAll_traceDerived`) and of what a step can do (`step_next`). -/

namespace Sys2Proof.Machine

/-! ### The trace does not see the control state -/

theorem State.controlled_traceDerived {s : State} (q : Seq) (lo : Option Nat) (ps : List Port) (ts : List Turn) (g : Nat) :
    (s.controlled q lo ps ts g).traceDerived ↔ s.traceDerived := Iff.rfl

theorem State.misusedIf_traceDerived {s : State} (b : Bool) : (s.misusedIf b).traceDerived ↔ s.traceDerived := by
  cases b <;> exact Iff.rfl

/-! ### When the sequencer's next action is allowed -/

/-- The invariant allows every action still to come, the next one first (R21, R193). -/
theorem State.Inv.nextAllowed {s : State} (h : s.Inv) : s.nextAllowed := by
  intro c req k a rest _ hq
  have hseq := h.sequenced
  simp only [State.sequenced, hq] at hseq
  obtain ⟨-, -, -, hallows, -⟩ := hseq
  exact hallows.1

/-- A turn of the wire is no turn of the sequencer. -/
theorem State.nextAllowed_of_wireTurn {s : State}
    (h : ∃ (pos : WirePos) (b : Byte), (nextTurn s).1 = .wire pos b ∨ (nextTurn s).1 = .strobe) : s.nextAllowed := by
  intro c req k a rest hturn _
  obtain ⟨pos, b, h | h⟩ := h <;> rw [h] at hturn <;> simp at hturn

/-! ### Instructions, steps and power loss -/

theorem exec_traceDerived {i : Instr} {s t : State} (h : s.traceDerived) (he : exec i s = .next t) : t.traceDerived := by
  obtain ⟨l, q, hallows, hexec⟩ := exec_performs i s
  rw [hexec] at he
  cases he
  exact State.performAll_traceDerived hallows h

theorem State.Advanced.traceDerived {s t : State} (ha : s.Advanced t) (hn : s.nextAllowed) (h : s.traceDerived) :
    t.traceDerived := by
  obtain ⟨q, q', lo, lo', ps, ps', ts, ts', g, g', b, b', l, hallows, rfl⟩ := ha
  rw [State.controlled_traceDerived, State.misusedIf_traceDerived]
  refine State.performAll_traceDerived (hallows hn) ?_
  rwa [State.misusedIf_traceDerived, State.controlled_traceDerived]

/-- Power loss empties both traces (R37). -/
theorem State.powerLost_traceDerived (s : State) : s.powerLost.traceDerived := rfl

theorem step_traceDerived {s t : State} (h : s.traceDerived) (hn : s.nextAllowed) (hs : step s = .next t) :
    t.traceDerived := by
  obtain hadv | ⟨-, rfl⟩ := step_next hs
  · exact hadv.traceDerived hn h
  · exact State.powerLost_traceDerived _

/-- Settles O56: every instruction and every step performs allowed actions, and those keep the trace derived. -/
theorem execKeepsTraceDerived : Obligations.ExecKeepsTraceDerived := by
  refine ⟨fun i s t h he => exec_traceDerived h he, fun s b h => ⟨?_, ?_⟩, fun s s' h hs hcase => ?_⟩
  · exact State.performAll_traceDerived (State.allows_strobeActions s s) h
  · exact State.performAll_traceDerived (State.allows_of_free (free_outWindow s.cfg [b]) s) h
  · exact step_traceDerived h (hcase.elim State.Inv.nextAllowed State.nextAllowed_of_wireTurn) hs

end Sys2Proof.Machine
end

section
/-! PROOFS. O47: the request level is the wire level (R7, R262 to R264). One execute step performs one action, so the
block's turns perform the action list that the one-step service performs, and both end in the same release. -/

namespace Sys2Proof.Machine

/-- The action list of a request reads the parameters and the display state only, no control state (R262). -/
theorem requestActions_controlled (req : ReqWord) (s : State) (q : Seq) (lo : Option Nat) (ps : List Port)
    (ts : List Turn) (g : Nat) : requestActions req (s.controlled q lo ps ts g) = requestActions req s := by
  unfold requestActions
  cases decodeRequest req with
  | ok i => cases i <;> rfl
  | error e => rfl

/-- An execute step performs the next action and moves SEQ past it (R263). -/
theorem step_execute (s : State) (c : Nat) (req : ReqWord) (k : Nat) (a : Action) (l : List Action) (ps : List Port)
    (ts : List Turn) (g : Nat) :
    step (s.withControl (.run c req k (a :: l)) ps (.block :: ts) g) =
      .next ((s.perform a).withControl (.run c req (k + 1) l) ps ts g) := by
  rw [step_of_turn (u := .block) (ts := ts) rfl]
  exact congrArg (fun t : State => Host.Outcome.next { t with seq := .run c req (k + 1) l })
    (State.perform_withControl s (.run c req k (a :: l)) ps ts g a)

/-- The step after the last action is the release (R264). -/
theorem step_release (s : State) (c : Nat) (req : ReqWord) (k : Nat) (ps : List Port) (ts : List Turn) (g : Nat) :
    step (s.withControl (.run c req k []) ps (.block :: ts) g) =
      .next ((s.withControl (.run c req k []) ps ts g).released c) := rfl

/-- The sequencer's turns, one per action and one for the release: the whole list is performed, then released. -/
theorem run_sequencer (s : State) (c : Nat) (req : ReqWord) (k : Nat) (l : List Action) (ps : List Port)
    (ts : List Turn) (g : Nat) :
    Host.Core.run Sys2Proof.core (l.length + 1)
        (s.withControl (.run c req k l) ps (List.replicate (l.length + 1) .block ++ ts) g) =
      .next (((s.performAll l).withControl (.run c req (k + l.length) []) ps ts g).released c) := by
  induction l generalizing s k with
  | nil => exact (core_run_next (step_release s c req k ps ts g)).trans (core_run_zero _)
  | cons a l ih =>
    rw [State.performAll_cons, List.length_cons, show k + (l.length + 1) = k + 1 + l.length by omega, ← ih]
    exact core_run_next (step_execute s c req k a l ps _ g)

/-- An acquisition takes the lock and leaves `SEQ` before the first action (R262). -/
theorem State.accepted_withTurns (s : State) (c : Nat) (req : ReqWord) (ts : List Turn) :
    ({ s with turns := ts } : State).accepted c req =
      ({ s with lockOwner := some c } : State).withControl (.run c req 0 (requestActions req s))
        (s.ports.set c (.active req)) ts s.choices := by
  have hl : requestActions req { s with turns := ts } = requestActions req s :=
    requestActions_controlled req s s.seq s.lockOwner s.ports ts s.choices
  simp only [State.accepted, hl, State.withControl]

/-- An acquisition where the lock may be granted: the request's whole list is still to come (R262). -/
theorem step_acquire {s : State} {c : Nat} {req : ReqWord} (h : s.grantable c = some req) (ts : List Turn) :
    step { s with turns := .acquire c :: ts } =
      .next (({ s with lockOwner := some c } : State).withControl (.run c req 0 (requestActions req s))
        (s.ports.set c (.active req)) ts s.choices) := by
  have hgrant : ({ s with turns := ts } : State).grantable c = some req := h
  have hstep : step { s with turns := .acquire c :: ts } = acquire c { s with turns := ts } := rfl
  rw [hstep, acquire, hgrant]
  exact congrArg Host.Outcome.next (State.accepted_withTurns s c req ts)

/-- A request served in one step: the whole list is performed, then released (R262 to R264). -/
theorem step_serve {s : State} {c : Nat} {req : ReqWord} (h : s.grantable c = some req) (ts : List Turn) :
    step { s with turns := .serve c :: ts } =
      .next (((({ s with lockOwner := some c } : State).performAll (requestActions req s)).withControl
        (.run c req (requestActions req s).length []) (s.ports.set c (.active req)) ts s.choices).released c) := by
  have hgrant : ({ s with turns := ts } : State).grantable c = some req := h
  have hl : requestActions req (({ s with turns := ts } : State).accepted c req) = requestActions req s :=
    requestActions_controlled req s _ _ _ _ _
  have hstep : step { s with turns := .serve c :: ts } = serve c { s with turns := ts } := rfl
  simp only [hstep, serve, hgrant, runRequest_eq, hl, runOperation, releaseAfter]
  rw [State.accepted_withTurns, State.performAll_withControl]
  simp only [State.withControl, Seq.advance, Nat.zero_add, List.drop_length]

theorem State.grantable_of_waiting {s : State} {c : Nat} {req : ReqWord} (hlock : s.lockOwner = none)
    (hseq : s.seq = .idle) (hport : s.ports[c]? = some (.waiting req)) : s.grantable c = some req := by
  simp only [State.grantable, hlock, hseq, hport]

/-- Settles O47: after the acquisition the sequencer's turns perform the list that the service performs, and both
release. -/
theorem requestLevelIsWireLevel : Obligations.RequestLevelIsWireLevel := by
  intro s c req ts hlock hseq hport
  have hgrant := State.grantable_of_waiting hlock hseq hport
  rw [core_run_next (step_acquire hgrant _), run_sequencer, Nat.zero_add, step_serve hgrant]
  rfl

end Sys2Proof.Machine
end

section
/-! PROOFS. O48: every step under requests keeps the invariant of the block (R25, R28, R36, R166, R264, R309). One lemma
says which changes of the ports, the turns and the counter of choices the invariant does not see, one says that
performing the next actions of the list keeps it; acquisition, release and power loss have one lemma each, and a turn is
assembled from these. -/

namespace Sys2Proof.Machine

/-! ### The invariant, read off by `SEQ` -/

theorem State.sequenced_idle {s : State} (hq : s.seq = .idle) :
    s.sequenced ↔ s.lockOwner = none ∧ (∀ (c : Nat) (req : ReqWord), s.ports[c]? ≠ some (.active req)) ∧ s.AtRest := by
  simp only [State.sequenced, hq]

theorem State.sequenced_run {s : State} {c k : Nat} {req : ReqWord} {todo : List Action}
    (hq : s.seq = .run c req k todo) :
    s.sequenced ↔ s.lockOwner = some c ∧ s.ports[c]? = some (.active req) ∧
      (∀ (c' : Nat) (req' : ReqWord), s.ports[c']? = some (.active req') → c' = c) ∧
      s.allows todo ∧ (s.performAll todo).AtRest := by
  simp only [State.sequenced, hq]

/-- Where the lock is free no operation runs, so the block is at rest (R28). -/
theorem State.Inv.atRest_of_free {s : State} (h : s.Inv) (hl : s.lockOwner = none) : s.AtRest := by
  cases hq : s.seq with
  | idle =>
    obtain ⟨-, -, hrest⟩ := (State.sequenced_idle hq).mp h.sequenced
    exact hrest
  | run c req k todo =>
    obtain ⟨howner, -⟩ := (State.sequenced_run hq).mp h.sequenced
    rw [hl] at howner
    cases howner

/-- No mark is set in the middle of an operation either: a mark would last to its end (R309). -/
theorem State.Inv.unmarked {s : State} (h : s.Inv) : s.unmarked := by
  cases hq : s.seq with
  | idle =>
    obtain ⟨-, -, hrest⟩ := (State.sequenced_idle hq).mp h.sequenced
    exact hrest.unmarked
  | run c req k todo =>
    obtain ⟨-, -, -, -, hrest⟩ := (State.sequenced_run hq).mp h.sequenced
    obtain ⟨hmisuse, hundefined⟩ := hrest.unmarked
    obtain ⟨keepMisuse, keepUndefined⟩ := State.performAll_marks s todo
    exact ⟨Bool.eq_false_iff.mpr fun hm => Bool.eq_false_iff.mp hmisuse (keepMisuse hm),
      Bool.eq_false_iff.mpr fun hu => Bool.eq_false_iff.mp hundefined (keepUndefined hu)⟩

/-! ### Changes the invariant does not see: issue, collect and the schedule (R261, R265) -/

/-- Ports may change as long as the active ones stay; the turns and the counter of choices may change freely. -/
theorem State.Inv.withControl {s : State} (h : s.Inv) {ps : List Port} {ts : List Turn} (g : Nat)
    (hlen : ps.length = s.ports.length)
    (hactive : ∀ (c : Nat) (req : ReqWord), ps[c]? = some (.active req) ↔ s.ports[c]? = some (.active req))
    (hts : ts.all Turn.ofRequests = true) : (s.withControl s.seq ps ts g).Inv := by
  refine ⟨h.admitted, hlen.trans h.ports, hts, h.laterRequests, ?_⟩
  cases hq : s.seq with
  | idle =>
    obtain ⟨howner, hnone, hrest⟩ := (State.sequenced_idle hq).mp h.sequenced
    exact ⟨howner, fun c req hc => hnone c req ((hactive c req).mp hc), hrest.controlled _ _ ps ts g⟩
  | run c req k todo =>
    obtain ⟨howner, hport, honly, hallows, hrest⟩ := (State.sequenced_run hq).mp h.sequenced
    refine (State.sequenced_run rfl).mpr ⟨howner, (hactive c req).mpr hport,
      fun c' req' hc => honly c' req' ((hactive c' req').mp hc), (State.allows_withControl ..).mpr hallows, ?_⟩
    rw [State.performAll_withControl]
    exact hrest.controlled _ _ ps ts g

theorem State.Inv.withSchedule {s : State} (h : s.Inv) {ts : List Turn} (hts : ts.all Turn.ofRequests = true) (g : Nat) :
    (s.withControl s.seq s.ports ts g).Inv :=
  h.withControl g rfl (fun _ _ => Iff.rfl) hts

theorem State.Inv.withChoices {s : State} (h : s.Inv) (g : Nat) : ({ s with choices := g } : State).Inv :=
  h.withSchedule h.requests g

/-- Setting an element that neither was nor becomes active leaves the active ports as they were. -/
theorem getElem?_set_eq_active {ports : List Port} {c : Nat} {old new : Port} (hold : ports[c]? = some old)
    (hna : ∀ req, old ≠ .active req) (hna' : ∀ req, new ≠ .active req) (c' : Nat) (req : ReqWord) :
    (ports.set c new)[c']? = some (.active req) ↔ ports[c']? = some (.active req) := by
  obtain rfl | hne := eq_or_ne c c'
  · rw [List.getElem?_set_self (List.getElem?_eq_some_iff.mp hold).1, hold]
    simp [hna, hna']
  · rw [List.getElem?_set_ne hne]

theorem State.Inv.setPort {s : State} (h : s.Inv) {c : Nat} {old new : Port} (hold : s.ports[c]? = some old)
    (hna : ∀ req, old ≠ .active req) (hna' : ∀ req, new ≠ .active req) : (s.setPort c new).Inv :=
  h.withControl s.choices List.length_set (getElem?_set_eq_active hold hna hna') h.requests

theorem State.Inv.issued {s t : State} {c : Nat} {req : ReqWord} (h : s.Inv) (hs : issue c req s = .next t) : t.Inv := by
  unfold issue at hs
  split at hs
  case h_1 hport =>
    cases hs
    exact h.setPort hport nofun nofun
  case h_2 => cases hs

theorem State.Inv.collected {s t : State} {c : Nat} (h : s.Inv) (hs : collect c s = .next t) : t.Inv := by
  unfold collect at hs
  split at hs
  case h_1 hport =>
    cases hs
    exact h.setPort hport nofun nofun
  case h_2 => cases hs

/-! ### Acquire (R262) -/

theorem State.grantable_eq_some {s : State} {c : Nat} {req : ReqWord} (h : s.grantable c = some req) :
    s.lockOwner = none ∧ s.seq = .idle ∧ s.ports[c]? = some (.waiting req) := by
  unfold State.grantable at h
  split at h
  case h_1 hl hq hport =>
    cases h
    exact ⟨hl, hq, hport⟩
  case h_2 => cases h

/-- An acquisition builds a list of allowed actions after which the block is at rest. -/
theorem State.Inv.accepted {s : State} {c : Nat} {req : ReqWord} (h : s.Inv) (hg : s.grantable c = some req) :
    (s.accepted c req).Inv := by
  obtain ⟨-, hidle, hport⟩ := State.grantable_eq_some hg
  obtain ⟨-, hnone, hrest⟩ := (State.sequenced_idle hidle).mp h.sequenced
  have hlist : requestActions req (s.accepted c req) = requestActions req s :=
    requestActions_controlled req s _ _ _ _ _
  have hallows := State.allows_requestActions req (s.accepted c req)
  have hafter : ((s.accepted c req).performAll (requestActions req (s.accepted c req))).AtRest :=
    State.AtRest.afterRequest (s := s.accepted c req)
      (hrest.controlled (.run c req 0 (requestActions req s)) (some c) (s.ports.set c (.active req)) s.turns s.choices)
      (Option.some_ne_none c) h.admitted req
  rw [hlist] at hallows hafter
  refine ⟨h.admitted, List.length_set.trans h.ports, h.requests, h.laterRequests,
    (State.sequenced_run rfl).mpr ⟨rfl, ?_, fun c' req' hc => ?_, hallows, hafter⟩⟩
  · exact List.getElem?_set_self (List.getElem?_eq_some_iff.mp hport).1
  · by_contra hne
    exact hnone c' req' ((List.getElem?_set_ne (Ne.symm hne)).symm.trans hc)

theorem State.Inv.acquired {s t : State} {c : Nat} (h : s.Inv) (hs : acquire c s = .next t) : t.Inv := by
  obtain ⟨req, rfl, hg⟩ := acquire_advances hs
  exact h.accepted hg

/-! ### Execute and release (R263, R264) -/

theorem State.allows_append (s : State) (l r : List Action) :
    s.allows (l ++ r) ↔ s.allows l ∧ (s.performAll l).allows r := by
  induction l generalizing s with
  | nil => simp only [List.nil_append, State.allows, State.performAll_nil, true_and]
  | cons a l ih => simp only [List.cons_append, State.allows, State.performAll_cons, ih, and_assoc]

/-- Performing the next actions of the list, one or all of them, keeps the invariant: what it says of the end of the
list is still to come. -/
theorem State.Inv.performedNext {s : State} (h : s.Inv) {c k : Nat} {req : ReqWord} {l r : List Action}
    (hq : s.seq = .run c req k (l ++ r)) (k' : Nat) : ({ s.performAll l with seq := .run c req k' r } : State).Inv := by
  obtain ⟨hcfg, hlock, -, hports, hturns, -⟩ := State.performAll_keeps s l
  obtain ⟨howner, hport, honly, hallows, hrest⟩ := (State.sequenced_run hq).mp h.sequenced
  obtain ⟨-, hallows⟩ := (State.allows_append s l r).mp hallows
  rw [State.performAll_append] at hrest
  generalize hu : s.performAll l = u at hallows hrest hcfg hlock hports hturns ⊢
  have hlater : u.later = s.later := hu ▸ State.performAll_later s l
  have hrest' : ((u.withControl (.run c req k' r) u.ports u.turns u.choices).performAll r).AtRest := by
    rw [State.performAll_withControl]
    exact hrest.controlled _ _ _ _ _
  exact ⟨hcfg ▸ h.admitted, by rw [hports, hcfg, h.ports], hturns ▸ h.requests, hlater ▸ h.laterRequests,
    (State.sequenced_run rfl).mpr ⟨hlock.trans howner, hports ▸ hport, hports ▸ honly,
      (State.allows_withControl u _ u.ports u.turns u.choices r).mpr hallows, hrest'⟩⟩

/-- The release finds the block at rest, so it frees the lock and sets no mark. -/
theorem State.Inv.released {s : State} (h : s.Inv) {c k : Nat} {req : ReqWord} (hq : s.seq = .run c req k []) :
    (s.released c).Inv := by
  obtain ⟨-, -, honly, -, hrest⟩ := (State.sequenced_run hq).mp h.sequenced
  have hrest : s.AtRest := hrest
  rw [hrest.released c]
  refine ⟨h.admitted, List.length_set.trans h.ports, h.requests, h.laterRequests,
    (State.sequenced_idle rfl).mpr ⟨rfl, fun c' req' hc => ?_, hrest.controlled _ _ _ _ _⟩⟩
  have hset : (s.ports.set c (.done s.resp))[c']? = some (.active req') := hc
  obtain rfl | hne := eq_or_ne c c'
  · rw [List.getElem?_set_self'] at hset
    cases hport : s.ports[c]? <;> simp [hport] at hset
  · rw [List.getElem?_set_ne hne] at hset
    exact hne (honly c' req' hset).symm

/-- A request served in one step: acquired, its whole list performed, released. -/
theorem State.Inv.served {s t : State} {c : Nat} (h : s.Inv) (hs : serve c s = .next t) : t.Inv := by
  unfold serve at hs
  split at hs
  case h_1 req hg =>
    have hlist : requestActions req (s.accepted c req) = requestActions req s :=
      requestActions_controlled req s _ _ _ _ _
    rw [runRequest_eq, hlist] at hs
    cases hs
    have hperformed := (h.accepted hg).performedNext (l := requestActions req s) (r := [])
      (by rw [List.append_nil]; rfl) (requestActions req s).length
    have hadvance : (s.accepted c req).seq.advance (requestActions req s).length =
        .run c req (requestActions req s).length [] := by
      simp only [State.accepted, Seq.advance, Nat.zero_add, List.drop_length]
    rw [hadvance]
    exact hperformed.released rfl
  case h_2 => cases hs

/-! ### The block's own step, and an agent's (R262 to R264, R269) -/

theorem State.Inv.blockStepped {s t : State} (h : s.Inv) (hs : blockStep s = .next t) : t.Inv := by
  unfold blockStep at hs
  split at hs
  case h_1 c req k a rest hq =>
    cases hs
    exact h.performedNext (l := [a]) hq (k + 1)
  case h_2 c req k hq =>
    cases hs
    exact h.released hq
  case h_3 hq =>
    split at hs
    case h_1 | h_2 =>
      cases hs
      exact h
    case h_3 => exact h.acquired hs
    case h_4 => exact (h.withChoices _).acquired hs

theorem State.Inv.agentStepped {s t : State} (h : s.Inv) (hs : agentStep s = .next t) : t.Inv := by
  unfold agentStep at hs
  split at hs
  case h_1 => exact (h.withChoices _).blockStepped hs
  case h_2 => exact (h.withChoices _).issued hs
  case h_3 => exact (h.withChoices _).collected hs

/-! ### Power loss (R37, R308) -/

theorem Chip.eq_powerUp_of_unmarked {c : Chip} (h : c.undefined = false) :
    ({ Chip.powerUp with undefined := c.undefined } : Chip) = Chip.powerUp := by rw [h]; rfl

/-- Under the invariant no mark is set, so power loss brings the block back to power-up, marks included. -/
theorem State.Inv.powerLost {s : State} (h : s.Inv) : s.powerLost.Inv := by
  obtain ⟨hmisuse, hundefined⟩ := h.unmarked
  have hrest : s.powerLost.AtRest :=
    ⟨⟨hmisuse, hundefined⟩, rfl, rfl, rfl, nofun, fun _ => ⟨Chip.eq_powerUp_of_unmarked hundefined, rfl⟩, .inl rfl⟩
  have hnone : ∀ (c : Nat) (req : ReqWord), s.powerLost.ports[c]? ≠ some (.active req) := by
    intro c req hc
    have hmem : Port.active req ∈ List.replicate s.cfg.nCallers Port.idle := List.mem_of_getElem? hc
    cases List.eq_of_mem_replicate hmem
  exact ⟨h.admitted, List.length_replicate, h.requests, h.laterRequests,
    (State.sequenced_idle rfl).mpr ⟨rfl, hnone, hrest⟩⟩

/-! ### One turn, and one step -/

/-- The turn that comes next, and those after it, are turns of requests. -/
theorem State.Inv.nextTurn_ofRequests {s : State} (h : s.Inv) :
    (nextTurn s).1.ofRequests = true ∧ (nextTurn s).2.all Turn.ofRequests = true := by
  have hturns := h.requests
  have hlater := h.laterRequests
  unfold nextTurn
  split
  case h_1 _ t rest ht =>
    rw [ht] at hturns
    simpa using hturns
  case h_2 t rest _ hl =>
    rw [hl] at hlater
    simpa using hlater
  case h_3 => exact ⟨rfl, rfl⟩

theorem State.Inv.turnTaken {s t : State} {u : Turn} (h : s.Inv) (hu : u.ofRequests = true)
    (hs : takeTurn u s = .next t) : t.Inv := by
  cases u with
  | issue c req => exact h.issued hs
  | acquire c => exact h.acquired hs
  | block => exact h.blockStepped hs
  | serve c => exact h.served hs
  | collect c => exact h.collected hs
  | wire pos b => cases hu
  | strobe => cases hu
  | powerLoss =>
    cases hs
    exact h.powerLost
  | agent => exact h.agentStepped hs

/-- Settles O48: the turn leaves the list, which the invariant does not see, and each turn of a request keeps it. -/
theorem stepKeepsBlockInvariant : Obligations.StepKeepsBlockInvariant := by
  intro s s' h hs
  obtain ⟨hturn, hrest⟩ := h.nextTurn_ofRequests
  exact State.Inv.turnTaken (h.withSchedule hrest s.choices) hturn hs

end Sys2Proof.Machine
end

section
/-! PROOFS. O51 and O53: what the invariant says where the lock is free (R25, R36, R166, R264), and what no step but power
loss changes (R21, R22), read off from what a step can do (`step_next`). -/

namespace Sys2Proof.Machine

/-- Settles O51: the next state meets the invariant, and with the lock free that means the block is at rest. -/
theorem freeLockMeansQuietBus : Obligations.FreeLockMeansQuietBus := by
  intro s s' h hs hfree
  have hrest := (stepKeepsBlockInvariant s s' h hs).atRest_of_free hfree
  refine ⟨hrest.noWindow, hrest.driving, fun hi => ?_, hrest.shadow.resolve_left⟩
  obtain ⟨-, hstrobe⟩ := hrest.afterInit hi
  exact hstrobe

/-! ### What a step other than power loss keeps -/

@[simp] theorem State.misusedIf_initDone (s : State) (b : Bool) : (s.misusedIf b).initDone = s.initDone := by
  cases b <;> rfl

@[simp] theorem State.misusedIf_bus_pin (s : State) (b : Bool) : (s.misusedIf b).bus.pin = s.bus.pin := by
  cases b <;> rfl

/-- Neither the control state nor a mark nor an action clears INIT_DONE (R22). -/
theorem State.Advanced.initDone {s t : State} (ha : s.Advanced t) (hi : s.initDone = true) : t.initDone = true := by
  obtain ⟨q, q', lo, lo', ps, ps', ts, ts', g, g', b, b', l, -, rfl⟩ := ha
  have hstart : ((s.controlled q lo ps ts g).misusedIf b).initDone = true := (State.misusedIf_initDone _ b).trans hi
  exact (State.misusedIf_initDone _ b').trans (State.performAll_initDone _ l hstart)

/-- After `init` allowed actions keep the pins, and the control state and the mark do not touch them (R21). -/
theorem State.Advanced.pin {s t : State} (ha : s.Advanced t) (hn : s.nextAllowed) (hi : s.initDone = true) :
    t.bus.pin = s.bus.pin := by
  obtain ⟨q, q', lo, lo', ps, ps', ts, ts', g, g', b, b', l, hallows, rfl⟩ := ha
  have hstart : ((s.controlled q lo ps ts g).misusedIf b).initDone = true := (State.misusedIf_initDone _ b).trans hi
  calc
    _ = (((s.controlled q lo ps ts g).misusedIf b).performAll l).bus.pin := State.misusedIf_bus_pin _ b'
    _ = ((s.controlled q lo ps ts g).misusedIf b).bus.pin := State.performAll_pin (hallows hn) hstart
    _ = s.bus.pin := State.misusedIf_bus_pin _ b

/-- Settles O53: a step other than power loss advances, and under the invariant the sequencer's next action is allowed. -/
theorem initDoneNeverCleared : Obligations.InitDoneNeverCleared := by
  intro s s' hturn hi hs
  obtain hadv | ⟨hloss, -⟩ := step_next hs
  · refine ⟨hadv.initDone hi, fun hinv => ?_⟩
    have hpin := hadv.pin hinv.nextAllowed hi
    exact ⟨congrFun hpin .clk, congrFun hpin .dio, congrFun hpin .stb⟩
  · exact absurd hloss hturn

end Sys2Proof.Machine
end

section
/-! PROOFS. O37, O38 and O39: the wire observer (R62 to R66, R69). A window of an address byte and data is a data write or
undefined, and a data write is one of three things; the meaning of each window, the complement and the idempotence follow
from these. -/

namespace Sys2Proof.Machine

/-! ### Data writes (R63, R64) -/

theorem Chip.dataWrite_fixed {c : Chip} (hm : c.mode = some .fixed) (p : Nat) (v : Byte) :
    c.dataWrite p [v] = { c with ram := c.ram.write p v } := by
  simp only [Chip.dataWrite, hm]

theorem Chip.dataWrite_auto {c : Chip} (hm : c.mode = some .auto) {p : Nat} {vs : List Byte}
    (hk : p + vs.length ≤ 16) : c.dataWrite p vs = { c with ram := c.ram.writeBurst p vs } := by
  simp only [Chip.dataWrite, hm, if_pos hk]

/-- All that a data write can do: one register, a burst within the registers, or the mark. -/
theorem Chip.dataWrite_cases (c : Chip) (p : Nat) (vs : List Byte) :
    (c.mode = some .fixed ∧ ∃ v, vs = [v]) ∨ (c.mode = some .auto ∧ p + vs.length ≤ 16) ∨
    c.dataWrite p vs = c.markUndefined := by
  unfold Chip.dataWrite
  split
  case h_1 hm =>
    split
    · exact .inl ⟨hm, _, rfl⟩
    · exact .inr (.inr rfl)
  case h_2 hm =>
    split
    case isTrue hk => exact .inr (.inl ⟨hm, hk⟩)
    case isFalse => exact .inr (.inr rfl)
  case h_3 | h_4 => exact .inr (.inr rfl)

/-- The same data write again finds every register holding what it writes; after the mark there is nothing to read. -/
theorem Chip.read_dataWrite_twice (c : Chip) (p : Nat) (vs : List Byte) (x : Nat) :
    ((c.dataWrite p vs).dataWrite p vs).ram.read x = (c.dataWrite p vs).ram.read x := by
  obtain ⟨hm, v, rfl⟩ | ⟨hm, hk⟩ | hmark := c.dataWrite_cases p vs
  · rw [Chip.dataWrite_fixed hm, Chip.dataWrite_fixed (c := { c with ram := c.ram.write p v }) hm]
    simp only [Memory.read_write]
    split <;> rfl
  · rw [Chip.dataWrite_auto hm hk, Chip.dataWrite_auto (c := { c with ram := c.ram.writeBurst p vs }) hm hk]
    simp only [Memory.read_writeBurst]
    split <;> rfl
  · rw [hmark]
    rfl

/-! ### The classifier (R62) -/

theorem isAddrByte_iff {cfg : Config} {a : Byte} :
    isAddrByte cfg a = true ↔ cfg.addrBase.toNat ≤ a.toNat ∧ a.toNat ≤ cfg.addrBase.toNat + 15 := by
  simp only [isAddrByte, Bool.and_eq_true, decide_eq_true_eq]

/-- An address byte stands for its relative address under every parameter choice. -/
theorem isAddrByte_of_toNat {cfg : Config} {a : Byte} {p : Nat} (ha : a.toNat = cfg.addrBase.toNat + p) (hp : p ≤ 15) :
    isAddrByte cfg a = true ∧ relAddr cfg a = p :=
  ⟨isAddrByte_iff.mpr (by omega), by rw [relAddr, ha, Nat.add_sub_cancel_left]⟩

/-- A display-control byte is the byte of its fields (R95). -/
theorem eq_dcByte_of_highNibble {b : Byte} (h : b.toNat / 16 = 8) :
    b = dcByte (b.getLsbD 3) (BitVec.ofNat 3 (b.toNat % 8)) := by
  revert b
  decide

/-- An all-`Out` window of two or more bytes is a data write where its first byte is an address, and undefined otherwise. -/
theorem Chip.observe_outW {cfg : Config} {c : Chip} (hu : c.undefined = false) (a : Byte) {vs : List Byte} (hvs : vs ≠ []) :
    c.observe cfg (outW (a :: vs)) =
      if isAddrByte cfg a then c.dataWrite (relAddr cfg a) vs else c.markUndefined := by
  obtain ⟨v, vs, rfl⟩ := List.exists_cons_of_ne_nil hvs
  have hbytes := outBytes_outW (v :: vs)
  simp only [outW, List.map_cons] at hbytes ⊢
  simp only [Chip.observe, hu, hbytes]
  cases isAddrByte cfg a <;> rfl

theorem Chip.observe_outW_of_toNat {cfg : Config} {c : Chip} (hu : c.undefined = false) {a : Byte} {p : Nat}
    (ha : a.toNat = cfg.addrBase.toNat + p) (hp : p ≤ 15) {vs : List Byte} (hvs : vs ≠ []) :
    c.observe cfg (outW (a :: vs)) = c.dataWrite p vs := by
  obtain ⟨hrec, hrel⟩ := isAddrByte_of_toNat ha hp
  rw [Chip.observe_outW hu a hvs, if_pos hrec, hrel]

theorem Chip.observe_control (cfg : Config) {c : Chip} (hu : c.undefined = false) {b : Byte} (hb : b.toNat / 16 = 8) :
    c.observe cfg (outW [b]) = { c with dc := some (b.getLsbD 3, BitVec.ofNat 3 (b.toNat % 8)) } := by
  have hdc := Chip.observe_dc cfg hu (b.getLsbD 3) (BitVec.ofNat 3 (b.toNat % 8))
  rwa [← eq_dcByte_of_highNibble hb] at hdc

/-- Settles O37: each meaningful window by the classifier's lemma for it, and the registers by the laws of the memory. -/
theorem observerTakesMeaningfulWindows : Obligations.ObserverTakesMeaningfulWindows := by
  intro cfg c hu
  refine ⟨Chip.observe_auto cfg hu, Chip.observe_fixed cfg hu, Chip.observe_readCommand cfg hu,
    fun b hb => Chip.observe_control cfg hu hb, fun p a v hp ha hm => ?_, fun p a v vs ha hm hk => ?_,
    fun b0 b1 b2 b3 hm => Chip.observe_read cfg hm b0 b1 b2 b3⟩
  · have hobs := Chip.observe_outW_of_toNat hu ha hp (List.cons_ne_nil v [])
    rw [Chip.dataWrite_fixed hm] at hobs
    exact ⟨_, hobs, rfl, fun x => Memory.read_write c.ram p x v⟩
  · have hp : p ≤ 15 := by
      rw [List.length_cons] at hk
      omega
    have hobs := Chip.observe_outW_of_toNat hu ha hp (List.cons_ne_nil v vs)
    rw [Chip.dataWrite_auto hm hk] at hobs
    exact ⟨_, hobs, rfl, fun x => Memory.read_writeBurst c.ram p x (v :: vs)⟩

/-! ### Windows with no meaning (R65) -/

/-- A list of items whose bytes are read off is the all-`Out` window of these bytes. -/
theorem eq_outW_of_outBytes {items : List Item} {vs : List Byte} (h : outBytes items = some vs) : items = outW vs := by
  induction items generalizing vs with
  | nil =>
    cases h
    rfl
  | cons item items ih =>
    cases item with
    | out b =>
      obtain ⟨vs', htail, rfl⟩ := Option.map_eq_some_iff.mp h
      rw [ih htail]
      rfl
    | inp b => cases h
    | broken => cases h

theorem Chip.command_of_not_meaningful {cfg : Config} {mode : Option ChipMode} {b : Byte} (c : Chip)
    (h : ¬ Meaningful cfg mode [.out b]) : c.command b = c.markUndefined := by
  have hauto : b ≠ cmdAutoByte := fun e => h (e ▸ .auto)
  have hfixed : b ≠ cmdFixedByte := fun e => h (e ▸ .fixed)
  have hread : b ≠ cmdReadByte := fun e => h (e ▸ .read)
  have hcontrol : b.extractLsb' 4 4 ≠ 0x8#4 := fun e => by
    have hrange := toNat_of_highNibble e
    exact h (.control b (by omega))
  simp only [Chip.command, if_neg hauto, if_neg hfixed, if_neg hread, if_neg hcontrol]

theorem Chip.dataWrite_of_not_meaningful {cfg : Config} {c : Chip} {a : Byte} {vs : List Byte}
    (ha : isAddrByte cfg a = true) (hvs : vs ≠ []) (h : ¬ Meaningful cfg c.mode (outW (a :: vs))) :
    c.dataWrite (relAddr cfg a) vs = c.markUndefined := by
  have hrange := isAddrByte_iff.mp ha
  obtain ⟨hm, v, rfl⟩ | ⟨hm, hk⟩ | hmark := c.dataWrite_cases (relAddr cfg a) vs
  · exact absurd (.fixedWrite a v hm hrange) h
  · obtain ⟨v, vs, rfl⟩ := List.exists_cons_of_ne_nil hvs
    exact absurd (.burst a v vs hm hrange hk) h
  · exact hmark

/-- R65: along the classifier's cases, each window without a meaning ends in the mark. -/
theorem Chip.observe_of_not_meaningful {cfg : Config} {c : Chip} {w : Window} (hu : c.undefined = false)
    (h : ¬ Meaningful cfg c.mode w) : c.observe cfg w = c.markUndefined := by
  unfold Chip.observe
  rw [if_neg (by simp [hu])]
  split
  case h_1 b => exact c.command_of_not_meaningful h
  case h_2 b0 b1 b2 b3 => exact if_neg fun hm => h (.scan b0 b1 b2 b3 hm)
  case h_3 a rest hlong =>
    split
    case h_1 vs ha hbytes =>
      obtain rfl := eq_outW_of_outBytes hbytes
      have hvs : vs ≠ [] := by
        rintro rfl
        exact hlong rfl
      exact Chip.dataWrite_of_not_meaningful ha hvs h
    case h_2 => rfl
  case h_4 => rfl

/-- Settles O38: such a window leaves the marked chip, which has nothing to read and which no window changes. -/
theorem otherWindowsUndefined : Obligations.OtherWindowsUndefined := by
  intro cfg c w hu h
  exact ⟨c.markUndefined, Chip.observe_of_not_meaningful hu h, rfl, fun _ => rfl, rfl, rfl,
    fun w' => Chip.observe_of_undefined cfg w' rfl⟩

/-! ### The same window twice (R69) -/

/-- Settles O39: a marked chip stays as it is, and on an unmarked one the second window is the same data write again. -/
theorem displayWritesIdempotent : Obligations.DisplayWritesIdempotent := by
  intro cfg c a vs x hvs
  cases hu : c.undefined with
  | true => rw [Chip.observe_of_undefined cfg _ hu, Chip.observe_of_undefined cfg _ hu]
  | false =>
    cases hu' : (c.observe cfg (outW (a :: vs))).undefined with
    | true => rw [Chip.observe_of_undefined cfg _ hu']
    | false =>
      rw [Chip.observe_outW hu' a hvs, Chip.observe_outW hu a hvs]
      cases isAddrByte cfg a with
      | true => exact c.read_dataWrite_twice (relAddr cfg a) vs x
      | false => rfl

end Sys2Proof.Machine
end

section
/-! PROOFS. O40 and O54: two facts that every step keeps, read off from what a step can do (`step_next`): the canonical form
of the display memory (R60), which every action keeps, and the parameters (R9, R74), which no action writes. -/

namespace Sys2Proof.Machine

@[simp] theorem State.controlled_chip (s : State) (q : Seq) (lo : Option Nat) (ps : List Port) (ts : List Turn) (g : Nat) :
    (s.controlled q lo ps ts g).chip = s.chip := rfl

@[simp] theorem State.controlled_cfg (s : State) (q : Seq) (lo : Option Nat) (ps : List Port) (ts : List Turn) (g : Nat) :
    (s.controlled q lo ps ts g).cfg = s.cfg := rfl

@[simp] theorem State.misusedIf_chip (s : State) (b : Bool) : (s.misusedIf b).chip = s.chip := by
  cases b <;> rfl

@[simp] theorem State.misusedIf_cfg (s : State) (b : Bool) : (s.misusedIf b).cfg = s.cfg := by
  cases b <;> rfl

/-! ### The display memory -/

theorem State.Advanced.ram_wf {s t : State} (ha : s.Advanced t) (h : s.chip.ram.wf = true) : t.chip.ram.wf = true := by
  obtain ⟨q, q', lo, lo', ps, ps', ts, ts', g, g', b, b', l, -, rfl⟩ := ha
  rw [State.controlled_chip, State.misusedIf_chip]
  refine State.performAll_wf _ l ?_
  rwa [State.misusedIf_chip, State.controlled_chip]

/-- Power loss leaves the empty memory (R37). -/
theorem State.powerLost_ram_wf (s : State) : s.powerLost.chip.ram.wf = true := rfl

/-- Settles O40: actions keep the canonical form, and power loss leaves a canonical memory. -/
theorem stepKeepsMemoryCanonical : Obligations.StepKeepsMemoryCanonical := by
  intro s s' h hs
  obtain hadv | ⟨-, rfl⟩ := step_next hs
  · exact hadv.ram_wf h
  · exact State.powerLost_ram_wf _

/-! ### The parameters -/

theorem State.Advanced.cfg {s t : State} (ha : s.Advanced t) : t.cfg = s.cfg := by
  obtain ⟨q, q', lo, lo', ps, ps', ts, ts', g, g', b, b', l, -, rfl⟩ := ha
  obtain ⟨hcfg, -⟩ := State.performAll_keeps ((s.controlled q lo ps ts g).misusedIf b) l
  rw [State.controlled_cfg, State.misusedIf_cfg, hcfg, State.misusedIf_cfg, State.controlled_cfg]

/-- Settles O54: actions keep the parameters, and so does power loss (R37). -/
theorem stepKeepsParameters : Obligations.StepKeepsParameters := by
  intro s s' hs
  obtain hadv | ⟨-, rfl⟩ := step_next hs
  · exact hadv.cfg
  · rfl

end Sys2Proof.Machine
end

section
/-! PROOFS. O1, O2, O4, O3 and O5: decoding and encoding (R91 to R105). A request word decodes by its `OP` alone
(`decodeRequest_requestWord`); a byte in command position decodes by the first of four tests that it passes, so each format
needs the earlier tests to fail. -/

namespace Sys2Proof

/-! ### The display-control byte (R95) -/

theorem dcByte_toNat (on : Bool) (l : BitVec 3) : (dcByte on l).toNat = 0x80 + 8 * on.toNat + l.toNat := by
  revert on l
  decide

/-- Bit 7 is the format's only fixed bit that is set. -/
theorem dcByte_fixedBits (on : Bool) (l : BitVec 3) :
    (dcByte on l).extractLsb' 4 3 = 0 ∧ (dcByte on l).getLsbD 7 = true := by
  revert on l
  decide

theorem dcByte_eq_add (on : Bool) (l : BitVec 3) : dcByte on l = 0x80 + BitVec.ofNat 8 (8 * on.toNat + l.toNat) := by
  revert on l
  decide

/-! ### A byte in command position (R91 to R99) -/

theorem decodeFirst_dcByte (cfg : Config) (on : Bool) (l : BitVec 3) :
    decodeFirst cfg (dcByte on l) = .ok (.dctl on l) := by
  obtain ⟨hauto, hread, hfixed, hnibble, hon, hlevel⟩ := dcByte_fields on l
  simp only [decodeFirst, if_neg hauto, if_neg hread, if_neg hfixed, if_pos hnibble, hon, hlevel]

/-- The one format whose encoding needs a condition: the address byte stays apart from the command bytes (R9). -/
theorem decodeFirst_addrByte {cfg : Config} {p : BitVec 4} (h : cfg.addrOk p.toNat = true) :
    decodeFirst cfg (addrByte cfg p.toNat) = .ok (.addr p) := by
  obtain ⟨hauto, hread, hfixed, hnibble⟩ := addrByte_not_command h
  have hrange : cfg.addrBase.toNat + p.toNat ≤ 0xFF := by
    simp only [Config.addrOk, Bool.and_eq_true, decide_eq_true_eq] at h
    exact h.1
  obtain ⟨haddr, hrel⟩ := Machine.isAddrByte_of_toNat (addrByte_toNat hrange) (by omega)
  simp only [decodeFirst, if_neg hauto, if_neg hread, if_neg hfixed, if_neg hnibble, if_pos haddr, hrel,
    BitVec.ofNat_toNat, BitVec.setWidth_eq]

theorem decodeFirst_reserved {cfg : Config} {b : Byte} (hauto : b ≠ cmdAutoByte) (hread : b ≠ cmdReadByte)
    (hfixed : b ≠ cmdFixedByte) (hnibble : b.toNat / 16 ≠ 8)
    (haddr : ¬ (cfg.addrBase.toNat ≤ b.toNat ∧ b.toNat ≤ cfg.addrBase.toNat + 15)) :
    decodeFirst cfg b = .error (.reservedWireByte b) := by
  have hnibble' : b.extractLsb' 4 4 ≠ 0x8#4 := fun e => by
    have hrange := toNat_of_highNibble e
    omega
  have haddr' : ¬ isAddrByte cfg b = true := mt Machine.isAddrByte_iff.mp haddr
  simp only [decodeFirst, if_neg hauto, if_neg hread, if_neg hfixed, if_neg hnibble', if_neg haddr']

/-! ### The whole table -/

/-- Settles O1: along the table, a request by its `OP` and a wire byte by its format. -/
theorem decodeEncodeAgree : Obligations.DecodeEncodeAgree := by
  intro cfg i hwf
  cases i with
  | cmdAuto => rfl
  | cmdRead => rfl
  | cmdFixed => rfl
  | dctl on level => exact decodeFirst_dcByte cfg on level
  | addr p => exact decodeFirst_addrByte hwf
  | data v => rfl
  | scanb v => rfl
  | _ =>
    rw [encode, decode, decodeRequest_requestWord]
    rfl

/-! ### Request words (R100, R101, R103) -/

theorem decodeRequest_illegal {op : Byte} (h : op = 0 ∨ 0x0E ≤ op.toNat) (a b : Byte) :
    decodeRequest (requestWord op a b) = .error (.illegalOp op) := by
  have hop : op.toNat = 0 ∨ 0x0E ≤ op.toNat := h.imp_left fun e => by rw [e]; rfl
  rw [decodeRequest_requestWord]
  split
  case h_14 => rfl
  all_goals omega

theorem requestWord_fields (w : ReqWord) : requestWord (opField w) (aField w) (bField w) = w := by
  refine BitVec.eq_of_getLsbD_eq fun i hi => ?_
  rw [getLsbD_requestWord]
  split
  · simp [bField, *]
  · split
    · simp only [aField, BitVec.getLsbD_extractLsb', *]
      simp [show 8 + (i - 8) = i by omega]
    · simp only [opField, BitVec.getLsbD_extractLsb', show i - 8 - 8 < 8 by omega]
      simp [show 16 + (i - 8 - 8) = i by omega]

/-- Settles O2: `OP` alone selects the operation, and a word is the word of its fields. -/
theorem requestDecodesByOpcode : Obligations.RequestDecodesByOpcode := by
  refine ⟨fun a b => ?_, fun op a b h => decodeRequest_illegal h a b, fun w => (requestWord_fields w).symm⟩
  have decodes := fun op => decodeRequest_requestWord op a b
  exact ⟨decodes 0x01, decodes 0x02, decodes 0x03, decodes 0x04, decodes 0x05, decodes 0x06, decodes 0x07, decodes 0x08,
    decodes 0x09, decodes 0x0A, decodes 0x0B, decodes 0x0C, decodes 0x0D⟩

/-! ### Wire bytes by position (R91) -/

/-- Settles O4: the position decides first; in command position each listed byte is the byte of its format. -/
theorem wireByteDecodesByPosition : Obligations.WireByteDecodesByPosition := by
  intro cfg hcfg b
  refine ⟨rfl, rfl, ?_, ?_, ?_, fun on l hb => ?_, fun p hb => ?_, decodeFirst_reserved⟩
  · rintro rfl
    rfl
  · rintro rfl
    rfl
  · rintro rfl
    rfl
  · rw [hb, ← dcByte_eq_add]
    exact decodeFirst_dcByte cfg on l
  · have hp : p.toNat ≤ 15 := by omega
    have hbyte : b = addrByte cfg p.toNat :=
      BitVec.eq_of_toNat_eq (hb.trans (addrByte_toNat (Config.addr_le_of_admitted hcfg hp)).symm)
    rw [hbyte]
    exact decodeFirst_addrByte (Config.addrOk_of_admitted hcfg hp)

/-! ### Fixed words and fields -/

/-- Settles O3: the words of V-E3 to V-E5 and of R92 to R96, each decoded. -/
theorem sampleWordsDecode : Obligations.SampleWordsDecode := by
  unfold Obligations.SampleWordsDecode
  decide

/-- Settles O5: the value of the byte and its fields. -/
theorem displayControlByteFields : Obligations.DisplayControlByteFields := by
  intro on l
  obtain ⟨-, -, -, -, hon, hlevel⟩ := dcByte_fields on l
  obtain ⟨hzero, hseven⟩ := dcByte_fixedBits on l
  exact ⟨dcByte_toNat on l, hzero, hseven, hon, hlevel, rfl, rfl⟩

end Sys2Proof
end

section
/-! PROOFS. O32, O33, O34 and O35: the wire bytes as instructions (R91 to R97, R130, R131, R160, R164). Each is the state that
the transport's own lemma names, at the byte's position: a whole window, or a byte inside an open one. -/

namespace Sys2Proof.Machine

/-! ### A command byte in a window of its own (R92 to R95) -/

/-- One byte sent alone: its window on the traces, and on the chip what the observer makes of it. -/
theorem State.Between.sendsAlone {s : State} (h : s.Between) {b : Byte} {c : Chip}
    (hc : s.chip.observe s.cfg (outW [b]) = c) :
    ∃ t, runOnWire (outWindow s.cfg [b]) s = .next t ∧ Sent s t [[b]] b ∧ t = { s with bus := t.bus, chip := c } := by
  subst hc
  refine ⟨s.sent [b], ?_, Sent.of_bus h (by simp) (by simp) rfl rfl, rfl⟩
  rw [runOnWire, State.performAll_outWindow h]

/-- Settles O32: each byte goes out alone, and the observer's lemma for it says what the chip takes. -/
theorem commandBytesReachChip : Obligations.CommandBytesReachChip := by
  intro s h
  obtain ⟨-, hu⟩ := h.unmarked
  have hb := h.toBetween
  exact ⟨hb.sendsAlone (Chip.observe_auto s.cfg hu), hb.sendsAlone (Chip.observe_readCommand s.cfg hu),
    hb.sendsAlone (Chip.observe_fixed s.cfg hu), fun on l => hb.sendsAlone (Chip.observe_dc s.cfg hu on l)⟩

/-! ### An address and data bytes (R96, R97) -/

theorem exec_addr {s : State} (h : s.Between) (p : BitVec 4) :
    exec (.addr p) s = .next (s.windowOpened.byteSent (addrByte s.cfg p.toNat)) := by
  have hbyte := State.performAll_shiftOut h.windowOpened (addrByte s.cfg p.toNat)
  show Host.Outcome.next (s.performAll (openWindow s.cfg ++ shiftOut s.cfg .lsb (addrByte s.cfg p.toNat))) = _
  rw [State.performAll_append, State.performAll_openWindow h]
  exact congrArg _ hbyte

theorem exec_data {s : State} {bits : List WireBit} (h : s.InOutWindow bits) (v : Byte) :
    exec (.data v) s = .next (s.byteSent v) :=
  congrArg _ (State.performAll_shiftOut h v)

theorem State.windowOpened_wireTrace (s : State) : s.windowOpened.wireTrace = s.wireTrace ++ openEvents s.cfg := by
  simp [State.windowOpened, State.wireTrace]

theorem State.byteSent_wireTrace (s : State) (b : Byte) :
    (s.byteSent b).wireTrace = s.wireTrace ++ byteOutEvents s.cfg b := by
  simp [State.byteSent, State.wireTrace]

/-- Settles O33: STB falls, and the byte goes out in the window that opens. -/
theorem addressByteOpensWindow : Obligations.AddressByteOpensWindow := by
  rintro s p a h rfl
  refine ⟨_, exec_addr h.toBetween p, rfl, ?_⟩
  rw [State.byteSent_wireTrace, State.windowOpened_wireTrace]
  rfl

/-- Settles O34: the byte goes out in the window that is open. -/
theorem dataByteExtendsWindow : Obligations.DataByteExtendsWindow := by
  intro s bits v h
  refine ⟨_, exec_data h v, ?_, State.byteSent_wireTrace s v⟩
  simp only [State.byteSent, h.window, Option.map_some]

/-! ### Scan bytes (R131, R164) -/

/-- The first scan byte of a window opens it. -/
theorem exec_scanb_first {s : State} (h : s.Between) (v : Byte) :
    exec (.scanb v) s = .next (s.readOpened.byteGiven 0 v) := by
  have hbyte := State.performAll_shiftInGiven h.readOpened 0 v
  have hactions : scanbActions v s = openReadWindow s.cfg ++ shiftIn s.cfg .lsb (some v) 0 := by
    simp [scanbActions, bytesInWindow, h.noWindow]
  show Host.Outcome.next (s.performAll (scanbActions v s)) = _
  rw [hactions, State.performAll_append, State.performAll_openReadWindow h]
  exact congrArg _ hbyte

/-- A later one goes to the `SCAN` byte of its place, which the bits before it count. -/
theorem exec_scanb_later {s : State} {bits : List WireBit} (h : s.InReadWindow bits) {n : Nat} (hn : bits.length = 8 * n)
    (v : Byte) : exec (.scanb v) s = .next (s.byteGiven n v) := by
  have hactions : scanbActions v s = shiftIn s.cfg .lsb (some v) n := by
    simp [scanbActions, bytesInWindow, h.window, hn]
  show Host.Outcome.next (s.performAll (scanbActions v s)) = _
  rw [hactions, State.performAll_shiftInGiven h]

theorem bitsIn_eq_range (v : Byte) : bitsIn v = (List.range 8).map fun j => .inp (v.getLsbD j) := rfl

theorem State.byteGiven_wireTrace (s : State) (n : Nat) (v : Byte) :
    (s.byteGiven n v).wireTrace = s.wireTrace ++ byteInEvents s.cfg v := by
  simp [State.byteGiven, State.wireTrace]

theorem State.readOpened_wireTrace (s : State) :
    s.readOpened.wireTrace = s.wireTrace ++ openEvents s.cfg ++ [.setDir .dio s.cfg.pinDio .inp] := by
  simp [State.readOpened, State.wireTrace]

/-- `SCAN` after a byte past the first one; from place 4 on it is stored nowhere. -/
theorem Scan.set_pos (x : Scan) {n : Nat} (hn : 1 ≤ n) (v : Byte) :
    x.set n v = ⟨x.b0, if n = 1 then v else x.b1, if n = 2 then v else x.b2, if n = 3 then v else x.b3⟩ := by
  match n, hn with
  | 1, _ => rfl
  | 2, _ => rfl
  | 3, _ => rfl
  | n + 4, _ => rfl

/-- Settles O35: from between windows the read window opens and `SCAN[0]` is filled; in it, the byte of the next place. -/
theorem scanByteFillsScan : Obligations.ScanByteFillsScan := by
  refine ⟨fun s v h => ⟨_, exec_scanb_first h.toBetween v, rfl, ?_⟩,
    fun s bits n v h hlength hn => ⟨_, exec_scanb_later h hlength v, ?_, State.byteGiven_wireTrace s n v⟩⟩
  · rw [State.byteGiven_wireTrace, State.readOpened_wireTrace]
    rfl
  · simp only [State.byteGiven, h.window, Option.map_some, Scan.set_pos s.scan hn, bitsIn_eq_range]

end Sys2Proof.Machine
end

section
/-! PROOFS. O55: a request sends windows of the seven forms only (R98, R99). What an operation sends is said by the state it
ends in (`State.sentAll`, `State.frameShown`, `State.scanned`), so the claim is one about the windows these states add, and
the operations' range checks keep every address within the 16. -/

namespace Sys2Proof.Machine

/-- From `s` to `t` the transaction trace grew by windows of the seven forms only. -/
def State.SentForms (s t : State) : Prop :=
  ∃ sent : List Window, t.bus.trace = sent ++ s.bus.trace ∧ ∀ x ∈ sent, ControllerWindow s.cfg x

/-! ### The relation -/

theorem State.SentForms.of_trace_eq {s t : State} (h : t.bus.trace = s.bus.trace) : s.SentForms t :=
  ⟨[], h, fun _ hx => absurd hx List.not_mem_nil⟩

theorem State.SentForms.trans {s t u : State} (h : s.SentForms t) (hcfg : t.cfg = s.cfg) (h' : t.SentForms u) :
    s.SentForms u := by
  obtain ⟨sent, htrace, hforms⟩ := h
  obtain ⟨sent', htrace', hforms'⟩ := h'
  rw [hcfg] at hforms'
  refine ⟨sent' ++ sent, by rw [htrace', htrace, List.append_assoc], fun x hx => ?_⟩
  exact (List.mem_append.mp hx).elim (hforms' x) (hforms x)

/-! ### The forms of the internal sequences (R161 to R163) -/

theorem ControllerWindow.of_single (cfg : Config) (on : Bool) (l : BitVec 3) {p : Nat} (hp : p ≤ 15) (v : Byte) :
    ∀ w ∈ singleWindows cfg on l p v, ControllerWindow cfg (outW w) := by
  simp only [singleWindows, List.forall_mem_cons]
  exact ⟨.dc on l, .fixed, .write1 p v hp, List.forall_mem_nil _⟩

theorem ControllerWindow.of_pairs (cfg : Config) (on : Bool) (l : BitVec 3) {pairs : List (Nat × Byte)}
    (hp : ∀ x ∈ pairs, x.1 ≤ 15) : ∀ w ∈ pairWindows cfg on l pairs, ControllerWindow cfg (outW w) := by
  intro w hw
  obtain ⟨x, hx, hwx⟩ := List.mem_flatMap.mp hw
  exact .of_single cfg on l (hp x hx) x.2 w hwx

theorem ControllerWindow.of_burst (cfg : Config) (on : Bool) (l : BitVec 3) {vs : List Byte} (hv : vs.length = 16) :
    ∀ w ∈ burstWindows cfg on l 0 vs, ControllerWindow cfg (outW w) := by
  simp only [burstWindows, List.forall_mem_cons]
  exact ⟨.dc on l, .auto, .writeN vs hv, List.forall_mem_nil _⟩

/-! ### What the operations' parts send -/

theorem State.sentAll_trace (s : State) (ws : List (List Byte)) :
    (s.sentAll ws).bus.trace = (ws.map outW).reverse ++ s.bus.trace := by
  induction ws generalizing s with
  | nil => rfl
  | cons w ws ih =>
    rw [show s.sentAll (w :: ws) = (s.sent w).sentAll ws from rfl, ih (s.sent w)]
    simp [State.sent]

theorem State.SentForms.sentAll (s : State) {ws : List (List Byte)} (hws : ∀ w ∈ ws, ControllerWindow s.cfg (outW w)) :
    s.SentForms (s.sentAll ws) := by
  refine ⟨_, s.sentAll_trace ws, fun x hx => ?_⟩
  obtain ⟨w, hw, rfl⟩ := List.mem_map.mp (List.mem_reverse.mp hx)
  exact hws w hw

/-- Windows of the seven forms and the completion. -/
theorem State.Between.sendsForms {s : State} (h : s.Between) {ws : List (List Byte)}
    (hws : ∀ w ∈ ws, ControllerWindow s.cfg (outW w)) :
    s.SentForms (s.performAll (ws.flatMap (outWindow s.cfg) ++ [.complete .zero])) := by
  rw [State.performAll_windows h]
  exact State.SentForms.sentAll s hws

/-- Single writes within the 16 registers (R194 to R198). -/
theorem State.Between.sendsPairs {s : State} (h : s.Between) {pairs : List (Nat × Byte)} (hp : ∀ x ∈ pairs, x.1 ≤ 15) :
    s.SentForms (s.performAll ((pairs.flatMap fun x => writeSingleNow s x.1 x.2) ++ [.complete .zero])) := by
  simp only [writeSingleNow, pairWindows_flatMap]
  exact h.sendsForms (.of_pairs s.cfg s.isOn s.brightness hp)

theorem State.Between.sendsSingle {s : State} (h : s.Between) {p : Nat} (hp : p ≤ 15) (v : Byte) :
    s.SentForms (s.performAll (writeSingleNow s p v ++ [.complete .zero])) := by
  rw [writeSingleNow, writeSingle_eq]
  exact h.sendsForms (.of_single s.cfg s.isOn s.brightness hp v)

/-- A register write and the display-control window with the new display state (R199 to R201). -/
theorem State.Between.sendsControl {s : State} (h : s.Between) (on : Bool) (level : BitVec 3) :
    s.SentForms (({ s with isOn := on, brightness := level } : State).performAll
      (emitDc s.cfg on level ++ [.complete .zero])) := by
  have hb : ({ s with isOn := on, brightness := level } : State).Between :=
    ⟨h.locked, h.pins, h.driving, h.strobeHigh, h.noWindow⟩
  rw [emitDc_eq]
  exact hb.sendsForms (List.forall_mem_singleton.mpr (.dc on level))

/-- The frames of `test`, each in one burst (R203). -/
theorem State.SentForms.framesShown (s : State) {frames : List (List Byte)} (hf : ∀ f ∈ frames, f.length = 16) :
    s.SentForms (frames.foldl State.frameShown s) := by
  induction frames generalizing s with
  | nil => exact .of_trace_eq rfl
  | cons f frames ih =>
    obtain ⟨hlength, hrest⟩ := List.forall_mem_cons.mp hf
    have hfirst : s.SentForms (s.frameShown f) :=
      State.SentForms.sentAll s (.of_burst s.cfg s.isOn s.brightness hlength)
    exact hfirst.trans (by rw [State.frameShown_keeps]) (ih (s.frameShown f) hrest)

/-- The two windows of `read_scan` (R164). -/
theorem State.SentForms.scanned (s : State) : s.SentForms s.scanned :=
  ⟨[_, _], rfl, List.forall_mem_cons.mpr ⟨.scan _ _ _ _, List.forall_mem_singleton.mpr .key⟩⟩

theorem State.Between.sendsScan {s : State} (h : s.Between) (r : Result) :
    s.SentForms (s.performAll (readScan s.cfg ++ [.foldMask, .complete r])) := by
  rw [State.performAll_append, State.performAll_readScan h]
  exact State.SentForms.scanned s

/-- `init` raises STB with no window open, so it sends none (R193). -/
theorem State.performAll_initActions_trace {s : State} (h : s.bus.win = none) :
    (s.performAll (initActions s)).bus.trace = s.bus.trace := by
  unfold initActions
  split
  · rfl
  · simp [State.perform, State.checked, State.meets, State.prim, Bus.pin, Bus.setDir, Bus.setLevel, State.completed,
      Bus.clocked, h]

/-! ### Refusals send nothing (R297) -/

theorem State.SentForms.required {s : State} {l : List Action} (hl : s.SentForms (s.performAll l)) :
    s.SentForms (s.performAll (requireInit s l)) := by
  unfold requireInit
  split
  · exact hl
  · exact .of_trace_eq rfl

theorem State.SentForms.ranged {s : State} {inRange : Bool} {l : List Action}
    (hl : inRange = true → s.SentForms (s.performAll l)) : s.SentForms (s.performAll (requireRange inRange l)) := by
  unfold requireRange
  split
  · exact hl ‹_›
  · exact .of_trace_eq rfl

/-! ### Every operation -/

theorem digitAddr_le (d : Nat) : digitAddr d ≤ 15 := by
  unfold digitAddr
  omega

theorem ledAddr_le {n : Nat} (h : n ≤ 8) : ledAddr n ≤ 15 := by
  unfold ledAddr
  omega

/-- Along the operations: each list sends windows of the seven forms, or is a refusal. -/
theorem State.Ready.requestProgram_sentForms {s : State} (h : s.Ready) (i : Instr) :
    s.SentForms (s.performAll (requestProgram i s)) := by
  have hb := h.toBetween
  cases i with
  | init => exact .of_trace_eq (State.performAll_initActions_trace h.noWindow)
  | displayVal d x => exact .required (.ranged fun _ => hb.sendsSingle (digitAddr_le _) _)
  | displayDig d v => exact .required (.ranged fun _ => hb.sendsSingle (digitAddr_le _) _)
  | displayClear =>
    have hclear := hb.sendsPairs (pairs := clearPairs) (by decide)
    rw [clearPairs, List.flatMap_map] at hclear
    exact hclear.required
  | writeLed n st =>
    refine .required (.ranged fun hr => hb.sendsSingle (ledAddr_le ?_) _)
    simp only [ledInRange, Bool.and_eq_true, decide_eq_true_eq] at hr
    exact hr.2
  | writeLeds m =>
    have hleds := hb.sendsPairs (pairs := ledPairs m) (by simp [ledPairs, ledAddr])
    rw [ledPairs, List.flatMap_map] at hleds
    exact hleds.required
  | displayTurnOn => exact .required (hb.sendsControl true s.brightness)
  | displayTurnOff => exact .required (hb.sendsControl false s.brightness)
  | displaySetBrightness l => exact .required (.ranged fun _ => hb.sendsControl s.isOn (levelBits l))
  | reset =>
    refine .required ?_
    rw [writeBurstNow, writeBurst_eq]
    exact hb.sendsForms (.of_burst s.cfg s.isOn s.brightness List.length_replicate)
  | test =>
    refine .required ?_
    simp only [writeBurstNow]
    rw [State.performAll_append, State.performAll_frames hb]
    exact State.SentForms.framesShown s fun f hf => Config.frame_length h.admitted hf
  | getButtons => exact .required (hb.sendsScan .mask)
  | getButton k => exact .required (.ranged fun _ => hb.sendsScan (.maskBit k.toNat))
  | cmdAuto | cmdRead | cmdFixed | dctl _ _ | addr _ | data _ | scanb _ => exact .of_trace_eq rfl

/-- Settles O55: a request performs its action list, and SEQ, which moves past it, is not on the bus. -/
theorem onlySevenWindowForms : Obligations.OnlySevenWindowForms := by
  intro s t i w h hdecode hexec
  rw [exec_request i s ⟨w, hdecode⟩, runOperation, Host.Outcome.next.injEq] at hexec
  subst hexec
  exact h.requestProgram_sentForms i

end Sys2Proof.Machine
end

section
/-! PROOFS. O9 and O10: the transport's two operations in either bit order (R130, R131). What a list of bits shifted out does
to the state is said in one record, and so is what samples from the oracle do, for a byte that holds the draws. The order
enters only by the places it visits, and either order visits all eight bits of a byte. -/

namespace Sys2Proof.Machine

/-! ### Bits out (R130) -/

/-- The bits a byte puts on DIO, in the order they go (R130). -/
def bitsInOrder (order : BitOrder) (b : Byte) : List Bool := bitTimes.map fun j => b.getLsbD (bitIndex order j)

theorem shiftOut_eq_bits (cfg : Config) (order : BitOrder) (b : Byte) :
    shiftOut cfg order b = (bitsInOrder order b).flatMap (shiftOutBit cfg) := rfl

/-- What bits going out in an open window do to the state, in one record. -/
theorem State.performAll_shiftOutBits {s : State} {bits : List WireBit} (h : s.InOutWindow bits) (l : List Bool) :
    s.performAll (l.flatMap (shiftOutBit s.cfg)) = { s with bus := { s.bus with
      lvlDio := l.getLast?.or s.bus.lvlDio,
      lvlClk := if l = [] then s.bus.lvlClk else some false,
      win := some (bits ++ l.map .out),
      log := (l.flatMap fun x => Event.setLevel .dio s.cfg.pinDio x :: pulseEvents s.cfg).reverse ++ s.bus.log } } := by
  induction l generalizing s bits with
  | nil => simp [← h.window]
  | cons x l ih =>
    have hlast : (x :: l).getLast?.or s.bus.lvlDio = l.getLast?.or (some x) := by
      rw [List.getLast?_cons, Option.or_some]
      rfl
    rw [List.flatMap_cons, State.performAll_append, State.performAll_shiftOutBit h, hlast]
    refine (ih (h.bitSent x)).trans ?_
    simp [State.bitSent]

/-- Settles O9: the bits of the byte in its order are eight, and each is driven and pulsed. -/
theorem shiftOutDrivesEachBit : Obligations.ShiftOutDrivesEachBit := by
  intro s bits order b sent h hsent
  obtain rfl : sent = bitsInOrder order b := by
    cases order <;> exact hsent
  have hactions := congrArg s.performAll (shiftOut_eq_bits s.cfg order b)
  refine ⟨rfl, _, hactions.trans (State.performAll_shiftOutBits h (bitsInOrder order b)), rfl, ?_⟩
  simp [State.wireTrace, pulseEvents]

/-! ### Samples into a byte (R131) -/

theorem getLsbD_setBit (x : Byte) {i : Nat} (hi : i < 8) (k : Nat) (b : Bool) :
    (setBit x k b).getLsbD i = if i = k then b else x.getLsbD i := by
  have hplace : (1#8 <<< k).getLsbD i = decide (i = k) := by
    rw [← BitVec.twoPow_eq, BitVec.getLsbD_twoPow]
    by_cases hk : i = k
    · simp [← hk, hi]
    · simp [hk, Ne.symm hk]
  cases b with
  | false =>
    show (x &&& ~~~(1#8 <<< k)).getLsbD i = if i = k then false else x.getLsbD i
    rw [BitVec.getLsbD_and, BitVec.getLsbD_not, hplace]
    by_cases hk : i = k <;> simp [hk, hi]
  | true =>
    show (x ||| (1#8 <<< k)).getLsbD i = if i = k then true else x.getLsbD i
    rw [BitVec.getLsbD_or, hplace]
    by_cases hk : i = k <;> simp [hk, hi]

/-- Samples of `v` at the places `ks` give `v` there and leave the other bits. -/
theorem getLsbD_foldl_setBit (v x : Byte) {i : Nat} (hi : i < 8) (ks : List Nat) :
    (ks.foldl (fun y k => setBit y k (v.getLsbD k)) x).getLsbD i = if i ∈ ks then v.getLsbD i else x.getLsbD i := by
  induction ks generalizing x with
  | nil => simp
  | cons k ks ih =>
    rw [List.foldl_cons, ih, getLsbD_setBit x hi]
    by_cases hk : i = k <;> simp [hk]

/-- Either order visits every bit of a byte. -/
theorem mem_bitTimes_map_bitIndex (order : BitOrder) {i : Nat} (hi : i < 8) : i ∈ bitTimes.map (bitIndex order) := by
  cases order with
  | lsb => exact List.mem_map.mpr ⟨i, List.mem_range.mpr hi, rfl⟩
  | msb =>
    have hplace : 7 - i < 8 := by omega
    exact List.mem_map.mpr ⟨7 - i, List.mem_range.mpr hplace, Nat.sub_sub_self (Nat.le_of_lt_succ hi)⟩

/-- A byte sampled in either order, the first sample clearing it, is the byte of the samples. -/
theorem foldl_sampleInto (order : BitOrder) (v x : Byte) :
    bitTimes.foldl (fun y j => sampleInto y (bitIndex order j) (j == 0) (v.getLsbD (bitIndex order j))) x = v := by
  have hcleared : bitTimes.foldl
        (fun y j => sampleInto y (bitIndex order j) (j == 0) (v.getLsbD (bitIndex order j))) x =
      (bitTimes.map (bitIndex order)).foldl (fun y k => setBit y k (v.getLsbD k)) 0 := rfl
  refine hcleared.trans (BitVec.eq_of_getLsbD_eq fun i hi => ?_)
  rw [getLsbD_foldl_setBit v 0 hi, if_pos (mem_bitTimes_map_bitIndex order hi)]

theorem Scan.sample_set (x : Scan) (n : Nat) (y : Byte) (k : Nat) (clears b : Bool) :
    (x.set n y).sample n k clears b = x.set n (sampleInto y k clears b) := by
  match n with
  | 0 | 1 | 2 | 3 | _ + 4 => rfl

theorem Scan.exists_set_eq_self (x : Scan) (n : Nat) : ∃ y, x.set n y = x := by
  match n with
  | 0 => exact ⟨x.b0, rfl⟩
  | 1 => exact ⟨x.b1, rfl⟩
  | 2 => exact ⟨x.b2, rfl⟩
  | 3 => exact ⟨x.b3, rfl⟩
  | _ + 4 => exact ⟨0, rfl⟩

theorem Scan.foldl_sample (order : BitOrder) (v : Byte) (x : Scan) (n : Nat) :
    bitTimes.foldl (fun y j => y.sample n (bitIndex order j) (j == 0) (v.getLsbD (bitIndex order j))) x = x.set n v := by
  obtain ⟨y, hy⟩ := x.exists_set_eq_self n
  have hset := List.foldl_hom (x.set n) (init := y) (l := bitTimes)
    (g₂ := fun z j => z.sample n (bitIndex order j) (j == 0) (v.getLsbD (bitIndex order j)))
    (fun z j => x.sample_set n z (bitIndex order j) (j == 0) (v.getLsbD (bitIndex order j)))
  rwa [hy, foldl_sampleInto] at hset

theorem Scan.set_eq (x : Scan) (n : Nat) (v : Byte) :
    x.set n v = ⟨if n = 0 then v else x.b0, if n = 1 then v else x.b1, if n = 2 then v else x.b2,
      if n = 3 then v else x.b3⟩ := by
  cases n with
  | zero => rfl
  | succ n => exact x.set_pos (Nat.succ_pos n) v

/-! ### Bits in from the oracle (R131, R66) -/

/-- What samples at the times `js` do to the state, in one record, where `v` holds the draws at the places of these times. -/
theorem State.performAll_shiftInDraws {s : State} {bits : List WireBit} (h : s.InReadWindow bits) (order : BitOrder)
    (byte : Nat) (v : Byte) (js : List Nat)
    (hv : (js.map fun j => v.getLsbD (bitIndex order j)) = (List.range' s.draws js.length).map Config.scanLevel) :
    s.performAll (js.flatMap fun j => shiftInBit s.cfg none byte (bitIndex order j) (j == 0)) = { s with
      bus := { s.bus with
        lvlClk := if js = [] then s.bus.lvlClk else some false,
        win := some (bits ++ js.map fun j => .inp (v.getLsbD (bitIndex order j))),
        log := (js.flatMap fun j => Event.getLevel .dio s.cfg.pinDio (v.getLsbD (bitIndex order j)) ::
          pulseEvents s.cfg).reverse ++ s.bus.log },
      scan := js.foldl (fun y j => y.sample byte (bitIndex order j) (j == 0) (v.getLsbD (bitIndex order j))) s.scan,
      draws := s.draws + js.length } := by
  induction js generalizing s bits with
  | nil => simp [← h.window]
  | cons j js ih =>
    obtain ⟨hfirst, hrest⟩ := List.cons.inj hv
    rw [List.flatMap_cons, State.performAll_append, State.performAll_shiftInBit h]
    refine (ih (h.bitRead none byte (bitIndex order j) (j == 0)) hrest).trans ?_
    simp [State.bitRead, State.sampled, drawsTaken, hfirst, Nat.add_assoc, Nat.add_comm 1]

/-- Settles O10: the eight samples are the draws, and together they are the byte. -/
theorem shiftInSamplesEachBit : Obligations.ShiftInSamplesEachBit := by
  intro s bits order byte v h _ hv
  have hdraw : ∀ j ∈ bitTimes, v.getLsbD (bitIndex order j) = Config.scanLevel (s.draws + j) := by
    intro j hj
    have hlt : j < 8 := List.mem_range.mp hj
    cases order <;> exact hv j hlt
  have hdraws : (bitTimes.map fun j => v.getLsbD (bitIndex order j)) = (List.range' s.draws 8).map Config.scanLevel := by
    rw [List.map_congr_left hdraw, List.range'_eq_map_range, List.map_map]
    rfl
  have hbits : (bitTimes.map fun j => WireBit.inp (v.getLsbD (bitIndex order j))) =
      (List.range 8).map fun j => .inp (Config.scanLevel (s.draws + j)) :=
    List.map_congr_left fun j hj => congrArg _ (hdraw j hj)
  have hevents : (bitTimes.flatMap fun j => Event.getLevel .dio s.cfg.pinDio (v.getLsbD (bitIndex order j)) ::
        pulseEvents s.cfg) =
      (List.range 8).flatMap fun j => .getLevel .dio s.cfg.pinDio (Config.scanLevel (s.draws + j)) :: pulseEvents s.cfg :=
    List.flatMap_congr fun j hj => by rw [hdraw j hj]
  refine ⟨_, State.performAll_shiftInDraws h order byte v bitTimes hdraws, ?_, ?_⟩
  · rw [Scan.foldl_sample, Scan.set_eq, hbits]
    rfl
  · simp only [State.wireTrace, List.reverse_append, List.reverse_reverse]
    rw [hevents]
    rfl

end Sys2Proof.Machine
end

section
/-! PROOFS. O11, O14, O36 and O13: the protocol encoder (R160 to R166). A window out and `read_scan` are the states that the
laws of the transport name; a window of an address and a data byte is that of the two bytes as instructions, with STB rising
at its end (log entry 9); and the action counts of R165 add up from those of a byte, 40 in either direction. -/

namespace Sys2Proof.Machine

/-! ### The windows on the wire (R160, R164) -/

/-- Settles O11: the window is the one of its bytes, and the last byte leaves its last bit on DIO. -/
theorem outWindowSendsItsBytes : Obligations.OutWindowSendsItsBytes := by
  intro s bytes last h hlast
  have hne : bytes ≠ [] := by
    rintro rfl
    cases hlast
  have hbit : lastBit [bytes] s.bus.lvlDio = some (last.getLsbD 7) := by simp [lastBit, hlast]
  exact ⟨s.sent bytes, State.performAll_outWindow h bytes, Sent.of_bus h (by simp) (by simpa using hne) hbit rfl, rfl⟩

/-- Between windows the bus of `scanned` differs from the one before in CLK, DIO and the traces only. -/
theorem State.Between.scanned_bus {s : State} (h : s.Between) :
    s.scanned.bus = { s.bus with
      lvlClk := some false, lvlDio := none, freshDio := some (Config.freshLevel s.outs), log := s.scanned.bus.log,
      trace := s.scanned.bus.trace } := by
  simp only [State.scanned, h.driving, h.strobeHigh, h.noWindow]

theorem State.scanned_wireTrace (s : State) :
    s.scanned.wireTrace = s.wireTrace ++ outWindowEvents s.cfg [0x42] ++ readWindowEvents s.cfg
      [(drawnScan s.draws).b0, (drawnScan s.draws).b1, (drawnScan s.draws).b2, (drawnScan s.draws).b3] := by
  simp [State.scanned, State.wireTrace]

/-- Settles O14: `read_scan` leaves the state `scanned`, whose chip is in READ mode. -/
theorem readScanTwoWindows : Obligations.ReadScanTwoWindows := by
  intro s h
  obtain ⟨-, hu⟩ := h.unmarked
  refine ⟨s.scanned, _, rfl, State.performAll_readScan h.toBetween, ?_, h.toBetween.scanned_bus, s.scanned_wireTrace⟩
  rw [← State.scanned_chip hu]
  rfl

/-! ### `write_single` byte by byte (R162) -/

theorem exec_dctl {s : State} (h : s.Between) (on : Bool) (level : BitVec 3) :
    exec (.dctl on level) s = .next (s.sent [dcByte on level]) :=
  congrArg Host.Outcome.next (State.performAll_outWindow h [dcByte on level])

theorem exec_cmdFixed {s : State} (h : s.Between) : exec .cmdFixed s = .next (s.sent [cmdFixedByte]) :=
  congrArg Host.Outcome.next (State.performAll_outWindow h [cmdFixedByte])

theorem State.InOutWindow.strobed {s : State} {bits : List WireBit} (h : s.InOutWindow bits) :
    s.strobed = s.performAll (closeWindow s.cfg) := by
  simp [State.strobed, strobeActions, h.driving]

/-- A window of two bytes is STB falling, the one byte, the other, and STB rising. -/
theorem State.Between.sent_pair {s : State} (h : s.Between) (a v : Byte) :
    s.sent [a, v] = ((s.windowOpened.byteSent a).byteSent v).strobed := by
  have hopen := h.windowOpened
  have hbytes := State.performAll_shiftOuts hopen [a, v]
  rw [((hopen.byteSent a).byteSent v).strobed, ← State.performAll_outWindow h, outWindow, State.performAll_append,
    State.performAll_append, State.performAll_openWindow h]
  exact congrArg (·.performAll (closeWindow s.cfg)) hbytes

/-- Settles O36: two windows of a command byte each, and the window of the address and the data byte. -/
theorem writeSingleIsItsWireBytes : Obligations.WriteSingleIsItsWireBytes := by
  intro s p v h
  have hdctl := h.sent [dcByte s.isOn s.brightness]
  have hfixed := hdctl.sent [cmdFixedByte]
  have haddr := hfixed.windowOpened.byteSent (addrByte s.cfg p.toNat)
  refine ⟨_, _, _, _, exec_dctl h s.isOn s.brightness, exec_cmdFixed hdctl, exec_addr hfixed p, exec_data haddr v, ?_⟩
  rw [writeSingle_eq, State.performAll_outWindows h]
  exact hfixed.sent_pair (addrByte s.cfg p.toNat) v

/-! ### The action counts (R165) -/

theorem length_shiftOut (cfg : Config) (order : BitOrder) (b : Byte) : (shiftOut cfg order b).length = 40 := rfl

theorem length_shiftIn (cfg : Config) (order : BitOrder) (given : Option Byte) (byte : Nat) :
    (shiftIn cfg order given byte).length = 40 := rfl

theorem length_openWindow (cfg : Config) : (openWindow cfg).length = 1 + setupActions cfg := by
  unfold openWindow setupActions
  split <;> rfl

theorem length_closeWindow (cfg : Config) : (closeWindow cfg).length = 2 := rfl

theorem length_outWindow (cfg : Config) (bytes : List Byte) :
    (outWindow cfg bytes).length = 3 + 40 * bytes.length + setupActions cfg := by
  have hbytes : (bytes.flatMap (shiftOut cfg .lsb)).length = 40 * bytes.length := by
    simp [List.length_flatMap, length_shiftOut, Nat.mul_comm]
  simp only [outWindow, List.length_append, hbytes, length_openWindow, length_closeWindow]
  omega

theorem length_openReadWindow (cfg : Config) : (openReadWindow cfg).length = 2 + setupActions cfg := by
  simp only [openReadWindow, List.length_append, length_openWindow, List.length_singleton]
  omega

theorem length_closeReadWindow (cfg : Config) : (closeReadWindow cfg).length = 3 := rfl

theorem length_readScan (cfg : Config) : (readScan cfg).length = 208 + 2 * setupActions cfg := by
  have hbytes : ([0, 1, 2, 3].flatMap (shiftIn cfg .lsb none)).length = 160 := by
    simp [length_shiftIn]
  simp only [readScan, List.length_append, length_outWindow, length_openReadWindow, hbytes, length_closeReadWindow,
    List.length_singleton]
  omega

/-- Settles O13: each count is the sum over the windows of the sequence. -/
theorem actionCounts : Obligations.ActionCounts := by
  intro cfg on l p v bytes setup hsetup
  obtain rfl : setup = setupActions cfg := hsetup
  refine ⟨?_, ?_, ?_, ?_, ?_⟩
  · rw [length_outWindow]
    omega
  · rw [emitDc, length_outWindow, List.length_singleton]
  · simp only [writeSingle, emitDc, List.length_append, length_outWindow, List.length_cons, List.length_nil]
    omega
  · simp only [writeBurst, emitDc, List.length_append, length_outWindow, List.length_cons, List.length_nil]
    omega
  · rw [length_readScan]
    omega

end Sys2Proof.Machine
end

section
/-! PROOFS. O6 and O20 to O24: the digit and LED operations (R190 to R198). Each is a list of single writes at addresses
within the 16 registers, so one lemma says what such an operation does to the block, the wire and the chip, and one what the
registers read after it; what is left of each operation is its addresses and bytes. -/

namespace Sys2Proof.Machine

/-! ### The address map (R190, R191, R204) -/

/-- Settles O6: the even addresses are the digits' and the odd ones the LEDs'. -/
theorem addressMapCoversRegistersOnce : Obligations.AddressMapCoversRegistersOnce := by
  unfold Obligations.AddressMapCoversRegistersOnce digitAddr ledAddr
  refine ⟨fun d hd => ⟨rfl, ?_⟩, fun n hn hn' => ⟨rfl, ?_⟩, fun d e hd he heq => ?_, fun m n hm hm' hn hn' heq => ?_,
    fun p hp => ?_⟩
  · omega
  · omega
  · omega
  · omega
  · obtain heven | hodd := Nat.mod_two_eq_zero_or_one p
    · exact .inl ⟨(14 - p) / 2, by omega, by omega⟩
    · exact .inr ⟨(p + 1) / 2, by omega, by omega, by omega⟩

/-! ### Checks that pass (R292, R294) -/

theorem requireInit_of_initDone {s : State} (hi : s.initDone = true) (l : List Action) : requireInit s l = l :=
  if_pos hi

theorem requireRange_of_inRange {inRange : Bool} (h : inRange = true) (l : List Action) : requireRange inRange l = l :=
  if_pos h

/-! ### Windows and the completion, as an operation -/

/-- An operation that sends windows of at least one byte and completes (R160, R263). -/
theorem State.Between.runsWindows {s : State} (h : s.Between) {ws : List (List Byte)} (hws : ws ≠ [])
    (hne : ∀ w ∈ ws, w ≠ []) {last : Byte} (hlast : lastBit ws s.bus.lvlDio = some (last.getLsbD 7)) :
    ∃ t, runOperation (ws.flatMap (outWindow s.cfg) ++ [.complete .zero]) s = .next t ∧
      CompletedWithBlockKept s t ((ws.flatMap (outWindow s.cfg)).length + 1) ∧ Sent s t ws last ∧
      t.chip = s.chip.observeAll s.cfg ws := by
  refine ⟨_, rfl, ?_, Sent.of_bus h hws hne hlast ?_, ?_⟩
  · rw [State.performAll_windows h, State.sentAll_keeps, List.length_append, List.length_singleton]
    rfl
  · rw [State.performAll_windows h]
  · rw [State.performAll_windows h]
    exact State.sentAll_chip s ws

/-! ### Single writes (R162) -/

theorem length_writeSingle (cfg : Config) (on : Bool) (l : BitVec 3) (p : Nat) (v : Byte) :
    (writeSingle cfg on l p v).length = 169 + 3 * setupActions cfg := by
  obtain ⟨-, -, hlength, -⟩ := actionCounts cfg on l p v [] (setupActions cfg) rfl
  exact hlength

theorem length_pairWindows (cfg : Config) (on : Bool) (l : BitVec 3) (pairs : List (Nat × Byte)) :
    ((pairWindows cfg on l pairs).flatMap (outWindow cfg)).length = (169 + 3 * setupActions cfg) * pairs.length := by
  rw [← pairWindows_flatMap]
  simp [List.length_flatMap, length_writeSingle, Nat.mul_comm]

theorem lastBit_pairWindows (cfg : Config) (on : Bool) (l : BitVec 3) (pairs : List (Nat × Byte)) (p : Nat) (v : Byte)
    (dio : Option Bool) : lastBit (pairWindows cfg on l (pairs ++ [(p, v)])) dio = some (v.getLsbD 7) := by
  rw [pairWindows, List.flatMap_append, lastBit_append]
  rfl

/-- An operation that makes single writes within the 16 registers, the last one of the byte `v`. -/
theorem State.Ready.runsPairs {s : State} (h : s.Ready) {pairs : List (Nat × Byte)} {n : Nat}
    (hn : pairs.length = n) (hp : ∀ x ∈ pairs, x.1 ≤ 15) {v : Byte} (hv : pairs.getLast?.map Prod.snd = some v) :
    ∃ t, runOperation ((pairs.flatMap fun x => writeSingleNow s x.1 x.2) ++ [.complete .zero]) s = .next t ∧
      CompletedWithBlockKept s t ((169 + 3 * setupActions s.cfg) * n + 1) ∧
      Sent s t (pairWindows s.cfg s.isOn s.brightness pairs) v ∧
      t.chip = ⟨s.chip.ram.writeAll pairs, some .fixed, some (s.isOn, s.brightness), false⟩ := by
  obtain ⟨-, hu⟩ := h.unmarked
  obtain ⟨⟨p, v'⟩, hlast, rfl⟩ := Option.map_eq_some_iff.mp hv
  obtain ⟨init, rfl⟩ := List.getLast?_eq_some_iff.mp hlast
  have hne : init ++ [(p, v')] ≠ [] := by simp
  have hrun := h.toBetween.runsWindows (ws := pairWindows s.cfg s.isOn s.brightness (init ++ [(p, v')]))
    (by simp [pairWindows, singleWindows]) (pairWindows_ne _ _ _ _) (lastBit_pairWindows ..)
  rw [length_pairWindows, hn, ← pairWindows_flatMap, Chip.observeAll_pairs h.admitted hu _ _ hne hp] at hrun
  exact hrun

/-- What the registers read after single writes whose byte is a function of the address. -/
theorem Memory.read_writeAll_map (m : Memory) (f : Nat → Byte) (addrs : List Nat) (a : Nat) :
    (m.writeAll (addrs.map fun b => (b, f b))).read a = if a ∈ addrs then some (f a) else m.read a := by
  induction addrs generalizing m with
  | nil => rfl
  | cons b addrs ih =>
    refine (ih (m.write b (f b))).trans ?_
    rw [Memory.read_write]
    by_cases hb : a = b
    · simp [hb]
    · simp [hb]

/-! ### One digit or LED (R194, R195, R197) -/

/-- An operation that makes one single write. -/
theorem State.Ready.runsSingle {s : State} (h : s.Ready) {p : Nat} (hp : p ≤ 15) (v : Byte) :
    ∃ t, runOperation (writeSingleNow s p v ++ [.complete .zero]) s = .next t ∧
      CompletedWithBlockKept s t (170 + 3 * setupActions s.cfg) ∧
      Sent s t (singleWindows s.cfg s.isOn s.brightness p v) v ∧ ChipWroteOne s t p v := by
  obtain ⟨t, hrun, hkept, hsent, hchip⟩ := h.runsPairs (pairs := [(p, v)]) (n := 1) (v := v) rfl (by simpa using hp) rfl
  rw [List.flatMap_singleton] at hrun
  refine ⟨t, hrun, ?_, hsent, ?_⟩
  · rwa [show (169 + 3 * setupActions s.cfg) * 1 + 1 = 170 + 3 * setupActions s.cfg by omega] at hkept
  · constructor <;> rw [hchip]
    exact fun a => Memory.read_write s.chip.ram p a v

/-- Every hexadecimal digit has a pattern, and it leaves the decimal point off (R9, R31, R192). -/
theorem Config.segTable_entry {cfg : Config} (h : cfg.admitted = true) {n : Nat} (hn : n ≤ 15) :
    cfg.segTable[n]? = some (segEncode cfg n) ∧ (segEncode cfg n).getLsbD 7 = false := by
  simp only [Config.admitted, Config.segOk, Bool.and_eq_true, beq_iff_eq, List.all_eq_true, Bool.not_eq_true'] at h
  obtain ⟨⟨⟨-, hlength, hclear⟩, -⟩, -⟩ := h
  have hlt : n < cfg.segTable.length := by omega
  have hentry : segEncode cfg n = cfg.segTable[n] := List.getD_eq_getElem _ _ hlt
  rw [hentry]
  exact ⟨List.getElem?_eq_getElem hlt, hclear _ (List.getElem_mem hlt)⟩

theorem exec_displayDig {s : State} (hi : s.initDone = true) {d : Byte} (hd : d.toNat ≤ 7) (v : Byte) :
    exec (.displayDig d v) s = runOperation (writeSingleNow s (digitAddr d.toNat) v ++ [.complete .zero]) s := by
  have hrange : digitInRange d = true := decide_eq_true hd
  show runOperation (displayDigActions d v s) s = _
  rw [displayDigActions, requireInit_of_initDone hi, requireRange_of_inRange hrange]

/-- `display_val` is `display_dig` with the pattern of its digit (R192, R194). -/
theorem exec_displayVal {s : State} (hi : s.initDone = true) {d x : Byte} (hd : d.toNat ≤ 7) (hx : x.toNat ≤ 15) :
    exec (.displayVal d x) s = exec (.displayDig d (segEncode s.cfg x.toNat)) s := by
  have hrange : (digitInRange d && hexInRange x) = true := by simp [digitInRange, hexInRange, hd, hx]
  rw [exec_displayDig hi hd]
  show runOperation (displayValActions d x s) s = _
  rw [displayValActions, requireInit_of_initDone hi, requireRange_of_inRange hrange]

theorem exec_writeLed {s : State} (hi : s.initDone = true) {n : Byte} (hn : 1 ≤ n.toNat) (hn' : n.toNat ≤ 8) (st : Byte) :
    exec (.writeLed n st) s =
      runOperation (writeSingleNow s (ledAddr n.toNat) (boolByte (ledState st)) ++ [.complete .zero]) s := by
  have hrange : ledInRange n = true := by simp [ledInRange, hn, hn']
  show runOperation (writeLedActions n st s) s = _
  rw [writeLedActions, requireInit_of_initDone hi, requireRange_of_inRange hrange]

/-- Settles O21: one single write at the digit's address. -/
theorem displayDigWritesRawPattern : Obligations.DisplayDigWritesRawPattern := by
  intro s d v h hi hd
  rw [exec_displayDig hi hd]
  exact h.runsSingle (digitAddr_le _) v

/-- Settles O20: `display_dig` with an entry of the table. -/
theorem displayValWritesDigit : Obligations.DisplayValWritesDigit := by
  intro s d x h hi hd hx
  obtain ⟨hentry, hclear⟩ := Config.segTable_entry h.admitted hx
  obtain ⟨t, hdig⟩ := displayDigWritesRawPattern s d (segEncode s.cfg x.toNat) h hi hd
  rw [← exec_displayVal hi hd hx] at hdig
  exact ⟨t, _, hentry, hclear, hdig⟩

/-- Settles O23: one single write at the LED's address, of the byte of its state. -/
theorem writeLedWritesOneBit : Obligations.WriteLedWritesOneBit := by
  intro s n st v h hi hn hn' hv
  have hbyte : boolByte (ledState st) = v := by
    rw [hv]
    by_cases hst : st = 0 <;> simp [ledState, boolByte, hst]
  rw [exec_writeLed hi hn hn', hbyte]
  exact h.runsSingle (ledAddr_le hn') v

/-! ### All digits or all LEDs (R196, R198) -/

theorem clearPairs_eq : clearPairs = [14, 12, 10, 8, 6, 4, 2, 0].map fun a => (a, 0x00) := rfl

theorem ledPairs_eq (m : Byte) :
    ledPairs m = [1, 3, 5, 7, 9, 11, 13, 15].map fun a => (a, boolByte (m.getLsbD (a / 2))) := rfl

theorem exec_displayClear {s : State} (hi : s.initDone = true) :
    exec .displayClear s =
      runOperation ((clearPairs.flatMap fun x => writeSingleNow s x.1 x.2) ++ [.complete .zero]) s := by
  show runOperation (displayClearActions s) s = _
  rw [displayClearActions, requireInit_of_initDone hi, clearPairs, List.flatMap_map]

theorem exec_writeLeds {s : State} (hi : s.initDone = true) (m : Byte) :
    exec (.writeLeds m) s =
      runOperation (((ledPairs m).flatMap fun x => writeSingleNow s x.1 x.2) ++ [.complete .zero]) s := by
  show runOperation (writeLedsActions m s) s = _
  rw [writeLedsActions, requireInit_of_initDone hi, ledPairs, List.flatMap_map]

theorem mem_evenAddrs {a : Nat} : a ∈ [14, 12, 10, 8, 6, 4, 2, 0] ↔ a % 2 = 0 ∧ a ≤ 14 := by
  simp only [List.mem_cons, List.not_mem_nil, or_false]
  omega

theorem mem_oddAddrs {a : Nat} : a ∈ [1, 3, 5, 7, 9, 11, 13, 15] ↔ a % 2 = 1 ∧ a ≤ 15 := by
  simp only [List.mem_cons, List.not_mem_nil, or_false]
  omega

/-- Settles O22: eight single writes of 0, at the even addresses. -/
theorem displayClearBlanksDigits : Obligations.DisplayClearBlanksDigits := by
  intro s h hi
  obtain ⟨t, hrun, hkept, hsent, hchip⟩ :=
    h.runsPairs (pairs := clearPairs) (n := 8) (v := 0x00) rfl (by decide) rfl
  rw [← exec_displayClear hi] at hrun
  refine ⟨t, hrun, ?_, hsent, fun a => ?_, ?_, ?_, ?_⟩
  · rwa [show (169 + 3 * setupActions s.cfg) * 8 + 1 = 1353 + 24 * setupActions s.cfg by omega] at hkept
  · simp only [hchip, clearPairs_eq, Memory.read_writeAll_map, mem_evenAddrs]
  all_goals rw [hchip]

/-- Settles O24: eight single writes, at the odd addresses, of the byte of the mask's bit. -/
theorem writeLedsWritesMask : Obligations.WriteLedsWritesMask := by
  intro s m h hi
  obtain ⟨t, hrun, hkept, hsent, hchip⟩ :=
    h.runsPairs (pairs := ledPairs m) (n := 8) (v := boolByte (m.getLsbD 7)) rfl (by simp [ledPairs, ledAddr]) rfl
  have hread : ∀ a, t.chip.ram.read a =
      if a % 2 = 1 ∧ a ≤ 15 then some (boolByte (m.getLsbD (a / 2))) else s.chip.ram.read a := by
    intro a
    simp only [hchip, ledPairs_eq, Memory.read_writeAll_map, mem_oddAddrs]
  rw [← exec_writeLeds hi] at hrun
  refine ⟨t, hrun, ?_, hsent, fun i hlt => ?_, fun a ha => ?_, ?_, ?_, ?_⟩
  · rwa [show (169 + 3 * setupActions s.cfg) * 8 + 1 = 1353 + 24 * setupActions s.cfg by omega] at hkept
  · rw [hread, if_pos (by omega), show (2 * i + 1) / 2 = i by omega]
    rfl
  · rw [hread, if_neg (by omega)]
  all_goals rw [hchip]

end Sys2Proof.Machine
end

section
/-! PROOFS. O25, O26 and O27: display control (R199 to R201, R205). Each of the three operations gives the display state a
new value and sends the one window that carries it; the state this leaves is named once, and it is ready again. -/

namespace Sys2Proof.Machine

/-! ### A new display state and its window -/

/-- The state after an operation that sets IS_ON and BRIGHTNESS and sends the display-control window of their values. -/
def State.controlSent (s : State) (on : Bool) (level : BitVec 3) : State :=
  { s with
      bus := (s.sent [dcByte on level]).bus
      chip := { s.chip with dc := some (on, level) }
      isOn := on
      brightness := level
      seq := s.seq.advance (45 + setupActions s.cfg)
      resp := ⟨.ok, 0⟩ }

theorem State.Ready.controlSent {s : State} (h : s.Ready) (on : Bool) (level : BitVec 3) :
    (s.controlSent on level).Ready :=
  ⟨⟨h.locked, h.pins, h.driving, rfl, rfl⟩, h.admitted, h.unmarked⟩

/-- One window, and DIO is left at bit 7 of a display-control byte, which is set (R95). -/
theorem State.Between.sent_controlSent {s : State} (h : s.Between) (on : Bool) (level : BitVec 3) :
    Sent s (s.controlSent on level) [[dcByte on level]] 0x80 := by
  obtain ⟨-, hbit⟩ := dcByte_fixedBits on level
  exact Sent.of_bus h (List.cons_ne_nil _ _) (by simp) (congrArg some hbit) rfl

/-- The window goes out after the register writes, and the chip's latch takes it (R62, R161). -/
theorem State.Ready.performAll_emitDc {s : State} (h : s.Ready) (on : Bool) (level : BitVec 3) :
    ({ s with isOn := on, brightness := level } : State).performAll (emitDc s.cfg on level ++ [.complete .zero]) =
      { s.controlSent on level with seq := s.seq } := by
  have hb : ({ s with isOn := on, brightness := level } : State).Between :=
    ⟨h.locked, h.pins, h.driving, h.strobeHigh, h.noWindow⟩
  obtain ⟨-, hu⟩ := h.unmarked
  rw [emitDc_eq, State.performAll_windows hb, State.controlSent, ← Chip.observe_dc s.cfg hu on level]
  rfl

/-- A register write that leaves the display state `(on, level)`, the window and the completion, as an operation. -/
theorem State.Ready.runsControl {s : State} (h : s.Ready) {on : Bool} {level : BitVec 3} {a : Action}
    (ha : s.perform a = { s with isOn := on, brightness := level }) :
    runOperation (a :: (emitDc s.cfg on level ++ [.complete .zero])) s = .next (s.controlSent on level) := by
  have hlength : (a :: (emitDc s.cfg on level ++ [.complete .zero])).length = 45 + setupActions s.cfg := by
    simp only [emitDc, List.length_cons, List.length_append, length_outWindow, List.length_nil]
    omega
  rw [runOperation, hlength, State.performAll_cons, ha, h.performAll_emitDc]
  rfl

/-! ### The three operations -/

theorem exec_displayTurnOn {s : State} (h : s.Ready) (hi : s.initDone = true) :
    exec .displayTurnOn s = .next (s.controlSent true s.brightness) := by
  show runOperation (displayTurnOnActions s) s = _
  rw [displayTurnOnActions, requireInit_of_initDone hi, h.runsControl rfl]

theorem exec_displayTurnOff {s : State} (h : s.Ready) (hi : s.initDone = true) :
    exec .displayTurnOff s = .next (s.controlSent false s.brightness) := by
  show runOperation (displayTurnOffActions s) s = _
  rw [displayTurnOffActions, requireInit_of_initDone hi, h.runsControl rfl]

/-- The level is the operand's value, unchanged (R10). -/
theorem levelBits_of_toNat {l : Byte} {level : BitVec 3} (hl : l.toNat = level.toNat) : levelBits l = level := by
  refine BitVec.eq_of_toNat_eq ?_
  rw [levelBits, BitVec.extractLsb'_toNat, Nat.shiftRight_zero, hl, Nat.mod_eq_of_lt level.isLt]

theorem exec_displaySetBrightness {s : State} (h : s.Ready) (hi : s.initDone = true) {l : Byte} {level : BitVec 3}
    (hl : l.toNat = level.toNat) : exec (.displaySetBrightness l) s = .next (s.controlSent s.isOn level) := by
  have hrange : levelInRange l = true := decide_eq_true (by omega)
  show runOperation (displaySetBrightnessActions l s) s = _
  rw [displaySetBrightnessActions, requireInit_of_initDone hi, requireRange_of_inRange hrange, levelBits_of_toNat hl,
    h.runsControl rfl]

/-- Settles O25: both operations keep BRIGHTNESS, and the byte is 0x88 or 0x80 with its level. -/
theorem turnOnAndOffSendControl : Obligations.TurnOnAndOffSendControl := by
  intro s h hi
  exact ⟨⟨_, exec_displayTurnOn h hi, rfl, h.toBetween.sent_controlSent true s.brightness⟩,
    ⟨_, exec_displayTurnOff h hi, rfl, h.toBetween.sent_controlSent false s.brightness⟩⟩

/-- Settles O26: the operation keeps IS_ON. -/
theorem setBrightnessSendsControl : Obligations.SetBrightnessSendsControl := by
  intro s l level h hi hl
  exact ⟨_, exec_displaySetBrightness h hi hl, rfl, h.toBetween.sent_controlSent s.isOn level⟩

/-- Settles O27: each operation leaves a ready state for the next one, and only the first one writes BRIGHTNESS. -/
theorem brightnessSurvivesToggling : Obligations.BrightnessSurvivesToggling := by
  intro s l level h hi hl
  have hset := h.controlSent s.isOn level
  exact ⟨_, _, _, exec_displaySetBrightness h hi hl, exec_displayTurnOff hset hi,
    exec_displayTurnOn (hset.controlSent false level) hi, rfl, rfl, rfl, rfl⟩

end Sys2Proof.Machine
end

section
/-! PROOFS. O28 and O29: the whole-display operations (R202, R203). `reset` is one burst; `test` is a burst and a hold for each
frame, so what a list of frames leaves is said by induction along it: in one record for the bus, and for the chip what the
last frame needs, which writes all 16 registers itself. -/

namespace Sys2Proof.Machine

/-! ### Bursts (R163) -/

theorem addrByte_zero (cfg : Config) : addrByte cfg 0 = cfg.addrBase := BitVec.add_zero _

theorem length_writeBurst (cfg : Config) (on : Bool) (l : BitVec 3) (p : Nat) (vs : List Byte) :
    (writeBurst cfg on l p vs).length = 129 + 40 * vs.length + 3 * setupActions cfg := by
  obtain ⟨-, -, -, hlength, -⟩ := actionCounts cfg on l p 0 vs (setupActions cfg) rfl
  exact hlength

/-- A burst of some bytes leaves DIO at the last bit of the last one. -/
theorem lastBit_burstWindows (cfg : Config) (on : Bool) (l : BitVec 3) (p : Nat) (vs : List Byte) (v : Byte)
    (dio : Option Bool) : lastBit (burstWindows cfg on l p (vs ++ [v])) dio = some (v.getLsbD 7) :=
  lastBit_concat [[dcByte on l], [0x40]] (addrByte cfg p :: vs) v dio

/-- A full burst, read: its byte in each register (R60, R64). -/
theorem Memory.read_writeBurst_full (m : Memory) {vs : List Byte} (hvs : vs.length = 16) (a : Nat) :
    (m.writeBurst 0 vs).read a = if a ≤ 15 then vs[a]? else m.read a := by
  rw [Memory.read_writeBurst, hvs, Nat.sub_zero]
  exact if_congr (by omega) rfl rfl

theorem exec_reset {s : State} (hi : s.initDone = true) :
    exec .reset s = runOperation ((burstWindows s.cfg s.isOn s.brightness 0 (List.replicate 16 0x00)).flatMap
      (outWindow s.cfg) ++ [.complete .zero]) s := by
  show runOperation (resetActions s) s = _
  rw [resetActions, requireInit_of_initDone hi, writeBurstNow, writeBurst_eq]

/-- Settles O28: one burst of 16 zero bytes. -/
theorem resetClearsAllRegisters : Obligations.ResetClearsAllRegisters := by
  intro s h hi
  obtain ⟨-, hu⟩ := h.unmarked
  obtain ⟨t, hrun, hkept, hsent, hchip⟩ := h.toBetween.runsWindows
    (ws := burstWindows s.cfg s.isOn s.brightness 0 (List.replicate 16 0x00)) (List.cons_ne_nil _ _)
    (burstWindows_ne _ _ _ _ _) (lastBit_burstWindows _ _ _ _ (List.replicate 15 0x00) 0x00 _)
  rw [← exec_reset hi] at hrun
  rw [← writeBurst_eq, length_writeBurst, List.length_replicate] at hkept
  rw [burstWindows, addrByte_zero] at hsent
  rw [Chip.observeAll_burst h.admitted hu _ _ (by simp) (by simp)] at hchip
  refine ⟨t, hrun, ?_, hsent, fun a => ?_, ?_, ?_, ?_⟩
  · rwa [show 129 + 40 * 16 + 3 * setupActions s.cfg + 1 = 770 + 3 * setupActions s.cfg by omega] at hkept
  · rw [hchip, Memory.read_writeBurst_full _ List.length_replicate]
    by_cases ha : a ≤ 15
    · rw [if_pos ha, if_pos ha, List.getElem?_replicate_of_lt (by omega)]
    · rw [if_neg ha, if_neg ha]
  all_goals rw [hchip]

/-! ### One frame after another (R203) -/

/-- The windows of one frame. -/
def State.frameWindows (s : State) (f : List Byte) : List (List Byte) := burstWindows s.cfg s.isOn s.brightness 0 f

theorem State.frameWindows_eq (s : State) (f : List Byte) :
    s.frameWindows f = [[dcByte s.isOn s.brightness], [0x40], s.cfg.addrBase :: f] := by
  rw [State.frameWindows, burstWindows, addrByte_zero]

theorem State.frameWindows_ne (s : State) (f : List Byte) : s.frameWindows f ≠ [] := List.cons_ne_nil _ _

/-- The events of one frame and its hold. -/
def State.frameEvents (s : State) (f : List Byte) : List Event :=
  (s.frameWindows f).flatMap (outWindowEvents s.cfg) ++ [.delayUs s.cfg.tTestHold]

theorem State.frameEvents_eq (s : State) (f : List Byte) :
    s.frameEvents f = outWindowEvents s.cfg [dcByte s.isOn s.brightness] ++ outWindowEvents s.cfg [0x40] ++
      outWindowEvents s.cfg (s.cfg.addrBase :: f) ++ [.delayUs s.cfg.tTestHold] := by
  simp [State.frameEvents, State.frameWindows_eq]

/-- Frames change the bus and the chip only. -/
theorem State.framesShown_keeps (s : State) (frames : List (List Byte)) :
    frames.foldl State.frameShown s =
      { s with bus := (frames.foldl State.frameShown s).bus, chip := (frames.foldl State.frameShown s).chip } := by
  induction frames generalizing s with
  | nil => rfl
  | cons f frames ih => rw [List.foldl_cons, ih (s.frameShown f), State.frameShown_keeps s f]

/-- What one frame does to the bus. -/
theorem State.Between.frameShown_bus {s : State} (h : s.Between) (f : List Byte) :
    (s.frameShown f).bus = { s.bus with
      lvlClk := some false
      lvlDio := lastBit (s.frameWindows f) s.bus.lvlDio
      log := (s.frameEvents f).reverse ++ s.bus.log
      trace := ((s.frameWindows f).map outW).reverse ++ s.bus.trace } := by
  have hsent := State.sentAll_eq h (s.frameWindows f) (burstWindows_ne _ _ _ _ _)
  have hbus : (s.frameShown f).bus = (s.sentAll (s.frameWindows f)).bus.delay s.cfg.tTestHold := rfl
  rw [hbus, hsent, if_neg (s.frameWindows_ne f), State.frameEvents, List.reverse_append]
  rfl

/-- What frames do to the bus, in one record. -/
theorem State.Between.framesShown_bus {s : State} (h : s.Between) (frames : List (List Byte)) :
    (frames.foldl State.frameShown s).bus = { s.bus with
      lvlClk := if frames = [] then s.bus.lvlClk else some false
      lvlDio := lastBit (frames.flatMap s.frameWindows) s.bus.lvlDio
      log := (frames.flatMap s.frameEvents).reverse ++ s.bus.log
      trace := ((frames.flatMap s.frameWindows).map outW).reverse ++ s.bus.trace } := by
  induction frames generalizing s with
  | nil => rfl
  | cons f frames ih =>
    have hwindows : (s.frameShown f).frameWindows = s.frameWindows := rfl
    have hevents : (s.frameShown f).frameEvents = s.frameEvents := rfl
    rw [List.foldl_cons, ih (h.frameShown f), hwindows, hevents, h.frameShown_bus f]
    simp [lastBit_append]

/-- Frames leave the chip unmarked, and the addresses past the registers as they were. -/
theorem State.framesShown_chip {s : State} (hcfg : s.cfg.admitted = true) (hu : s.chip.undefined = false)
    {frames : List (List Byte)} (hf : ∀ f ∈ frames, f.length = 16) :
    (frames.foldl State.frameShown s).chip.undefined = false ∧
      ∀ a, 15 < a → (frames.foldl State.frameShown s).chip.ram.read a = s.chip.ram.read a := by
  induction frames generalizing s with
  | nil => exact ⟨hu, fun _ _ => rfl⟩
  | cons f frames ih =>
    obtain ⟨hlength, hrest⟩ := List.forall_mem_cons.mp hf
    have hchip := State.frameShown_chip hcfg hu hlength
    obtain ⟨hundefined, hread⟩ := ih (s := s.frameShown f) hcfg (by rw [hchip]) hrest
    refine ⟨hundefined, fun a ha => (hread a ha).trans ?_⟩
    rw [hchip, Memory.read_writeBurst_full _ hlength, if_neg (by omega)]

/-- The chip after frames of 16 bytes: the last one in the registers, whatever came before it. -/
theorem State.framesShown_concat_chip {s : State} (hcfg : s.cfg.admitted = true) (hu : s.chip.undefined = false)
    {frames : List (List Byte)} {last : List Byte} (hf : ∀ f ∈ frames ++ [last], f.length = 16) :
    ∃ ram : Memory, ((frames ++ [last]).foldl State.frameShown s).chip =
        ⟨ram, some .auto, some (s.isOn, s.brightness), false⟩ ∧
      ∀ a, ram.read a = if a ≤ 15 then last[a]? else s.chip.ram.read a := by
  obtain ⟨hfrs, hlast⟩ := List.forall_mem_append.mp hf
  have hlength := List.forall_mem_singleton.mp hlast
  have hkeeps := State.framesShown_keeps s frames
  obtain ⟨hundefined, hread⟩ := State.framesShown_chip hcfg hu hfrs
  have hchip := State.frameShown_chip (s := frames.foldl State.frameShown s) (by rw [hkeeps]; exact hcfg) hundefined hlength
  refine ⟨(frames.foldl State.frameShown s).chip.ram.writeBurst 0 last, ?_, fun a => ?_⟩
  · rw [List.foldl_concat, hchip, hkeeps]
  · rw [Memory.read_writeBurst_full _ hlength]
    by_cases ha : a ≤ 15
    · rw [if_pos ha, if_pos ha]
    · rw [if_neg ha, if_neg ha, hread a (by omega)]

/-- The last bit of the last frame is on DIO, whatever came before it. -/
theorem lastBit_frameWindows_concat (s : State) (frames : List (List Byte)) {last : List Byte} (hlast : last ≠ [])
    (dio : Option Bool) :
    lastBit ((frames ++ [last]).flatMap s.frameWindows) dio = last.getLast?.map (·.getLsbD 7) := by
  obtain ⟨init, v, rfl⟩ := (List.eq_nil_or_concat last).resolve_left hlast
  rw [List.concat_eq_append, List.flatMap_append, lastBit_append, List.flatMap_singleton, State.frameWindows,
    lastBit_burstWindows, List.getLast?_concat]
  rfl

/-! ### `test` (R203) -/

/-- The actions of `test` but the completion. -/
def State.testFrames (s : State) : List Action :=
  s.cfg.selfTestFrames.flatMap fun f =>
    writeBurst s.cfg s.isOn s.brightness 0 f ++ [.wire .none (.delayUs s.cfg.tTestHold)]

theorem State.length_testFrames {s : State} (hf : ∀ f ∈ s.cfg.selfTestFrames, f.length = 16) :
    s.testFrames.length = (770 + 3 * setupActions s.cfg) * s.cfg.selfTestFrames.length := by
  have hframe : ∀ f ∈ s.cfg.selfTestFrames, (writeBurst s.cfg s.isOn s.brightness 0 f ++
      [Action.wire .none (.delayUs s.cfg.tTestHold)]).length = 770 + 3 * setupActions s.cfg := by
    intro f hmem
    rw [List.length_append, length_writeBurst, hf f hmem, List.length_singleton]
    omega
  rw [State.testFrames, List.length_flatMap, List.map_congr_left hframe, List.map_const', List.sum_replicate,
    smul_eq_mul, Nat.mul_comm]

theorem exec_test {s : State} (h : s.Ready) (hi : s.initDone = true) :
    exec .test s = .next { s.cfg.selfTestFrames.foldl State.frameShown s with
      seq := s.seq.advance ((770 + 3 * setupActions s.cfg) * s.cfg.selfTestFrames.length + 1), resp := ⟨.ok, 0⟩ } := by
  have hlength := State.length_testFrames fun f => Config.frame_length h.admitted
  have hactions : testActions s = s.testFrames ++ [.complete .zero] := requireInit_of_initDone hi _
  show runOperation (testActions s) s = _
  rw [hactions, runOperation, List.length_append, hlength, State.performAll_append, State.testFrames,
    State.performAll_frames h.toBetween]
  rfl

/-- Settles O29: the frames by the records of the bus and of the chip; no frame leaves the completion alone. -/
theorem testShowsEachFrame : Obligations.TestShowsEachFrame := by
  intro s h hi
  have hexec := exec_test h hi
  refine ⟨fun frames last hframes => ?_, fun hnone => ?_⟩
  · obtain ⟨-, hu⟩ := h.unmarked
    have hf : ∀ f ∈ frames ++ [last], f.length = 16 := fun f hmem =>
      Config.frame_length h.admitted (by rw [hframes]; exact hmem)
    have hlast : last ≠ [] := List.ne_nil_of_length_eq_add_one (hf last (by simp))
    obtain ⟨ram, hchip, hread⟩ := State.framesShown_concat_chip h.admitted hu hf
    have hbus := h.toBetween.framesShown_bus (frames ++ [last])
    rw [if_neg (by simp), lastBit_frameWindows_concat s frames hlast] at hbus
    rw [hframes, List.length_append, List.length_singleton] at hexec
    refine ⟨_, hexec, ?_, ?_, ?_, ?_, ?_, fun a => ?_, ?_, ?_, ?_⟩
    · rw [State.framesShown_keeps]
      rfl
    · rw [hbus]
    · rw [hbus, List.map_flatMap]
      exact congrArg (·.reverse ++ s.bus.trace) (List.flatMap_congr fun f _ => congrArg (·.map outW) (s.frameWindows_eq f))
    · rw [hbus]
    · show (((frames ++ [last]).foldl State.frameShown s).bus.log).reverse = _
      rw [hbus, List.reverse_append, List.reverse_reverse]
      exact congrArg (s.wireTrace ++ ·) (List.flatMap_congr fun f _ => s.frameEvents_eq f)
    · rw [← hread, hchip]
    all_goals rw [hchip]
  · rw [hexec, hnone]
    rfl

end Sys2Proof.Machine
end

section
/-! PROOFS. O15: the first `init` (R193). Its list is three parts, the directions, the levels and the registers; the gap of R346
is the state after the first part, and the levels find no window open, so none closes. -/

namespace Sys2Proof.Machine

/-! ### The parts of the list -/

/-- The pins are bound and set to output. -/
def initDirections : List Action :=
  [.bindPins, .wire .none (.setDir .clk .out), .wire .none (.setDir .dio .out), .wire .none (.setDir .stb .out)]

/-- All three lines are driven high. -/
def initLevels : List Action :=
  [.wire .none (.setLevel .clk true), .wire .none (.setLevel .dio true), .wire .none (.setLevel .stb true)]

/-- The registers take their defaults, and the operation completes. -/
def initRegisters : List Action :=
  [.writeDioDriving, .writeBrightness 0, .writeIsOn false, .writeInitDone, .complete .zero]

theorem initActions_eq {s : State} (hi : s.initDone = false) :
    initActions s = initDirections ++ (initLevels ++ initRegisters) := by
  rw [initActions, hi]
  rfl

/-! ### What each part does -/

/-- The state in the gap of R346: the lines are outputs at the levels of the draws, nothing driven by `init` yet. -/
def State.directed (s : State) : State :=
  { s with
      bus := { s.bus with
        pinClk := some s.cfg.pinClk, pinDio := some s.cfg.pinDio, pinStb := some s.cfg.pinStb
        dioDir := .driving
        lvlDio := none
        freshClk := some (Config.freshLevel s.outs)
        freshDio := some (Config.freshLevel (s.outs + 1))
        freshStb := some (Config.freshLevel (s.outs + 2))
        log := [.setDir .stb s.cfg.pinStb .out, .setDir .dio s.cfg.pinDio .out, .setDir .clk s.cfg.pinClk .out] ++
          s.bus.log }
      outs := s.outs + 3 }

theorem State.performAll_initDirections (s : State) : s.performAll initDirections = s.directed := rfl

/-- With bound pins and no open window the levels are driven and nothing is sent. -/
theorem State.performAll_initLevels {s : State} (hp : s.pinsBound) (hw : s.bus.win = none) :
    s.performAll initLevels = { s with bus := { s.bus with
      lvlClk := some true, lvlDio := some true, lvlStb := some true,
      log := [.setLevel .stb s.cfg.pinStb true, .setLevel .dio s.cfg.pinDio true, .setLevel .clk s.cfg.pinClk true] ++
        s.bus.log } } := by
  obtain ⟨hc, hd, hs⟩ := hp
  have hclocked : s.bus.clocked true = none := by
    unfold Bus.clocked
    split <;> simp [hw]
  simp [initLevels, State.perform, State.checked, State.meets, State.prim, Bus.pin, Bus.setLevel, State.chipAfter,
    hc, hd, hs, hw, hclocked]

theorem State.performAll_initRegisters (s : State) :
    s.performAll initRegisters = { s with
      bus := { s.bus with dioDir := .driving }, initDone := true, brightness := 0, isOn := false, resp := ⟨.ok, 0⟩ } := rfl

/-- Settles O15: the three parts one after another, and the gap after the first. -/
theorem initBindsAndDefaults : Obligations.InitBindsAndDefaults := by
  intro s hi hw
  have hactions := initActions_eq hi
  refine ⟨?_, fun hclk hstb => ⟨s.directed, ?_, ?_, rfl, ?_, hw, rfl, rfl⟩⟩
  · have hlevels := State.performAll_initLevels (s := s.directed) ⟨rfl, rfl, rfl⟩ hw
    show runOperation (initActions s) s = _
    rw [hactions, runOperation, State.performAll_append, State.performAll_initDirections, State.performAll_append,
      hlevels, State.performAll_initRegisters]
    rfl
  · rw [hactions]
    exact s.performAll_initDirections
  · show s.bus.lvlClk.or _ = _
    rw [hclk, Option.none_or]
    rfl
  · show s.bus.lvlStb.or _ = _
    rw [hstb, Option.none_or]
    rfl

end Sys2Proof.Machine
end

section
/-! PROOFS. O7 and O8: the fold of the button scanner (R240, R243). The laws follow from the bit formula of R240, which
gives every mask bit as an OR of scan bits, so the fold of an OR is the OR of the folds. -/

namespace Sys2Proof.Machine

/-! ### The bit formula (R240) -/

theorem getLsbD_foldStep (acc : BitVec 16) (b : Byte) (i j : Nat) :
    (foldStep acc b i).getLsbD j = (acc.getLsbD j || (decide (j < 16) && decide (i ≤ j) && b.getLsbD (j - i))) := by
  rw [foldStep, BitVec.getLsbD_or, BitVec.getLsbD_shiftLeft, BitVec.getLsbD_setWidth]
  by_cases hij : i ≤ j
  · by_cases hj : j < 16
    · simp [hij, hj, show ¬ j < i by omega, show j - i < 16 by omega]
    · simp [hj]
  · simp [hij, show j < i by omega]

theorem getLsbD_fold (s : Scan) {j : Nat} (hj : j < 8) :
    (fold s).getLsbD j = (s.b0.getLsbD j || (decide (1 ≤ j) && s.b1.getLsbD (j - 1)) ||
      (decide (2 ≤ j) && s.b2.getLsbD (j - 2)) || (decide (3 ≤ j) && s.b3.getLsbD (j - 3))) := by
  rw [fold, BitVec.getLsbD_setWidth, foldAcc]
  simp only [getLsbD_foldStep]
  simp [hj, show j < 16 by omega]

/-- Settles O7: one step of the fold puts the scan byte's bits on their diagonal, and truncation keeps the low 8. -/
theorem foldBitFormula : Obligations.FoldBitFormula :=
  fun s _ hj => getLsbD_fold s hj

/-! ### The laws (R243) -/

theorem fold_or (a b : Scan) :
    fold ⟨a.b0 ||| b.b0, a.b1 ||| b.b1, a.b2 ||| b.b2, a.b3 ||| b.b3⟩ = fold a ||| fold b := by
  refine BitVec.eq_of_getLsbD_eq fun j hj => ?_
  rw [BitVec.getLsbD_or]
  simp only [getLsbD_fold _ hj, BitVec.getLsbD_or, Bool.and_or_distrib_left]
  ac_rfl

theorem fold_b0_only (x : Byte) : fold ⟨x, 0, 0, 0⟩ = x := by
  refine BitVec.eq_of_getLsbD_eq fun j hj => ?_
  simp [getLsbD_fold _ hj]

theorem fold_b1_only (x : Byte) : fold ⟨0, x, 0, 0⟩ = x <<< 1 := by
  refine BitVec.eq_of_getLsbD_eq fun j hj => ?_
  rw [getLsbD_fold _ hj, BitVec.getLsbD_shiftLeft]
  by_cases h1 : 1 ≤ j
  · simp [hj, h1, show ¬ j < 1 by omega]
  · simp [h1, show j < 1 by omega]

/-- Each step keeps the accumulator within 11 bits: the widest term is a byte shifted by 3. -/
theorem foldStep_lt {acc : BitVec 16} (hacc : acc.toNat < 2 ^ 11) (b : Byte) {i : Nat} (hi : i ≤ 3) :
    (foldStep acc b i).toNat < 2 ^ 11 := by
  have hterm : (b.zeroExtend 16 <<< i).toNat < 2 ^ 11 := by
    rw [BitVec.toNat_shiftLeft, BitVec.toNat_setWidth_of_le (by decide), Nat.shiftLeft_eq]
    calc b.toNat * 2 ^ i % 2 ^ 16 ≤ b.toNat * 2 ^ i := Nat.mod_le ..
      _ < 2 ^ 8 * 2 ^ 3 := Nat.mul_lt_mul_of_lt_of_le b.isLt (Nat.pow_le_pow_right (by decide) hi) (by decide)
      _ = 2 ^ 11 := rfl
  rw [foldStep, BitVec.toNat_or]
  exact Nat.or_lt_two_pow hacc hterm

theorem foldAcc_lt (s : Scan) : (foldAcc s).toNat < 2 ^ 11 := by
  have h0 := foldStep_lt (acc := 0) (by decide) s.b0 (i := 0) (by decide)
  have h1 := foldStep_lt h0 s.b1 (i := 1) (by decide)
  have h2 := foldStep_lt h1 s.b2 (i := 2) (by decide)
  exact foldStep_lt h2 s.b3 (by decide)

/-- Settles O8: the fold is monotone because it is OR-homomorphic. -/
theorem foldLaws : Obligations.FoldLaws := by
  refine ⟨fold_or, fun a b h0 h1 h2 h3 => ?_, fold_b0_only, fold_b1_only, rfl, rfl, rfl, rfl,
    fun s => Nat.le_of_lt_succ (foldAcc_lt s)⟩
  rw [← fold_or, h0, h1, h2, h3]

end Sys2Proof.Machine
end

section
/-! PROOFS. O30 and O31: the key operations (R241, R242). Both are `read_scan`, the fold and the completion, and differ
in the byte they answer; the state this leaves is named once, over that byte. -/

namespace Sys2Proof.Machine

/-! ### The scan, the fold and the answer -/

/-- The state after a key operation that answers `data`: `read_scan` and the fold are done (R240, R164). -/
def State.keysRead (s : State) (data : Byte) : State :=
  { s.scanned with
      mask := fold (drawnScan s.draws)
      seq := s.seq.advance (210 + 2 * setupActions s.cfg)
      resp := ⟨.ok, data⟩ }

/-- The fold takes no wire action, so the windows are those of `read_scan`, and the answer reads the new MASK. -/
theorem State.Between.runsScan {s : State} (h : s.Between) (r : Result) :
    runOperation (readScan s.cfg ++ [.foldMask, .complete r]) s =
      .next (s.keysRead (({ s with mask := fold (drawnScan s.draws) } : State).result r)) := by
  have hlength : (readScan s.cfg ++ [Action.foldMask, .complete r]).length = 210 + 2 * setupActions s.cfg := by
    simp only [List.length_append, length_readScan, List.length_cons, List.length_nil]
    omega
  rw [runOperation, hlength, State.performAll_append, State.performAll_readScan h]
  cases r <;> rfl

theorem exec_getButtons {s : State} (h : s.Between) (hi : s.initDone = true) :
    exec .getButtons s = .next (s.keysRead (fold (drawnScan s.draws))) := by
  show runOperation (getButtonsActions s) s = _
  rw [getButtonsActions, requireInit_of_initDone hi, h.runsScan]
  rfl

theorem exec_getButton {s : State} (h : s.Between) (hi : s.initDone = true) {k : Byte} (hk : k.toNat ≤ 7) :
    exec (.getButton k) s = .next (s.keysRead (maskBit (fold (drawnScan s.draws)) k.toNat)) := by
  have hrange : keyInRange k = true := decide_eq_true hk
  show runOperation (getButtonActions k s) s = _
  rw [getButtonActions, requireInit_of_initDone hi, requireRange_of_inRange hrange, h.runsScan]
  rfl

/-! ### What a key operation changes -/

/-- Off the bus and the chip a key operation changes SCAN, MASK, SEQ, the draw counters and the response; the chip is in
READ mode (R62, R241). -/
theorem State.keysRead_eq {s : State} (hu : s.chip.undefined = false) (data : Byte) :
    s.keysRead data = { s with
      bus := (s.keysRead data).bus, chip := { s.chip with mode := some .read }, scan := drawnScan s.draws,
      mask := fold (drawnScan s.draws), seq := s.seq.advance (210 + 2 * setupActions s.cfg), outs := s.outs + 1,
      resp := ⟨.ok, data⟩, draws := s.draws + 32 } := by
  rw [← State.scanned_chip hu]
  rfl

/-- Settles O30: the answer is MASK, the fold of the 32 draws. -/
theorem getButtonsAnswersFold : Obligations.GetButtonsAnswersFold := by
  intro s h hi
  obtain ⟨-, hu⟩ := h.unmarked
  exact ⟨_, _, rfl, exec_getButtons h.toBetween hi, State.keysRead_eq hu _, h.toBetween.scanned_bus,
    s.scanned_wireTrace⟩

/-- Settles O31: the same scan, and the answer is bit `k` of MASK. -/
theorem getButtonAnswersOneBit : Obligations.GetButtonAnswersOneBit := by
  intro s k h hi hk
  obtain ⟨-, hu⟩ := h.unmarked
  exact ⟨_, _, rfl, exec_getButton h.toBetween hi hk, State.keysRead_eq hu _, h.toBetween.scanned_bus,
    s.scanned_wireTrace⟩

end Sys2Proof.Machine
end

section
/-! PROOFS. O41, O45 and O42: the turns of the callers and the guard's grant (R261, R262, R265). A turn moves where the
agent has such a step, and is a fault where it has none. -/

namespace Sys2Proof.Machine

/-! ### No such step (log entry 26) -/

theorem issue_of_not_idle {s : State} {c : Nat} (req : ReqWord) (h : s.ports[c]? ≠ some .idle) :
    issue c req s = .fault (.issueNotEnabled c) := by
  unfold issue
  split
  case h_1 hport => exact absurd hport h
  case h_2 => rfl

theorem collect_of_not_done {s : State} {c : Nat} (h : ∀ r : Response, s.ports[c]? ≠ some (.done r)) :
    collect c s = .fault (.collectNotEnabled c) := by
  unfold collect
  split
  case h_1 r hport => exact absurd hport (h r)
  case h_2 => rfl

/-- The lock may be granted only where it is free, `SEQ` idle and the port waiting. -/
theorem State.grantable_eq_none {s : State} {c : Nat}
    (h : s.lockOwner ≠ none ∨ s.seq ≠ .idle ∨ ∀ req : ReqWord, s.ports[c]? ≠ some (.waiting req)) :
    s.grantable c = none := by
  refine Option.eq_none_iff_forall_ne_some.mpr fun req hgrant => ?_
  obtain ⟨hlock, hseq, hport⟩ := State.grantable_eq_some hgrant
  obtain h | h | h := h
  · exact h hlock
  · exact h hseq
  · exact h req hport

theorem acquire_of_not_grantable {s : State} {c : Nat} (h : s.grantable c = none) :
    acquire c s = .fault (.acquireNotEnabled c) := by simp only [acquire, h]

theorem acquire_of_grantable {s : State} {c : Nat} {req : ReqWord} (h : s.grantable c = some req) :
    acquire c s = .next (s.accepted c req) := by simp only [acquire, h]

/-! ### The turns -/

/-- Settles O41: the turn leaves the list, and the port decides whether there is an issue. -/
theorem issueMovesIdlePortToWaiting : Obligations.IssueMovesIdlePortToWaiting := by
  intro s c req ts hturn
  rw [step_of_turn hturn]
  exact ⟨fun hport => issue_of_idle hport, fun hport => issue_of_not_idle req hport⟩

/-- Settles O45: the port decides whether there is a collection. -/
theorem collectFreesDonePort : Obligations.CollectFreesDonePort := by
  intro s c ts hturn
  rw [step_of_turn hturn]
  exact ⟨fun r hport => collect_of_done hport, fun hport => collect_of_not_done hport⟩

/-- Settles O42: the list is the one of the state now, since it reads no turns. -/
theorem acquireTakesFreeLock : Obligations.AcquireTakesFreeLock := by
  intro s c ts hturn
  rw [step_of_turn hturn]
  refine ⟨fun req hlock hseq hport => ?_, fun h => acquire_of_not_grantable (State.grantable_eq_none h)⟩
  have hgrant := State.grantable_of_waiting (s := { s with turns := ts }) hlock hseq hport
  exact (acquire_of_grantable hgrant).trans (congrArg Host.Outcome.next (State.accepted_withTurns s c req ts))

end Sys2Proof.Machine
end

section
/-! PROOFS. O46: a step runs the decoded instruction (R262 to R264, R267). -/

namespace Sys2Proof.Machine

theorem serve_of_decoded {s : State} {c : Nat} {req : ReqWord} {i : Instr} (hgrant : s.grantable c = some req)
    (hdecode : decodeRequest req = .ok i) : serve c s = releaseAfter c (exec i (s.accepted c req)) := by
  simp only [serve, hgrant, runRequest, hdecode]

theorem putOnWire_of_decoded {s : State} {pos : WirePos} {b : Byte} {i : Instr}
    (hdecode : decodeWire s.cfg pos b = .ok i) : putOnWire pos b s = exec i s := by
  simp only [putOnWire, hdecode]

/-- Settles O46: a request is served on the accepted state; a byte meets the mark where the sequencer runs. -/
theorem stepRunsDecodedInstruction : Obligations.StepRunsDecodedInstruction := by
  constructor
  · intro s c req i ts hturn hlock hseq hport hdecode
    have hgrant := State.grantable_of_waiting (s := { s with turns := ts }) hlock hseq hport
    rw [step_of_turn hturn]
    refine (serve_of_decoded hgrant hdecode).trans ?_
    rw [State.accepted_withTurns]
    rfl
  · intro s pos b i ts hturn hdecode
    rw [step_of_turn hturn, takeTurn]
    constructor
    · intro hseq
      rw [State.intruded_idle (s := { s with turns := ts }) hseq]
      exact putOnWire_of_decoded hdecode
    · intro hseq
      rw [State.intruded_running (s := { s with turns := ts }) hseq]
      exact putOnWire_of_decoded hdecode

end Sys2Proof.Machine
end

section
/-! PROOFS. O44: execute and release (R263, R264), and the response word (R29, R104, R291). -/

namespace Sys2Proof.Machine

/-! ### The sequencer's steps -/

/-- An action reads and changes no turn. -/
theorem State.perform_withTurns (s : State) (ts : List Turn) (a : Action) :
    ({ s with turns := ts } : State).perform a = { s.perform a with turns := ts } := by
  obtain ⟨-, -, hseq, hports, -, hchoices⟩ := State.perform_keeps s a
  refine (State.perform_withControl s s.seq s.ports ts s.choices a).trans ?_
  simp only [State.withControl, hseq, hports, hchoices]

theorem blockStep_of_action {s : State} {c k : Nat} {req : ReqWord} {a : Action} {rest : List Action}
    (h : s.seq = .run c req k (a :: rest)) : blockStep s = .next (s.executed c req k a rest) := by
  simp only [blockStep, h]

theorem blockStep_of_listEnd {s : State} {c k : Nat} {req : ReqWord} (h : s.seq = .run c req k []) :
    blockStep s = .next (s.released c) := by simp only [blockStep, h]

/-! ### The release check (R264, R309, log entry 10) -/

theorem State.releaseOk_iff {s : State} : s.releaseOk = true ↔
    s.bus.dioDir = .driving ∧ (s.bus.lvlStb = some true ∨ (s.initDone = false ∧ s.bus.lvlStb = none)) := by
  simp [State.releaseOk]

/-- The check fails where DIO does not drive, STB is low, or its level is not known to be high after `init`. -/
theorem State.releaseOk_eq_false {s : State} (h : s.bus.dioDir ≠ .driving ∨ s.bus.lvlStb = some false ∨
    (s.initDone = true ∧ s.bus.lvlStb ≠ some true)) : s.releaseOk = false := by
  refine Bool.eq_false_iff.mpr fun hok => ?_
  obtain ⟨hdriving, hlevel⟩ := State.releaseOk_iff.mp hok
  obtain h | h | ⟨hinit, h⟩ := h
  · exact h hdriving
  · simp [h] at hlevel
  · simp [hinit, h] at hlevel

theorem State.released_of_ok {s : State} (h : s.releaseOk = true) (c : Nat) :
    s.released c = { s with ports := s.ports.set c (.done s.resp), seq := .idle, lockOwner := none } := by
  simp only [State.released, h, if_true]

theorem State.released_of_not_ok {s : State} (h : s.releaseOk = false) (c : Nat) :
    s.released c = { s with ports := s.ports.set c (.done s.resp), seq := .idle, lockOwner := none,
                            bus := { s.bus with misuse := true } } := by
  simp only [State.released, h]
  rfl

/-! ### The response word (R104) -/

theorem Response.word_toNat (r : Response) : r.word.toNat = 256 * r.status.code.toNat + r.data.toNat := by
  have hdata : r.data.toNat < 2 ^ 8 := r.data.isLt
  rw [Response.word, BitVec.toNat_append, ← Nat.shiftLeft_add_eq_or_of_lt hdata, Nat.shiftLeft_eq]
  omega

theorem Response.word_fields (r : Response) :
    r.word.extractLsb' 8 8 = r.status.code ∧ r.word.extractLsb' 0 8 = r.data :=
  ⟨BitVec.extractLsb'_append_eq_left, BitVec.extractLsb'_append_eq_right⟩

/-- The words of the results without a data byte (R291). -/
theorem Response.word_of_zero_data :
    Response.word ⟨.ok, 0⟩ = 0x0000 ∧ Response.word ⟨.eRange, 0⟩ = 0x0100 ∧ Response.word ⟨.eIllegal, 0⟩ = 0x0200 ∧
    Response.word ⟨.eNoinit, 0⟩ = 0x0300 ∧ Response.word ⟨.eReinit, 0⟩ = 0x0400 := by decide

theorem Response.word_of_ok (data : Byte) : (Response.word ⟨.ok, data⟩).toNat = data.toNat := by
  simp [Response.word_toNat, Status.code]

/-- Settles O44: the block's turn on a running sequencer is an execute step or the release, and the words are those of
the recorded responses. -/
theorem executeThenRelease : Obligations.ExecuteThenRelease := by
  refine ⟨fun s c req k ts hturn => ?_, fun r => ⟨r.word_toNat, r.word_fields⟩, fun a s => ?_⟩
  · rw [step_of_turn hturn, takeTurn]
    refine ⟨fun a rest hseq => ?_, fun hseq hdriving hlevel => ?_, fun hseq hfails => ?_⟩
    · refine (blockStep_of_action (s := { s with turns := ts }) hseq).trans ?_
      rw [State.executed, State.perform_withTurns]
    · have hok : ({ s with turns := ts } : State).releaseOk = true := State.releaseOk_iff.mpr ⟨hdriving, hlevel⟩
      refine (blockStep_of_listEnd (s := { s with turns := ts }) hseq).trans ?_
      rw [State.released_of_ok hok]
    · have hok : ({ s with turns := ts } : State).releaseOk = false := State.releaseOk_eq_false hfails
      refine (blockStep_of_listEnd (s := { s with turns := ts }) hseq).trans ?_
      rw [State.released_of_not_ok hok]
  · obtain ⟨hzero, hrange, hillegal, hnoinit, hreinit⟩ := Response.word_of_zero_data
    refine ⟨?_, ?_, ?_, ?_, ?_, ?_⟩ <;> rintro rfl
    · exact hzero
    · exact hrange
    · exact hillegal
    · exact hnoinit
    · exact hreinit
    · exact Response.word_of_ok s.mask

end Sys2Proof.Machine
end

section
/-! PROOFS. O43: the guard grants a free lock to a waiter, some agent can always move, and no waiter is promised the lock
(R262, R269, U15, U16). The starving run is the round "caller 0 issues, is served, collects", for ever: `State.Starving`
holds where it starts and every step keeps it. -/

namespace Sys2Proof.Machine

/-! ### The grant (R262) -/

/-- With a free lock and somebody waiting the block's step is an acquisition by one of the waiters; only the counter of
choices may go on before it. -/
theorem blockStep_grants {s : State} (hlock : s.lockOwner = none) (hseq : s.seq = .idle) (hwait : s.waiters ≠ []) :
    ∃ c ∈ s.waiters, ∃ g : Nat, blockStep s = acquire c { s with choices := g } := by
  cases hw : s.waiters with
  | nil => exact absurd hw hwait
  | cons c rest =>
    cases rest with
    | nil =>
      have hblock : blockStep s = acquire c s := by simp only [blockStep, hseq, hlock, hw]
      exact ⟨c, List.mem_singleton_self c, s.choices, hblock⟩
    | cons d rest =>
      exact ⟨s.arbitrated c (d :: rest), s.arbitrated_mem c (d :: rest), s.choices + 1,
        by simp only [blockStep, hseq, hlock, hw]⟩

theorem step_grants_waiter {s : State} {ts : List Turn} (hturn : nextTurn s = (.block, ts)) (hlock : s.lockOwner = none)
    (hseq : s.seq = .idle) (hwait : ∃ (c : Nat) (req : ReqWord), s.ports[c]? = some (.waiting req)) :
    ∃ (c : Nat) (req : ReqWord) (g : Nat), s.ports[c]? = some (.waiting req) ∧
      step s = .next (({ s with turns := ts, choices := g } : State).accepted c req) := by
  obtain ⟨w, hw⟩ := hwait
  have hne : s.waiters ≠ [] := List.ne_nil_of_mem ((s.mem_waiters w).mpr hw)
  obtain ⟨c, hc, g, hblock⟩ := blockStep_grants (s := { s with turns := ts }) hlock hseq hne
  obtain ⟨req, hport⟩ := (s.mem_waiters c).mp hc
  refine ⟨c, req, g, hport, ?_⟩
  rw [step_of_turn hturn]
  exact hblock.trans (acquire_of_grantable (State.grantable_of_waiting hlock hseq hport))

/-! ### A property that goes on for ever -/

/-- Where a property of states gives a next state that has it again, the run never ends and the property lasts. -/
theorem run_of_progress {P : State → Prop} (hP : ∀ s, P s → ∃ t, step s = .next t ∧ P t) (n : Nat) {s : State} (h : P s) :
    ∃ t : State, Host.Core.run Sys2Proof.core n s = .next t ∧ P t := by
  induction n generalizing s with
  | zero => exact ⟨s, core_run_zero s, h⟩
  | succ n ih =>
    obtain ⟨u, hstep, hu⟩ := hP s h
    obtain ⟨t, hrun, ht⟩ := ih hu
    exact ⟨t, (core_run_next hstep).trans hrun, ht⟩

/-! ### The power-up state (R330) -/

/-- The invariant holds at power-up, whatever requests come later. -/
theorem State.powerUp_inv {cfg : Config} (hcfg : cfg.admitted = true) {later : List Turn}
    (hlater : later.all Turn.ofRequests = true) : ({ State.powerUp cfg with later := later } : State).Inv := by
  have hnone : ∀ (c : Nat) (req : ReqWord), (State.powerUp cfg).ports[c]? ≠ some (.active req) := by
    intro c req hc
    have hmem : Port.active req ∈ List.replicate cfg.nCallers Port.idle := List.mem_of_getElem? hc
    cases List.eq_of_mem_replicate hmem
  have hrest : ({ State.powerUp cfg with later := later } : State).AtRest :=
    ⟨⟨rfl, rfl⟩, rfl, rfl, rfl, nofun, fun _ => ⟨rfl, rfl⟩, .inl rfl⟩
  exact ⟨hcfg, List.length_replicate, rfl, hlater, (State.sequenced_idle rfl).mpr ⟨rfl, hnone, hrest⟩⟩

/-! ### What a service does to the control state (R262 to R264) -/

theorem State.released_ports (s : State) (c : Nat) : (s.released c).ports = s.ports.set c (.done s.resp) := by
  unfold State.released
  split <;> rfl

theorem State.released_turns (s : State) (c : Nat) : (s.released c).turns = s.turns := by
  unfold State.released
  split <;> rfl

theorem State.released_later (s : State) (c : Nat) : (s.released c).later = s.later := by
  unfold State.released
  split <;> rfl

/-- A service leaves the lock free, `SEQ` idle and a response at its caller's port; the other ports and the turns to come
stay. -/
theorem step_serve_control {s : State} {c : Nat} {req : ReqWord} (h : s.grantable c = some req) (ts : List Turn) :
    ∃ (t : State) (r : Response), step { s with turns := .serve c :: ts } = .next t ∧ t.lockOwner = none ∧ t.seq = .idle ∧
      t.ports = s.ports.set c (.done r) ∧ t.turns = ts ∧ t.later = s.later :=
  ⟨_, _, step_serve h ts, rfl, rfl, (State.released_ports _ c).trans (List.set_set _), State.released_turns _ c,
    (State.released_later _ c).trans (State.performAll_later _ _)⟩

/-! ### A caller that waits for ever (R269, U16) -/

/-- One round of caller 0. -/
def callerZeroRound (req : ReqWord) : List Turn := [.issue 0 req, .serve 0, .collect 0]

/-- The turns that are left of a round, with caller 0's port then. -/
inductive RoundPhase (req : ReqWord) : List Turn → Port → Prop where
  | toIssue : RoundPhase req [] .idle
  | toServe : RoundPhase req [.serve 0, .collect 0] (.waiting req)
  | toCollect (r : Response) : RoundPhase req [.collect 0] (.done r)

/-- Caller 1 waits with a request, the lock is free, and only the rounds of caller 0 are to come. -/
structure State.Starving (req : ReqWord) (s : State) : Prop where
  free : s.lockOwner = none
  idle : s.seq = .idle
  waits : s.ports[1]? = some (.waiting req)
  later : s.later = callerZeroRound req
  phase : ∃ p : Port, s.ports[0]? = some p ∧ RoundPhase req s.turns p

/-- A step that changes caller 0's port only, and leaves the round one turn further, keeps caller 1 waiting. -/
theorem State.Starving.advanced {req : ReqWord} {s t : State} (h : s.Starving req) {p q : Port}
    (hport : s.ports[0]? = some p) (hfree : t.lockOwner = none) (hidle : t.seq = .idle) (hports : t.ports = s.ports.set 0 q)
    (hlater : t.later = s.later) (hphase : RoundPhase req t.turns q) : t.Starving req := by
  refine ⟨hfree, hidle, ?_, hlater.trans h.later, q, ?_, hphase⟩
  · rw [hports, List.getElem?_set_ne (by decide), h.waits]
  · rw [hports, List.getElem?_set_self (List.getElem?_eq_some_iff.mp hport).1]

theorem State.Starving.stepped {req : ReqWord} {s : State} (h : s.Starving req) :
    ∃ t, step s = .next t ∧ t.Starving req := by
  obtain ⟨p, hport, hphase⟩ := h.phase
  generalize hts : s.turns = ts at hphase
  cases hphase with
  | toIssue =>
    have hturn : nextTurn s = (.issue 0 req, [.serve 0, .collect 0]) := by
      simp only [nextTurn, hts, h.later, callerZeroRound]
    rw [step_of_turn hturn]
    exact ⟨_, issue_of_idle hport, h.advanced hport h.free h.idle rfl rfl .toServe⟩
  | toServe =>
    have hgrant := State.grantable_of_waiting h.free h.idle hport
    have hs : step s = step { s with turns := [.serve 0, .collect 0] } := by rw [← hts]
    obtain ⟨t, r, hserve, hfree, hidle, hports, hturns, hlater⟩ := step_serve_control hgrant [.collect 0]
    exact ⟨t, hs.trans hserve, h.advanced hport hfree hidle hports hlater (hturns ▸ .toCollect r)⟩
  | toCollect r =>
    have hturn : nextTurn s = (.collect 0, []) := by simp only [nextTurn, hts]
    rw [step_of_turn hturn]
    exact ⟨_, collect_of_done hport, h.advanced hport h.free h.idle rfl rfl .toIssue⟩

/-- The block after power-up, where caller 1 has issued a request and the rounds of caller 0 are to come. -/
def starvingStart (cfg : Config) (req : ReqWord) : State :=
  ({ State.powerUp cfg with later := callerZeroRound req } : State).setPort 1 (.waiting req)

theorem State.powerUp_port {cfg : Config} {c : Nat} (h : c < cfg.nCallers) : (State.powerUp cfg).ports[c]? = some .idle :=
  List.getElem?_replicate_of_lt h

theorem starvingStart_inv {cfg : Config} (hcfg : cfg.admitted = true) (hn : 2 ≤ cfg.nCallers) (req : ReqWord) :
    (starvingStart cfg req).Inv :=
  (State.powerUp_inv hcfg (later := callerZeroRound req) rfl).setPort (State.powerUp_port hn) nofun nofun

theorem starvingStart_starving {cfg : Config} (hn : 2 ≤ cfg.nCallers) (req : ReqWord) :
    (starvingStart cfg req).Starving req := by
  have hzero := State.powerUp_port (cfg := cfg) (c := 0) (by omega)
  have hone := State.powerUp_port (cfg := cfg) (c := 1) hn
  refine ⟨rfl, rfl, ?_, rfl, .idle, ?_, .toIssue⟩
  · exact List.getElem?_set_self (List.getElem?_eq_some_iff.mp hone).1
  · exact (List.getElem?_set_ne (by decide)).trans hzero

/-- Settles O43: a waiter gets the lock, an agent can move, and the rounds of caller 0 starve caller 1. -/
theorem guardGrantsSomeWaiter : Obligations.GuardGrantsSomeWaiter := by
  refine ⟨fun s ts hturn hlock hseq hwait => ?_, fun s hturn => ?_, fun cfg req hcfg hn => ?_⟩
  · obtain ⟨c, req, g, hport, hstep⟩ := step_grants_waiter hturn hlock hseq hwait
    have haccepted := State.accepted_withTurns { s with choices := g } c req ts
    exact ⟨c, req, _, hport, hstep, haccepted⟩
  · rw [step, hturn]
    exact agentStep_answers _
  · refine ⟨starvingStart cfg req, rfl, starvingStart_inv hcfg hn req, (starvingStart_starving hn req).waits, fun n => ?_⟩
    obtain ⟨t, hrun, ht⟩ := run_of_progress (fun s h => h.stepped) n (starvingStart_starving hn req)
    exact ⟨t, hrun, ht.waits⟩

end Sys2Proof.Machine
end

section
/-! PROOFS. O52, O50 and O12: the fault marks (R309). Actions keep a mark, and so does whatever else a step does; under the
invariant neither is set; and a failed precondition sets TRANSPORT_MISUSE, which then lasts to the end of the list. -/

namespace Sys2Proof.Machine

/-! ### The marks are sticky -/

theorem State.misusedIf_misuse {s : State} (b : Bool) (h : s.bus.misuse = true) : (s.misusedIf b).bus.misuse = true := by
  cases b with
  | false => exact h
  | true => rfl

theorem State.Advanced.marks {s t : State} (ha : s.Advanced t) :
    (s.bus.misuse = true → t.bus.misuse = true) ∧ (s.chip.undefined = true → t.chip.undefined = true) := by
  obtain ⟨q, q', lo, lo', ps, ps', ts, ts', g, g', b, b', l, -, rfl⟩ := ha
  obtain ⟨keepMisuse, keepUndefined⟩ := State.performAll_marks ((s.controlled q lo ps ts g).misusedIf b) l
  refine ⟨fun h => State.misusedIf_misuse b' (keepMisuse (State.misusedIf_misuse b h)), fun h => ?_⟩
  rw [State.controlled_chip, State.misusedIf_chip]
  exact keepUndefined (by rwa [State.misusedIf_chip, State.controlled_chip])

/-- Settles O52: a step advances, which clears no mark, or loses power, which keeps both (log entry 11). -/
theorem marksAreSticky : Obligations.MarksAreSticky := by
  intro s s' hs
  obtain hadv | ⟨-, rfl⟩ := step_next hs
  · exact hadv.marks
  · exact ⟨id, id⟩

/-- Settles O50: the block is at rest when the operation ends, and a mark set before would last until then. -/
theorem requestsNeverMark : Obligations.RequestsNeverMark := fun _ h => h.unmarked

/-! ### A failed precondition (R130, R131, R160) -/

theorem State.meets_windowEntry_eq_false {s : State} (h : s.lockOwner = none ∨ s.bus.lvlStb ≠ some true) :
    s.meets .windowEntry = false := by
  obtain h | h := h <;> simp [State.meets, h]

theorem State.meets_shiftOut_eq_false {s : State}
    (h : s.lockOwner = none ∨ s.bus.dioDir ≠ .driving ∨ s.bus.lvlStb ≠ some false) : s.meets .shiftOut = false := by
  obtain h | h | h := h <;> simp [State.meets, h]

theorem State.meets_shiftIn_eq_false {s : State}
    (h : s.lockOwner = none ∨ s.bus.dioDir ≠ .listening ∨ s.bus.lvlStb ≠ some false) : s.meets .shiftIn = false := by
  obtain h | h | h := h <;> simp [State.meets, h]

/-- A list whose first action fails its precondition ends with the mark set (log entries 12, 13). -/
theorem State.performAll_misuse_of_not_meets {s : State} {chk : Check} (h : s.meets chk = false) (p : Prim)
    (l : List Action) : (s.performAll (.wire chk p :: l)).bus.misuse = true := by
  have hmark : (s.checked chk).bus.misuse = true := by simp [State.checked, h]
  exact (State.performAll_marks _ l).1 ((State.prim_marks _ p).1 hmark)

/-! ### A byte from outside a running operation (R267, log entry 29) -/

/-- The byte's actions clear no mark. -/
theorem putOnWire_keeps_misuse {s : State} (h : s.bus.misuse = true) (pos : WirePos) (b : Byte) :
    ∃ t, putOnWire pos b s = .next t ∧ t.bus.misuse = true := by
  cases hd : decodeWire s.cfg pos b with
  | ok i =>
    obtain ⟨l, q, -, hexec⟩ := exec_performs i s
    exact ⟨_, (putOnWire_of_decoded hd).trans hexec, (State.performAll_marks s l).1 h⟩
  | error e => exact ⟨s.sentReserved b, by simp only [putOnWire, hd], (State.performAll_marks s _).1 h⟩

theorem step_marks_intruder {s : State} {pos : WirePos} {b : Byte}
    (hturn : (nextTurn s).1 = .wire pos b ∨ (nextTurn s).1 = .strobe) (hseq : s.seq ≠ .idle) :
    ∃ t, step s = .next t ∧ t.bus.misuse = true := by
  have hmark : ({ s with turns := (nextTurn s).2 } : State).intruded.bus.misuse = true := by
    rw [State.intruded_running (s := { s with turns := (nextTurn s).2 }) hseq]
    rfl
  unfold step
  obtain hturn | hturn := hturn <;> rw [hturn]
  · exact putOnWire_keeps_misuse hmark pos b
  · exact ⟨_, rfl, (State.performAll_marks _ _).1 hmark⟩

/-- Settles O12: the first action of a window or of a byte carries the check, and an intruder meets the mark. -/
theorem brokenPreconditionsMark : Obligations.BrokenPreconditionsMark := by
  refine fun s => ⟨fun bytes h => ?_, fun order b h => ?_, fun order byte h => ?_, fun pos b => step_marks_intruder⟩
  · exact State.performAll_misuse_of_not_meets (State.meets_windowEntry_eq_false h) _ _
  · exact State.performAll_misuse_of_not_meets (State.meets_shiftOut_eq_false h) _ _
  · exact State.performAll_misuse_of_not_meets (State.meets_shiftIn_eq_false h) _ _

end Sys2Proof.Machine
end

section
/-! PROOFS. O16, O17, O18 and O19: refusals (R292 to R297). Where a check fails the operation's list is the one action
`raise`, which records the status and nothing else. -/

namespace Sys2Proof.Machine

/-! ### The one-action list (R297) -/

theorem runOperation_raise (s : State) (status : Status) :
    runOperation [.raise status] s = .next (refusedWith s status) := rfl

/-! ### Initialisation (R294, R295) -/

theorem initActions_of_initDone {s : State} (hi : s.initDone = true) : initActions s = [.raise .eReinit] := if_pos hi

theorem requireInit_of_not_initDone {s : State} (hi : s.initDone = false) (l : List Action) :
    requireInit s l = [.raise .eNoinit] := if_neg (Bool.eq_false_iff.mp hi)

/-- Each operation that a word selects, `init` apart, asks for `init` first. -/
theorem requestProgram_of_not_initDone {s : State} (hi : s.initDone = false) {w : ReqWord} {i : Instr}
    (hw : decodeRequest w = .ok i) (hne : i ≠ .init) : requestProgram i s = [.raise .eNoinit] := by
  unfold decodeRequest at hw
  split at hw <;> cases hw
  case h_1 => exact absurd rfl hne
  all_goals exact requireInit_of_not_initDone hi _

/-- Settles O16: after `init` its list is the refusal. -/
theorem secondInitRefused : Obligations.SecondInitRefused := by
  intro s hi
  show runOperation (initActions s) s = _
  rw [initActions_of_initDone hi, runOperation_raise]

/-- Settles O17: before `init` the list of every other operation is the refusal. -/
theorem beforeInitRefused : Obligations.BeforeInitRefused := by
  intro s i w hi hw hne
  rw [exec_request i s ⟨w, hw⟩, requestProgram_of_not_initDone hi hw hne, runOperation_raise]

/-! ### Operands out of range (R292) -/

theorem digitInRange_eq_false {d : Byte} (h : 7 < d.toNat) : digitInRange d = false := decide_eq_false (by omega)

theorem hexInRange_eq_false {x : Byte} (h : 15 < x.toNat) : hexInRange x = false := decide_eq_false (by omega)

theorem ledInRange_eq_false {n : Byte} (h : n.toNat < 1 ∨ 8 < n.toNat) : ledInRange n = false := by
  simp only [ledInRange, Bool.and_eq_false_iff, decide_eq_false_iff_not]
  omega

theorem levelInRange_eq_false {l : Byte} (h : 7 < l.toNat) : levelInRange l = false := decide_eq_false (by omega)

theorem keyInRange_eq_false {k : Byte} (h : 7 < k.toNat) : keyInRange k = false := decide_eq_false (by omega)

theorem requireRange_of_outOfRange {inRange : Bool} (h : inRange = false) (l : List Action) :
    requireRange inRange l = [.raise .eRange] := if_neg (Bool.eq_false_iff.mp h)

theorem runOperation_outOfRange {s : State} (hi : s.initDone = true) {inRange : Bool} (h : inRange = false)
    (l : List Action) : runOperation (requireInit s (requireRange inRange l)) s = .next (refusedWith s .eRange) := by
  rw [requireInit_of_initDone hi, requireRange_of_outOfRange h, runOperation_raise]

/-- Settles O18: each operation's operand check fails, before any wire action. -/
theorem outOfRangeRefused : Obligations.OutOfRangeRefused := by
  refine fun s hi => ⟨fun d x h => ?_, fun d v h => ?_, fun n st h => ?_, fun l h => ?_, fun k h => ?_⟩
  · have hrange : (digitInRange d && hexInRange x) = false :=
      Bool.and_eq_false_iff.mpr (h.imp digitInRange_eq_false hexInRange_eq_false)
    exact runOperation_outOfRange hi hrange _
  · exact runOperation_outOfRange hi (digitInRange_eq_false h) _
  · exact runOperation_outOfRange hi (ledInRange_eq_false h) _
  · exact runOperation_outOfRange hi (levelInRange_eq_false h) _
  · exact runOperation_outOfRange hi (keyInRange_eq_false h) _

/-! ### An unknown `OP` (R293) -/

theorem requestActions_illegal {op : Byte} (h : op = 0 ∨ 0x0E ≤ op.toNat) (a b : Byte) (s : State) :
    requestActions (requestWord op a b) s = illegalActions := by
  simp only [requestActions, decodeRequest_illegal h]

/-- Settles O19: the service performs the one action `raise`, and the release check holds as the action finds it. -/
theorem illegalOpRefused : Obligations.IllegalOpRefused := by
  intro s c op a b hop hlock hseq hport hdriving hlevel
  rw [step_serve (State.grantable_of_waiting hlock hseq hport), requestActions_illegal hop]
  refine congrArg Host.Outcome.next ((State.released_of_ok ?_ c).trans ?_)
  · exact State.releaseOk_iff.mpr ⟨hdriving, hlevel⟩
  · simp only [State.withControl, List.set_set, ← hseq, ← hlock]
    rfl

end Sys2Proof.Machine
end

section
/-! PROOFS. O49 and O59: the power-up state, reset and power loss (R330, R37, R308). -/

namespace Sys2Proof.Machine

theorem Config.default_admitted : Config.default.admitted = true := by decide

/-- Settles O49: power-up meets the invariant with no turn to come, and reset is power-up with the default parameters. -/
theorem powerUpMeetsBlockInvariant : Obligations.PowerUpMeetsBlockInvariant :=
  ⟨fun _ hcfg => State.powerUp_inv hcfg (later := []) rfl, State.powerUp_inv Config.default_admitted (later := []) rfl⟩

/-- Settles O59: the values are those of `State.powerUp`, and the turn of a power loss leaves `State.powerLost`. -/
theorem powerUpAndPowerLoss : Obligations.PowerUpAndPowerLoss := by
  constructor
  · rintro cfg s rfl
    exact ⟨rfl, rfl, rfl, rfl, rfl, rfl, rfl, rfl, rfl, rfl, fun _ => rfl, rfl, rfl, rfl, rfl⟩
  · intro s ts hturn
    exact ⟨_, step_of_turn hturn, rfl⟩

end Sys2Proof.Machine
end

section
/-! PROOFS. O57: the rising edges of CLK in a window (R340). Every bit of a window is one pulse of CLK, and a pulse leaves CLK
low, so only the first bit of a window can lack its rising edge. -/

namespace Sys2Proof.Machine

/-! ### The wire trace after windows -/

theorem State.sent_wireTrace (s : State) (bytes : List Byte) :
    (s.sent bytes).wireTrace = s.wireTrace ++ outWindowEvents s.cfg bytes := by
  simp [State.sent, State.wireTrace]

/-! ### Rising edges, event list by event list -/

/-- A bit driven and pulsed: an edge where CLK was low, and CLK low after it (R130). -/
theorem risingEdges_bit (lvl : Option Bool) (cfg : Config) (b : Bool) (rest : List Event) :
    risingEdges lvl (.setLevel .dio cfg.pinDio b :: (pulseEvents cfg ++ rest)) =
      (if lvl = some false then 1 else 0) + risingEdges (some false) rest := rfl

theorem risingEdges_byteOutEvents (lvl : Option Bool) (cfg : Config) (b : Byte) (rest : List Event) :
    risingEdges lvl (byteOutEvents cfg b ++ rest) =
      (if lvl = some false then 1 else 0) + 7 + risingEdges (some false) rest := by
  simp only [byteOutEvents, List.range, List.range.loop, List.flatMap_cons, List.flatMap_nil, List.cons_append,
    List.append_assoc, List.nil_append, risingEdges_bit, if_true]
  omega

/-- From CLK low every bit of the bytes has its edge. -/
theorem risingEdges_bytes_of_low (cfg : Config) (bytes : List Byte) (rest : List Event) :
    risingEdges (some false) (bytes.flatMap (byteOutEvents cfg) ++ rest) =
      8 * bytes.length + risingEdges (some false) rest := by
  induction bytes with
  | nil => simp
  | cons b bytes ih =>
    rw [List.flatMap_cons, List.append_assoc, risingEdges_byteOutEvents, ih, if_pos rfl, List.length_cons]
    omega

/-- STB and the setup delay move no clock. -/
theorem risingEdges_openEvents (lvl : Option Bool) (cfg : Config) (rest : List Event) :
    risingEdges lvl (openEvents cfg ++ rest) = risingEdges lvl rest := by
  unfold openEvents
  split <;> rfl

/-- All bits of a window but the first find CLK low. -/
theorem risingEdges_outWindowEvents (lvl : Option Bool) (cfg : Config) (b : Byte) (bytes : List Byte) :
    risingEdges lvl (outWindowEvents cfg (b :: bytes)) =
      (if lvl = some false then 1 else 0) + 7 + 8 * bytes.length := by
  have hclose : risingEdges (some false) (closeEvents cfg) = 0 := rfl
  rw [outWindowEvents, List.append_assoc, risingEdges_openEvents, List.flatMap_cons, List.append_assoc,
    risingEdges_byteOutEvents, risingEdges_bytes_of_low, hclose, Nat.add_zero (8 * bytes.length)]

/-- Settles O57: `init` drives CLK high, so the first bit after it has no edge; a window leaves CLK low. -/
theorem firstPulseAfterInitHasNoEdge : Obligations.FirstPulseAfterInitHasNoEdge := by
  constructor
  · intro s hi hw
    obtain ⟨hinit, -⟩ := initBindsAndDefaults s hi hw
    exact ⟨_, hinit, rfl⟩
  · intro s bytes h hne
    obtain ⟨b, bytes, rfl⟩ := List.exists_cons_of_ne_nil hne
    refine ⟨s.sent (b :: bytes), _, State.performAll_outWindow h _, s.sent_wireTrace _, rfl, fun hclk => ?_, fun hclk => ?_⟩
    · rw [hclk, risingEdges_outWindowEvents, if_neg (by decide), List.length_cons]
      omega
    · rw [hclk, risingEdges_outWindowEvents, if_pos rfl, List.length_cons]
      omega

end Sys2Proof.Machine
end

section
/-! PROOFS. O58: the least times of the event lists (R135, R344). The time of a trace is the sum of its delays, so each list of
the transport has its time, a window's adds up from its bytes', and an operation's from its windows'. -/

namespace Sys2Proof.Machine

/-! ### The time of each event list -/

theorem minMicros_append (l r : List Event) : minMicros (l ++ r) = minMicros l + minMicros r := by
  induction l with
  | nil => exact (Nat.zero_add _).symm
  | cons e l ih => cases e <;> simp [minMicros, ih, Nat.add_assoc]

/-- Lists that take the same time each. -/
theorem minMicros_flatMap {α : Type} {f : α → List Event} {time : Nat} (hf : ∀ x, minMicros (f x) = time) (l : List α) :
    minMicros (l.flatMap f) = l.length * time := by
  induction l with
  | nil => exact (Nat.zero_mul _).symm
  | cons x l ih => rw [List.flatMap_cons, minMicros_append, hf, ih, List.length_cons, Nat.succ_mul, Nat.add_comm]

theorem minMicros_pulseEvents (cfg : Config) : minMicros (pulseEvents cfg) = cfg.tHigh + cfg.tLow := rfl

theorem minMicros_byteOutEvents (cfg : Config) (b : Byte) :
    minMicros (byteOutEvents cfg b) = 8 * (cfg.tHigh + cfg.tLow) :=
  minMicros_flatMap (fun _ => minMicros_pulseEvents cfg) (List.range 8)

theorem minMicros_byteInEvents (cfg : Config) (b : Byte) :
    minMicros (byteInEvents cfg b) = 8 * (cfg.tHigh + cfg.tLow) :=
  minMicros_flatMap (fun _ => minMicros_pulseEvents cfg) (List.range 8)

/-- No delay event where the setup delay is 0 (D15). -/
theorem minMicros_openEvents (cfg : Config) : minMicros (openEvents cfg) = cfg.tStbSetup := by
  unfold openEvents
  split
  · rfl
  · simp only [minMicros]
    omega

theorem minMicros_closeEvents (cfg : Config) : minMicros (closeEvents cfg) = cfg.tSettle := rfl

theorem minMicros_outWindowEvents (cfg : Config) (bytes : List Byte) :
    minMicros (outWindowEvents cfg bytes) =
      cfg.tStbSetup + 8 * bytes.length * (cfg.tHigh + cfg.tLow) + cfg.tSettle := by
  rw [outWindowEvents, minMicros_append, minMicros_append, minMicros_openEvents,
    minMicros_flatMap (minMicros_byteOutEvents cfg), minMicros_closeEvents, Nat.mul_left_comm, Nat.mul_assoc]

/-- The turns of DIO take no time, so a read window takes what a window out of as many bytes takes (R164). -/
theorem minMicros_readWindowEvents (cfg : Config) (bytes : List Byte) :
    minMicros (readWindowEvents cfg bytes) =
      cfg.tStbSetup + 8 * bytes.length * (cfg.tHigh + cfg.tLow) + cfg.tSettle := by
  simp only [readWindowEvents, minMicros_append, minMicros]
  rw [minMicros_openEvents, minMicros_flatMap (minMicros_byteInEvents cfg), minMicros_closeEvents, Nat.mul_left_comm,
    Nat.mul_assoc]

/-- An admitted clock period takes 2 µs (R9, R337). -/
theorem Config.two_le_period {cfg : Config} (h : cfg.admitted = true) : 2 ≤ cfg.tHigh + cfg.tLow := by
  simp only [Config.admitted, Config.timesOk, Bool.and_eq_true, decide_eq_true_eq] at h
  omega

/-- With 2 µs for each bit a window takes at least 16 µs for each of its `n` bytes. -/
theorem Config.le_windowTime {cfg : Config} (h : cfg.admitted = true) (n : Nat) :
    16 * n + cfg.tSettle ≤ cfg.tStbSetup + 8 * n * (cfg.tHigh + cfg.tLow) + cfg.tSettle := by
  have hbits := Nat.mul_le_mul_left (8 * n) (Config.two_le_period h)
  omega

/-! ### The sequences of the table -/

theorem State.sentAll_wireTrace (s : State) (ws : List (List Byte)) :
    (s.sentAll ws).wireTrace = s.wireTrace ++ ws.flatMap (outWindowEvents s.cfg) := by
  induction ws generalizing s with
  | nil => exact (List.append_nil _).symm
  | cons w ws ih =>
    refine (ih (s.sent w)).trans ?_
    rw [s.sent_wireTrace, List.append_assoc]
    rfl

/-- Windows out take at least 16 µs for each of their bytes and a settle delay each. -/
theorem le_minMicros_windows {cfg : Config} (h : cfg.admitted = true) (ws : List (List Byte)) :
    16 * (ws.map List.length).sum + ws.length * cfg.tSettle ≤ minMicros (ws.flatMap (outWindowEvents cfg)) := by
  induction ws with
  | nil => simp
  | cons w ws ih =>
    have hw := Config.le_windowTime h w.length
    rw [List.flatMap_cons, minMicros_append, minMicros_outWindowEvents, List.map_cons, List.sum_cons, List.length_cons,
      Nat.succ_mul ws.length]
    omega

/-- `read_scan` is a window of one byte out and one of four bytes in (R164). -/
theorem le_minMicros_readScan {cfg : Config} (h : cfg.admitted = true) (b b0 b1 b2 b3 : Byte) :
    80 + 2 * cfg.tSettle ≤ minMicros (outWindowEvents cfg [b] ++ readWindowEvents cfg [b0, b1, b2, b3]) := by
  have hout : 16 * 1 + cfg.tSettle ≤ minMicros (outWindowEvents cfg [b]) := by
    rw [minMicros_outWindowEvents]
    exact Config.le_windowTime h 1
  have hin : 16 * 4 + cfg.tSettle ≤ minMicros (readWindowEvents cfg [b0, b1, b2, b3]) := by
    rw [minMicros_readWindowEvents]
    exact Config.le_windowTime h 4
  rw [minMicros_append]
  omega

/-- Settles O58: a byte and a window take the time of their events, and the three sequences send 4, 19 and 5 bytes. -/
theorem timingLowerBounds : Obligations.TimingLowerBounds := by
  refine ⟨fun s bits b h hcfg => ?_, fun s h => ⟨fun bytes => ?_, fun p v => ?_, fun hi => ⟨?_, ?_⟩⟩⟩
  · have hperiod := Config.two_le_period hcfg
    have htime := minMicros_byteOutEvents s.cfg b
    refine ⟨_, (congrArg _ (State.performAll_shiftOut h b)).trans (s.byteSent_wireTrace b), htime, ?_⟩
    omega
  · exact ⟨_, (congrArg _ (State.performAll_outWindow h.toBetween bytes)).trans (s.sent_wireTrace bytes),
      minMicros_outWindowEvents s.cfg bytes⟩
  · have hrun := State.performAll_outWindows h.toBetween (singleWindows s.cfg s.isOn s.brightness p v)
    rw [← writeSingle_eq] at hrun
    exact ⟨_, (congrArg _ hrun).trans (s.sentAll_wireTrace _),
      le_minMicros_windows h.admitted (singleWindows s.cfg s.isOn s.brightness p v)⟩
  · obtain ⟨t, hreset, -, hsent, -⟩ := resetClearsAllRegisters s h hi
    have htime := le_minMicros_windows h.admitted
      [[dcByte s.isOn s.brightness], [0x40], s.cfg.addrBase :: List.replicate 16 0x00]
    exact ⟨t, _, hreset, hsent.events, htime⟩
  · obtain ⟨t, x, -, hscan, -, -, htrace⟩ := getButtonsAnswersFold s h hi
    rw [List.append_assoc] at htrace
    exact ⟨t, _, hscan, htrace, le_minMicros_readScan h.admitted _ _ _ _ _⟩

end Sys2Proof.Machine
end

section
/-! PROOFS. O60: `init` and then `reset` from power-up (R332, R333). A request issued and served is one lemma, over the outcome
of its instruction; the state between the two requests is named once, and what each instruction does is its own statement's. -/

namespace Sys2Proof.Machine

/-! ### A request, issued and served (R261 to R264) -/

/-- An acquisition does not see what its port held before, since it sets the port. -/
theorem State.setPort_accepted (s : State) (c : Nat) (p : Port) (req : ReqWord) :
    (s.setPort c p).accepted c req = s.accepted c req := by
  have hlist : requestActions req (s.setPort c p) = requestActions req s :=
    requestActions_controlled req s s.seq s.lockOwner (s.ports.set c p) s.turns s.choices
  have hports : (s.ports.set c p).set c (.active req) = s.ports.set c (.active req) := List.set_set _
  rw [State.accepted, hlist, State.setPort, hports, State.accepted]

/-- With an idle port and a free lock two turns issue a request and run its instruction; where the release check holds, the
response is at the port then. -/
theorem run_issue_serve {s t : State} {c : Nat} {req : ReqWord} {i : Instr} (hport : s.ports[c]? = some .idle)
    (hlock : s.lockOwner = none) (hseq : s.seq = .idle) (hdecode : decodeRequest req = .ok i)
    (hexec : exec i (s.accepted c req) = .next t) (hok : t.releaseOk = true) (n : Nat) :
    Host.Core.run Sys2Proof.core (n + 2) { s with turns := .issue c req :: .serve c :: s.turns } =
      Host.Core.run Sys2Proof.core n
        { t with ports := t.ports.set c (.done t.resp), seq := .idle, lockOwner := none } := by
  have hissue : step { s with turns := .issue c req :: .serve c :: s.turns } =
      .next { s.setPort c (.waiting req) with turns := .serve c :: s.turns } :=
    issue_of_idle (s := { s with turns := .serve c :: s.turns }) hport
  have hwaiting : (s.setPort c (.waiting req)).ports[c]? = some (.waiting req) :=
    List.getElem?_set_self (List.getElem?_eq_some_iff.mp hport).1
  have hserve : step { s.setPort c (.waiting req) with turns := .serve c :: s.turns } =
      .next { t with ports := t.ports.set c (.done t.resp), seq := .idle, lockOwner := none } := by
    have hgrant := State.grantable_of_waiting (s := s.setPort c (.waiting req)) hlock hseq hwaiting
    refine (serve_of_decoded hgrant hdecode).trans ?_
    rw [State.setPort_accepted, hexec, releaseAfter, State.released_of_ok hok]
  rw [core_run_next hissue, core_run_next hserve]

/-! ### After `init` (R332) -/

/-- The block after a caller's `init` from power-up, served and collected, with the turns `ts` to come. -/
def initialisedBlock (cfg : Config) (ts : List Turn) : State :=
  { State.powerUp cfg with
      bus := { Bus.powerUp with
        pinClk := some cfg.pinClk, pinDio := some cfg.pinDio, pinStb := some cfg.pinStb
        lvlClk := some true, lvlDio := some true, lvlStb := some true
        freshClk := some (Config.freshLevel 0), freshDio := some (Config.freshLevel 1)
        freshStb := some (Config.freshLevel 2)
        log := [.setLevel .stb cfg.pinStb true, .setLevel .dio cfg.pinDio true, .setLevel .clk cfg.pinClk true,
                .setDir .stb cfg.pinStb .out, .setDir .dio cfg.pinDio .out, .setDir .clk cfg.pinClk .out] }
      initDone := true
      turns := ts
      outs := 3 }

/-- Three turns from power-up: `init` is issued, served and collected. -/
theorem run_init {cfg : Config} {c : Nat} (hc : c < cfg.nCallers) (ts : List Turn) (n : Nat) :
    Host.Core.run Sys2Proof.core (n + 3)
        { State.powerUp cfg with turns := .issue c 0x010000 :: .serve c :: .collect c :: ts } =
      Host.Core.run Sys2Proof.core n (initialisedBlock cfg ts) := by
  have hport := State.powerUp_port hc
  obtain ⟨hinit, -⟩ := initBindsAndDefaults
    (({ State.powerUp cfg with turns := .collect c :: ts } : State).accepted c 0x010000) rfl rfl
  refine (run_issue_serve (s := { State.powerUp cfg with turns := .collect c :: ts }) hport rfl rfl (by decide) hinit rfl
    (n + 1)).trans (core_run_next ?_)
  have hlt : c < ((State.powerUp cfg).ports.set c (.active 0x010000)).length :=
    List.length_set.trans List.length_replicate ▸ hc
  have hports : (((State.powerUp cfg).ports.set c (.active 0x010000)).set c (.done ⟨.ok, 0⟩)).set c .idle =
      (State.powerUp cfg).ports := by
    rw [List.set_set, List.set_set]
    exact List.set_replicate_self
  exact (collect_of_done (List.getElem?_set_self hlt)).trans
    (congrArg (fun ps => Host.Outcome.next { initialisedBlock cfg ts with ports := ps }) hports)

/-! ### Then `reset` (R333) -/

theorem initialisedBlock_ready {cfg : Config} (hcfg : cfg.admitted = true) (ts : List Turn) (c : Nat) (req : ReqWord) :
    ((initialisedBlock cfg ts).accepted c req).Ready :=
  ⟨⟨Option.some_ne_none c, ⟨rfl, rfl, rfl⟩, rfl, rfl, rfl⟩, hcfg, rfl, rfl⟩

theorem Config.one_le_nCallers {cfg : Config} (h : cfg.admitted = true) : 1 ≤ cfg.nCallers := by
  simp only [Config.admitted, Config.callersOk, Bool.and_eq_true, decide_eq_true_eq] at h
  omega

/-- Settles O60: `init` leaves a ready block at its defaults, and `reset` clears every register from there. -/
theorem initThenResetKnowsAllCells : Obligations.InitThenResetKnowsAllCells := by
  intro cfg a hcfg ha
  have hc := Config.one_le_nCallers hcfg
  obtain ⟨t, hreset, hkept, hsent, hread, hmode, hdc, -⟩ := resetClearsAllRegisters
    ((initialisedBlock cfg []).accepted 0 0x0A0000) (initialisedBlock_ready hcfg [] 0 0x0A0000) rfl
  have hbus := hsent.bus
  have hok : t.releaseOk = true :=
    State.releaseOk_iff.mpr ⟨congrArg Bus.dioDir hbus, .inl (congrArg Bus.lvlStb hbus)⟩
  have hrun := (run_init hc [.issue 0 0x0A0000, .serve 0] 2).trans
    (run_issue_serve (s := initialisedBlock cfg []) (State.powerUp_port hc) rfl rfl (by decide) hreset hok 0)
  have hports : t.ports = (State.powerUp cfg).ports.set 0 (.active 0x0A0000) := congrArg State.ports hkept
  have hresp : t.resp = ⟨.ok, 0⟩ := congrArg State.resp hkept
  have hlt : 0 < t.ports.length := by
    rw [hports, List.length_set]
    exact List.length_replicate ▸ hc
  refine ⟨_, hrun.trans (core_run_zero _), (hread a).trans (if_pos ha), hmode, hdc, congrArg Bus.lvlClk hbus,
    congrArg Bus.lvlDio hbus, congrArg Bus.lvlStb hbus, ?_⟩
  rw [← hresp]
  exact List.getElem?_set_self hlt

end Sys2Proof.Machine
end
